-- ==== Sys2Proof/Word.lean ====
section
/-! DEFINITION. The unit of data: one byte (00_scope R6 `BYTE_W` = 8, R7) and the 16-bit measurement field. -/

namespace Sys2Proof

/-- A byte, an unsigned integer in 0..255 (00_scope R7). Addition on it is addition modulo 256 (R118). -/
abbrev Byte := BitVec 8

/-- A 16-bit unsigned measurement field (30_encoding R88). -/
abbrev Half := BitVec 16

end Sys2Proof
end

