-- ==== Sys2Proof/Config.lean ====
section
/-! DEFINITION. The implementation parameters of 00_scope R6. -/

namespace Sys2Proof.Config

/-- `FRAME_START`, first byte of command and command-echo frames (R6, R80, R81). -/
def frameStart : Byte := 0x5A

/-- `HDR0` of the measurement-frame header pattern (R6, R83). -/
def hdr0 : Byte := 0x59

/-- `HDR1` of the measurement-frame header pattern (R6, R83). -/
def hdr1 : Byte := 0x59

/-- `OVERHEAD`: bytes of a command frame that are no arguments (R6, R82). -/
def overhead : Nat := 4

/-- `MAX_FRAME` (R6, D6): the size of `RBUF` and of `FBUF`. -/
def maxFrame : Nat := 255

/-- `MAX_ARGS` (R6, D7): the size of `ARGBUF`. -/
def maxArgs : Nat := 251

/-- The OPEN pair of parameters `MEAS_SIZE`, `MEAS_HAS_CSUM` (R6, D11, 93 U1): the source's own layout, or
the one alternative the spec allows (42_frame_decoder R164). The layout in force is a field of State that no
step changes, so a claim about every state is a claim about both. -/
inductive MeasLayout where
  /-- `MEAS_SIZE` = 8, `MEAS_HAS_CSUM` = 0: the source's layout, the default. -/
  | plain
  /-- `MEAS_SIZE` = 9, `MEAS_HAS_CSUM` = 1: the open variant of R164. -/
  | checksummed
  deriving DecidableEq, Repr

/-- `MEAS_SIZE` (R6). -/
def MeasLayout.size : MeasLayout → Nat
  | .plain => 8
  | .checksummed => 9

/-- `MEAS_HAS_CSUM` (R6). -/
def MeasLayout.hasCsum : MeasLayout → Bool
  | .plain => false
  | .checksummed => true

/-- How many bytes of a measurement frame follow the three fields (R83: none; R164: the checksum). -/
def MeasLayout.tailBytes : MeasLayout → Nat
  | .plain => 0
  | .checksummed => 1

/-- `MEAS_SIZE` as the 8-bit operand `E` (R26). -/
def MeasLayout.sizeByte (m : MeasLayout) : Byte := BitVec.ofNat 8 m.size

/-- FREE VALUE (93 U8): what the receive channel answers at the n-th pop of an endless channel of which nothing is known;
`none` is `Exhausted` (log entry 6). Nothing constrains it. -/
opaque channelAnswer : Nat → Option Byte

/-- FREE VALUE (93 U5: "`any value`"): the byte that the host's n-th read shows where the spec leaves a read of `RBUF` or
`FBUF` unspecified (log entry 1). Nothing constrains it. -/
opaque unspecifiedByte : Nat → Byte

/-- FREE VALUE (93 U5): the same for a read of the measurement view. -/
opaque unspecifiedHalf : Nat → Half

end Sys2Proof.Config
end

