-- ==== Sys2Proof/Machine/Functions.lean ====
section
/-! DEFINITION. The operation level (00_scope R5): the spec's pure functions on byte sequences. They are the
normative meaning of the operations; the byte-serial machine is proved to agree with them. -/

namespace Sys2Proof.Machine

open Config

/-! ### Checksum (40_checksum_accumulator) -/

/-- `compute(s)` = `sum8(s)`, the low 8 bits of the sum of all bytes (R110); 0 for the empty sequence (R8). -/
def sum8 : List Byte → Byte
  | [] => 0
  | b :: bs => b + sum8 bs

/-- `verify(s)`: the sum of all bytes but the last equals the last (R111); false for the empty sequence (D9). -/
def verify (bs : List Byte) : Bool :=
  match bs.getLast? with
  | none => false
  | some k => sum8 bs.dropLast == k

/-! ### Frames (41_frame_encoder, 30_encoding) -/

/-- The length byte of a frame with n argument bytes, n + 4 (R82). -/
def lengthByte (n : Nat) : Byte := BitVec.ofNat 8 (n + overhead)

/-- `body` of R131: the frame before its checksum. -/
def frameBody (code : Byte) (args : List Byte) : List Byte :=
  frameStart :: lengthByte args.length :: code :: args

/-- `encode(code, args)` of R131. -/
def encodeFrame (code : Byte) (args : List Byte) : List Byte :=
  frameBody code args ++ [sum8 (frameBody code args)]

/-- A command-echo response frame with its length byte and last byte as received (R81). -/
def echoFrame (length code : Byte) (payload : List Byte) (checksum : Byte) : List Byte :=
  frameStart :: length :: code :: payload ++ [checksum]

/-- `le16`: low byte first (R8, R58, R88). -/
def le16 (lo hi : Byte) : Half := BitVec.ofNat 16 (lo.toNat + 256 * hi.toNat)

/-- The low byte of a 16-bit field, the one at the lower offset (R58). -/
def loByte (h : Half) : Byte := BitVec.ofNat 8 h.toNat

/-- The high byte of a 16-bit field, the one at the higher offset (R58). -/
def hiByte (h : Half) : Byte := BitVec.ofNat 8 (h.toNat / 256)

/-- A measurement frame: header, three little-endian fields, then `tail` (R83, R164). -/
def measurementFrame (distance strength temperature : Half) (tail : List Byte) : List Byte :=
  hdr0 :: hdr1 :: loByte distance :: hiByte distance :: loByte strength :: hiByte strength ::
    loByte temperature :: hiByte temperature :: tail

/-- The k bytes of an unsigned argument value, least significant first (R87). -/
def leBytes : Nat → Nat → List Byte
  | 0, _ => []
  | k + 1, v => BitVec.ofNat 8 v :: leBytes k (v / 256)

/-! ### Validation (42_frame_decoder) -/

/-- The three results of `decode(raw, E, has_len, has_csum)` (R151). -/
inductive Verdict where
  | ok (raw : List Byte)
  | lengthMismatch
  | checksumMismatch
  deriving DecidableEq, Repr

/-- `decode(raw, E, has_len, has_csum)`: the first line of R151 that applies. -/
def decodeFrame (raw : List Byte) (e : Byte) (hasLen hasCsum : Bool) : Verdict :=
  if raw.length ≠ e.toNat then .lengthMismatch
  else if hasLen = true ∧ (e.toNat < 2 ∨ raw[1]? ≠ some e) then .lengthMismatch
  else if hasCsum = true ∧ verify raw = false then .checksumMismatch
  else .ok raw

/-! ### Resynchronisation (43_uart_resync_matcher) -/

/-- `min K` of R183: the least k with `rx[k]` = `rx[k+1]` = 0x59. -/
def firstHeader : List Byte → Option Nat
  | a :: b :: r =>
    if a = hdr0 ∧ b = hdr1 then some 0 else (firstHeader (b :: r)).map (· + 1)
  | _ => none

/-- The result of `resync(rx, E)` (R183): the frame, how many bytes were discarded ahead of it and what is left
in the channel; or a timeout, which leaves nothing. -/
inductive Sync where
  | ok (skipped : Nat) (frame left : List Byte)
  | timeout
  deriving DecidableEq, Repr

/-- `resync(rx, E)` of R183. -/
def resyncFrame (rx : List Byte) (e : Nat) : Sync :=
  match firstHeader rx with
  | none => .timeout
  | some k => if k + e ≤ rx.length then .ok k ((rx.drop k).take e) (rx.drop (k + e)) else .timeout

/-- The scanning procedure (a) of R188: how many bytes are read up to and including the header, when there is one.
A byte that is not 0x59 is discarded alone; a 0x59 whose successor is not 0x59 is discarded with it. -/
def scanByDiscard : List Byte → Option Nat
  | [] => none
  | [_] => none
  | a :: b :: r =>
    if a = hdr0 then
      if b = hdr1 then some 2 else (scanByDiscard r).map (· + 2)
    else (scanByDiscard (b :: r)).map (· + 1)

/-- The scanning procedure (b) of R188: a two-byte shift register, here its older byte, compared with the header
after every byte. -/
def scanByShift : Option Byte → List Byte → Option Nat
  | _, [] => none
  | older, b :: r =>
    if older = some hdr0 ∧ b = hdr1 then some 1 else (scanByShift (some b) r).map (· + 1)

/-- The detector of R181 run over a sequence from a given `pd_seen1`: how many bytes it consumes up to a match. -/
def scanByDetector : Bool → List Byte → Option Nat
  | _, [] => none
  | seen, b :: r =>
    if seen = true ∧ b = hdr1 then some 1 else (scanByDetector (decide (b = hdr0)) r).map (· + 1)

end Sys2Proof.Machine
end

