-- ==== Sys2Proof/Machine/Rows.lean ====
section
/-! DEFINITION. Which operands fit their fields, and which rows of the opcode table name special operands. Shared by
WellFormed.lean and by the decoder. -/

namespace Sys2Proof.Machine

open Config

/-- `nargs` is an 8-bit field (R26). 252 to 255 fit it; ENCODE then ends REFUSED (R132). -/
def encodeOperandsFit (args : List Byte) : Bool := decide (args.length ≤ 255)

/-- The mode bits that row DECODE_ECHO names (R101). -/
def isEchoMode (hasLen hasCsum : Bool) : Bool := hasLen && hasCsum

/-- The operands that row DECODE_MEAS names (R101). -/
def isMeasMode (m : MeasLayout) (e : Byte) (hasLen hasCsum : Bool) : Bool :=
  decide (e = m.sizeByte) && !hasLen && (hasCsum == m.hasCsum)

/-- At most 251 argument bytes: the length field of a frame is one byte (R82). -/
def argsFit (args : List Byte) : Bool := decide (args.length ≤ maxArgs)

/-- The command frame of row CMD_SetFrameRate_10Hz. -/
def isSetFrameRate10Hz (code : Byte) (args : List Byte) : Bool :=
  decide (code = 0x03) && decide (args = [0x0A, 0x00])

/-- The command frame of row CMD_GetVersion. -/
def isGetVersion (code : Byte) (args : List Byte) : Bool :=
  decide (code = 0x01) && decide (args = [])

/-- The response frame of row RSP_GetVersion_3_2_1. -/
def isVersion321 (length code : Byte) (payload : List Byte) (checksum : Byte) : Bool :=
  decide (length = 0x07) && decide (code = 0x01) && decide (payload = [0x03, 0x02, 0x01]) && decide (checksum = 0x68)

end Sys2Proof.Machine
end

