-- ==== Sys2Proof/Syntax.lean ====
section
/-! DEFINITION. The instructions: one constructor per row of spec/opcode_table.json.

An instruction of this hardware is what one request asks of the two blocks: an operation-select code with its
operands (30_encoding R95, R26), or a frame of one of the three kinds (R80, R81, R83) on its way through them.
The bytes an operation consumes from `IN` or `RX` are no operand of it: they are in State. -/

namespace Sys2Proof

inductive Instr where
  /-- Row NOP, `op` = 0 (R100). -/
  | nop
  /-- Row CSUM_COMPUTE, `op` = 1 (R115). -/
  | csumCompute
  /-- Row CSUM_VERIFY, `op` = 2 (R116). -/
  | csumVerify
  /-- Row ENCODE, `op` = 3 (R130). The operand `nargs` is the number of bytes of `args` (R26; log
  entry 19). -/
  | encode (code : Byte) (args : List Byte)
  /-- Row DECODE, `op` = 4 (R150), in the spellings that no pseudo-operation names. -/
  | decode (e : Byte) (hasLen hasCsum : Bool)
  /-- Row RESYNC, `op` = 5 (R180). -/
  | resync (e : Byte)
  /-- Row RESERVED_6, `op` = 6 (R97). -/
  | reserved6
  /-- Row RESERVED_7, `op` = 7 (R97). -/
  | reserved7
  /-- Row DECODE_ECHO (R101): DECODE with `has_len` = 1 and `has_csum` = 1. -/
  | decodeEcho (e : Byte)
  /-- Row DECODE_MEAS (R101): DECODE with `E` = `MEAS_SIZE`, `has_len` = 0, `has_csum` = `MEAS_HAS_CSUM`. -/
  | decodeMeas
  /-- Row FRAME_COMMAND (R80): a command frame, host to device, which ENCODE produces. -/
  | frameCommand (code : Byte) (args : List Byte)
  /-- Row FRAME_ECHO_RESPONSE (R81): a received command-echo response of 4 to 255 bytes. Its length byte and its
  last byte are what arrived, right or wrong: DECODE is what checks them. -/
  | frameEchoResponse (length code : Byte) (payload : List Byte) (checksum : Byte)
  /-- Row FRAME_MEASUREMENT (R83): a measurement frame arriving on the UART. `tail` holds the bytes after the three
  fields: none in the source's layout, the checksum byte in the open variant (R164). -/
  | frameMeasurement (distance strength temperature : Half) (tail : List Byte)
  /-- Row CMD_SetFrameRate_10Hz (R215): the command frame 5A 06 03 0A 00 6D. -/
  | cmdSetFrameRate10Hz
  /-- Row RSP_GetVersion_3_2_1 (R215): the response frame 5A 07 01 03 02 01 68. -/
  | rspGetVersion321
  /-- Row CMD_GetVersion (R215): the command frame 5A 04 01 5F. -/
  | cmdGetVersion
  deriving DecidableEq, Repr

end Sys2Proof
end

