-- ==== Sys2Proof/WellFormed.lean ====
section
/-! DEFINITION. Which terms of Instr stand for a request a host can make.

Two kinds of check: an operand fits its field (R26, R82), and a general row is not used where a more special row of
the opcode table names the same bits (DECODE_ECHO and DECODE_MEAS for DECODE, the frames the source prints for
FRAME_COMMAND and FRAME_ECHO_RESPONSE), so that every request has one reading. -/

namespace Sys2Proof

open Config Machine

/-- Well-formedness under a measurement layout. -/
def Instr.wf (m : MeasLayout) : Instr → Bool
  | .nop => true
  | .csumCompute => true
  | .csumVerify => true
  | .encode _ args => encodeOperandsFit args
  | .decode e hasLen hasCsum => !isEchoMode hasLen hasCsum && !isMeasMode m e hasLen hasCsum
  | .resync _ => true
  | .reserved6 => true
  | .reserved7 => true
  | .decodeEcho _ => true
  | .decodeMeas => true
  | .frameCommand code args => argsFit args && !isSetFrameRate10Hz code args && !isGetVersion code args
  | .frameEchoResponse length code payload checksum => argsFit payload && !isVersion321 length code payload checksum
  | .frameMeasurement _ _ _ tail => decide (tail.length = m.tailBytes)
  | .cmdSetFrameRate10Hz => true
  | .rspGetVersion321 => true
  | .cmdGetVersion => true

end Sys2Proof
end

