-- ==== Sys2Proof/Decode.lean ====
section
/-! DEFINITION. Requests, the decoder (total, rejecting by name) and, after it, the encoder.

The spec gives an operation a 3-bit select code with "operands on their own fields" (30_encoding R95, R96) and leaves
their binding free (92 D2). This model writes a request as bytes: the select code zero-extended to one byte, then the
operand fields, one byte each, in the order R26 lists them (log entry 4). A frame is written as the bytes the wire
carries (R57), and it is delimited: the request holds the whole frame and nothing else. -/

namespace Sys2Proof

open Config Machine

/-- One request, as bytes, with the way it goes. -/
inductive Request where
  /-- A start on the command interface of the blocks (R95, R96). -/
  | command (bytes : List Byte)
  /-- A frame from the host to the device (R80). -/
  | toDevice (bytes : List Byte)
  /-- A frame from the device to the host (R81, R83). -/
  | fromDevice (bytes : List Byte)
  deriving DecidableEq, Repr

/-- The bytes of a request. -/
def Request.bytes : Request → List Byte
  | .command bytes => bytes
  | .toDevice bytes => bytes
  | .fromDevice bytes => bytes

/-- Why the decoder rejects a request. -/
inductive DecodeError where
  /-- No byte at all. -/
  | empty
  /-- The first byte of a command is no 3-bit code (R95). -/
  | notAnOpSelect
  /-- Fewer bytes than the operands or the frame layout need. -/
  | truncated
  /-- More bytes than the operands or the frame layout have. -/
  | trailing
  /-- DECODE's mode byte has a bit set beside `has_len` and `has_csum` (R26). -/
  | badModeBits
  /-- The first bytes are no frame start of that direction (R85). -/
  | notAFrame
  /-- A command frame's length byte is not its size (R82). -/
  | frameLength
  /-- A command frame's last byte is not the sum of the others (R84). -/
  | frameChecksum
  /-- A frame of more than 255 bytes (R6 `MAX_FRAME`). -/
  | frameTooLong
  deriving DecidableEq, Repr

inductive Decoded where
  | instr (i : Instr)
  | rejected (e : DecodeError)
  deriving DecidableEq, Repr

/-! ### The decoder -/

/-- An operation without operands. -/
def decodeBare (i : Instr) : List Byte → Decoded
  | [] => .instr i
  | _ :: _ => .rejected .trailing

/-- ENCODE's operands: `code`, `nargs`, then `nargs` argument bytes (R26, R130). -/
def decodeEncode : List Byte → Decoded
  | code :: nargs :: args =>
    if args.length < nargs.toNat then .rejected .truncated
    else if nargs.toNat < args.length then .rejected .trailing
    else .instr (.encode code args)
  | _ => .rejected .truncated

/-- The most special row that names DECODE with these operands (R101). -/
def pickDecode (m : MeasLayout) (e : Byte) (hasLen hasCsum : Bool) : Instr :=
  if isEchoMode hasLen hasCsum then .decodeEcho e
  else if isMeasMode m e hasLen hasCsum then .decodeMeas
  else .decode e hasLen hasCsum

/-- DECODE's operands: `E`, then a byte with `has_len` in bit 0 and `has_csum` in bit 1 (R26, R150). -/
def decodeDecode (m : MeasLayout) : List Byte → Decoded
  | [e, mode] =>
    if 3 < mode.toNat then .rejected .badModeBits
    else .instr (pickDecode m e (mode.getLsbD 0) (mode.getLsbD 1))
  | _ :: _ :: _ :: _ => .rejected .trailing
  | _ => .rejected .truncated

/-- RESYNC's operand: `E` (R26, R180). -/
def decodeResync : List Byte → Decoded
  | [e] => .instr (.resync e)
  | _ :: _ :: _ => .rejected .trailing
  | [] => .rejected .truncated

/-- The operation-select codes of R95. -/
def decodeCommand (m : MeasLayout) : List Byte → Decoded
  | [] => .rejected .empty
  | op :: operands =>
    match op.toNat with
    | 0 => decodeBare .nop operands
    | 1 => decodeBare .csumCompute operands
    | 2 => decodeBare .csumVerify operands
    | 3 => decodeEncode operands
    | 4 => decodeDecode m operands
    | 5 => decodeResync operands
    | 6 => decodeBare .reserved6 operands
    | 7 => decodeBare .reserved7 operands
    | _ => .rejected .notAnOpSelect

/-- The most special row that names a command frame with this code and these arguments (R80, R215). -/
def pickCommandFrame (code : Byte) (args : List Byte) : Instr :=
  if isSetFrameRate10Hz code args then .cmdSetFrameRate10Hz
  else if isGetVersion code args then .cmdGetVersion
  else .frameCommand code args

/-- A command frame (R80): its length byte counts all its bytes (R82) and its last byte is their sum (R84). -/
def decodeToDevice : List Byte → Decoded
  | [] => .rejected .empty
  | b0 :: rest =>
    if b0 ≠ frameStart then .rejected .notAFrame
    else match rest with
      | length :: code :: more =>
        if more = [] then .rejected .truncated
        else if rest.length + 1 ≠ length.toNat then .rejected .frameLength
        else if verify (b0 :: rest) = false then .rejected .frameChecksum
        else .instr (pickCommandFrame code more.dropLast)
      | _ => .rejected .truncated

/-- The most special row that names this response frame (R81, R215). -/
def pickEchoFrame (length code : Byte) (payload : List Byte) (checksum : Byte) : Instr :=
  if isVersion321 length code payload checksum then .rspGetVersion321
  else .frameEchoResponse length code payload checksum

/-- A received command-echo response, after its first byte (R81). -/
def decodeEchoFrame : List Byte → Decoded
  | length :: code :: more =>
    match more.getLast? with
    | none => .rejected .truncated
    | some checksum =>
      if maxFrame < more.length + 3 then .rejected .frameTooLong
      else .instr (pickEchoFrame length code more.dropLast checksum)
  | _ => .rejected .truncated

/-- A measurement frame, after its two header bytes (R83, R164). -/
def decodeMeasFrame (m : MeasLayout) : List Byte → Decoded
  | dl :: dh :: sl :: sh :: tl :: th :: tail =>
    if tail.length < m.tailBytes then .rejected .truncated
    else if m.tailBytes < tail.length then .rejected .trailing
    else .instr (.frameMeasurement (le16 dl dh) (le16 sl sh) (le16 tl th) tail)
  | _ => .rejected .truncated

/-- A frame from the device: its first byte or bytes say its kind (R85). -/
def decodeFromDevice (m : MeasLayout) : List Byte → Decoded
  | [] => .rejected .empty
  | b0 :: rest =>
    if b0 = frameStart then decodeEchoFrame rest
    else if b0 = hdr0 then
      match rest with
      | [] => .rejected .truncated
      | b1 :: fields => if b1 = hdr1 then decodeMeasFrame m fields else .rejected .notAFrame
    else .rejected .notAFrame

/-- The decoder. -/
def decode (m : MeasLayout) : Request → Decoded
  | .command bytes => decodeCommand m bytes
  | .toDevice bytes => decodeToDevice bytes
  | .fromDevice bytes => decodeFromDevice m bytes

/-! ### Words numbered as the opcode table numbers them -/

/-- The n bytes of a literal of the table, "byte 0 in the most significant position" (30_encoding, opening). -/
def tableBytes : Nat → Nat → List Byte
  | 0, _ => []
  | n + 1, w => BitVec.ofNat 8 (w / 256 ^ n) :: tableBytes n w

/-- Zero bytes appended up to a length. -/
def padTo (n : Nat) (bs : List Byte) : List Byte := bs ++ List.replicate (n - bs.length) 0

/-- How many bytes a command has when all its operand bytes are zero. -/
def commandSize (op : Byte) : Nat :=
  match op.toNat with
  | 3 => 3
  | 4 => 3
  | 5 => 2
  | _ => 1

/-- Is the request one that decodes? -/
def Decoded.accepted : Decoded → Bool
  | .instr _ => true
  | .rejected _ => false

/-- The response frame that row RSP_GetVersion_3_2_1 prints. -/
def version321Bytes : List Byte := [0x5A, 0x07, 0x01, 0x03, 0x02, 0x01, 0x68]

/-- The request that a word of the table stands for, the operand bytes it leaves out being zero: the frame kinds by
their first byte (R85), a command frame to the device where its length and checksum are right, the response the
source prints and any other frame that starts with 0x5A from the device, everything else on the command interface (log
entry 20). -/
def tableRequest (nbits w : Nat) : Request :=
  let bytes := tableBytes (nbits / 8) w
  match bytes with
  | [] => .command []
  | b0 :: _ =>
    if b0 = hdr0 then .fromDevice (padTo 8 bytes)
    else if b0 = frameStart then
      if bytes = version321Bytes then .fromDevice bytes
      else if (decodeToDevice bytes).accepted then .toDevice bytes
      else .fromDevice (padTo 4 bytes)
    else .command (padTo (commandSize b0) bytes)

/-- What the decoder reads from a word of the opcode table, under the source's measurement layout. -/
def decodeTableWord (nbits w : Nat) : Option Instr :=
  match decode .plain (tableRequest nbits w) with
  | .instr i => some i
  | .rejected _ => none

/-! ### The encoder, from the same tables -/

/-- DECODE's mode byte. -/
def modeByte (hasLen hasCsum : Bool) : Byte :=
  (if hasLen then 1 else 0) + (if hasCsum then 2 else 0)

/-- The request of an instruction. -/
def encode (m : MeasLayout) : Instr → Request
  | .nop => .command [0]
  | .csumCompute => .command [1]
  | .csumVerify => .command [2]
  | .encode code args => .command (3 :: code :: BitVec.ofNat 8 args.length :: args)
  | .decode e hasLen hasCsum => .command [4, e, modeByte hasLen hasCsum]
  | .resync e => .command [5, e]
  | .reserved6 => .command [6]
  | .reserved7 => .command [7]
  | .decodeEcho e => .command [4, e, modeByte true true]
  | .decodeMeas => .command [4, m.sizeByte, modeByte false m.hasCsum]
  | .frameCommand code args => .toDevice (encodeFrame code args)
  | .frameEchoResponse length code payload checksum => .fromDevice (echoFrame length code payload checksum)
  | .frameMeasurement distance strength temperature tail =>
    .fromDevice (measurementFrame distance strength temperature tail)
  | .cmdSetFrameRate10Hz => .toDevice [0x5A, 0x06, 0x03, 0x0A, 0x00, 0x6D]
  | .rspGetVersion321 => .fromDevice version321Bytes
  | .cmdGetVersion => .toDevice [0x5A, 0x04, 0x01, 0x5F]

end Sys2Proof
end

