-- ==== Sys2Proof/Machine/State.lean ====
section
/-! DEFINITION. The state of the machine, as plain data, and its reset value.

Three groups of fields: the 25 elements of 10_state R20 under their own names, which are all the state the two blocks
have; the environment that the blocks meet (the receive channel, the transmit sink, the decoder input stream and the
host's coming moves; 00_scope R11 agents 3 to 5); and fields of the model's own, marked so. -/

namespace Sys2Proof.Machine

open Config

/-- A frame buffer (R27): the entries written since reset, by index. -/
abbrev Memory := List Host.Cell

/-- `pf_phase` (R24). -/
inductive PfPhase where
  /-- `PF_IDLE` -/
  | idle
  /-- `C_RUN` -/
  | cRun
  /-- `V_RUN` -/
  | vRun
  /-- `E_HDR` -/
  | eHdr
  /-- `E_LEN` -/
  | eLen
  /-- `E_CODE` -/
  | eCode
  /-- `E_ARGS` -/
  | eArgs
  /-- `E_CSUM` -/
  | eCsum
  /-- `D_RUN` -/
  | dRun
  deriving DecidableEq, Repr

/-- `rs_phase` (R24). -/
inductive RsPhase where
  /-- `RS_IDLE` -/
  | idle
  /-- `S_HUNT` -/
  | sHunt
  /-- `S_FILL` -/
  | sFill
  deriving DecidableEq, Repr

/-- The result codes of R33. Codes 5 and 6 are never produced. -/
inductive ResultCode where
  /-- `NONE` -/
  | none
  /-- `OK` -/
  | ok
  /-- `LEN_MISMATCH` -/
  | lenMismatch
  /-- `CSUM_MISMATCH` -/
  | csumMismatch
  /-- `SYNC_TIMEOUT` -/
  | syncTimeout
  /-- `REFUSED` -/
  | refused
  deriving DecidableEq, Repr

/-- One element of the decoder input stream: a byte, or the end mark (20_memory R54). -/
inductive InElem where
  | byte (b : Byte)
  | endMark
  deriving DecidableEq, Repr

/-- One answer of the receive channel to `RxPop()` (20_memory R52). -/
inductive RxAnswer where
  | byte (b : Byte)
  | exhausted
  deriving DecidableEq, Repr

/-- What the receive channel answers after the answers listed in `rx` (20_memory R52, 93 U8; log entry 6). -/
inductive RxTail where
  /-- `Exhausted` at every pop. -/
  | exhausted
  /-- An endless stream: these answers, over and over. -/
  | cycle (first : RxAnswer) (more : List RxAnswer)
  /-- An endless stream of which nothing is known (`Config.channelAnswer`). -/
  | oracle
  deriving DecidableEq, Repr

/-- The two blocks (00_scope R1). -/
inductive Block where
  | packetFramer
  | uartResyncMatcher
  deriving DecidableEq, Repr

/-- What the host can read (10_state R28): the status fields, the two buffers and the measurement field view. -/
inductive ReadPort where
  | pfBusy
  | rsBusy
  | pfResult
  | rsResult
  | pfFlag
  | pfCsum
  | rbufValid
  | rbufLen
  | rbuf (i : Byte)
  | fbufValid
  | fbufLen
  | fbuf (i : Byte)
  | measDistance
  | measStrength
  | measTemperature
  deriving DecidableEq, Repr

/-- A value read by the host, with the width of the field (92 D2). -/
inductive ReadValue where
  | bit (b : Bool)
  | code (c : BitVec 3)
  | byte (b : Byte)
  | half (h : Half)
  deriving DecidableEq, Repr

/-- A packet_framer operation, as far as R272 tells them apart. -/
inductive PfOp where
  | csumCompute
  | csumVerify
  | encode
  | decode
  deriving DecidableEq, Repr

/-- A move of the environment that is no request (70_reset R283), or a turn given to the blocks. -/
inductive EnvMove where
  /-- The blocks take one step. -/
  | run
  /-- The host waits until both blocks are idle, which it must before the next operation (R270). -/
  | await
  /-- Reset is asserted (R260). -/
  | reset
  /-- The host supplies one element on `IN` (R54). -/
  | supply (x : InElem)
  /-- The host presents `FBUF[0..rs_E)` and the end mark on `IN` (43 R196). -/
  | presentFbuf
  /-- A byte from the device reaches the receive channel (R34). -/
  | arrive (b : Byte)
  /-- The transmit sink becomes ready to take bytes, or stops taking them (R53). -/
  | sink (ready : Bool)
  /-- The host's direct `readExact(n)` on the UART, presented on `IN` with the end mark (R55). -/
  | readExact (n : Byte)
  /-- The host reads a status field or a buffer entry (R28). -/
  | read (p : ReadPort)
  /-- The host goes on with its call if the result of block `b` is `OK`; else the call has failed and the next `rest`
  moves, which are what is left of it, are not made (44 R218, 30 R101; log entry 23). -/
  | unlessOk (b : Block) (rest : Nat)
  deriving DecidableEq, Repr

/-- One move of the script. -/
inductive Move where
  /-- A request is presented to the blocks. -/
  | request (r : Request)
  | env (m : EnvMove)
  deriving DecidableEq, Repr

structure State where
  /-- `acc`: running sum modulo 256 (R21). -/
  acc : Byte
  /-- `csa_last`: the byte fed last, held back from the sum (R21). -/
  csaLast : Byte
  /-- `csa_have`: `csa_last` holds a byte (R21). -/
  csaHave : Bool
  /-- `pf_phase` (R24). -/
  pfPhase : PfPhase
  /-- `enc_code` (R22). -/
  encCode : Byte
  /-- `enc_n` (R22). -/
  encN : Byte
  /-- `enc_i` (R22). -/
  encI : Byte
  /-- `ARGBUF[0..250]` (R27). -/
  argbuf : Memory
  /-- `dec_E` (R23). -/
  decE : Byte
  /-- `dec_has_len` (R23). -/
  decHasLen : Bool
  /-- `dec_has_csum` (R23). -/
  decHasCsum : Bool
  /-- `dec_cnt` (R23). -/
  decCnt : Byte
  /-- `dec_over` (R23). -/
  decOver : Bool
  /-- `dec_len` (R23). -/
  decLen : Byte
  /-- `RBUF[0..254]` (R27). -/
  rbuf : Memory
  /-- `rbuf_valid` (R31). -/
  rbufValid : Bool
  /-- `pf_result` (R33). -/
  pfResult : ResultCode
  /-- `pf_flag` (R30). -/
  pfFlag : Bool
  /-- `rs_phase` (R24). -/
  rsPhase : RsPhase
  /-- `rs_E` (R25). -/
  rsE : Byte
  /-- `rs_cnt` (R25). -/
  rsCnt : Byte
  /-- `pd_seen1` (R25). -/
  pdSeen1 : Bool
  /-- `FBUF[0..254]` (R27). -/
  fbuf : Memory
  /-- `fbuf_valid` (R31). -/
  fbufValid : Bool
  /-- `rs_result` (R33). -/
  rsResult : ResultCode
  /-- The receive channel `RX`: its coming answers, the next first (R34, R52; log entry 6). -/
  rx : List RxAnswer
  /-- What the receive channel answers after those (R52; log entry 6). -/
  rxTail : RxTail
  /-- How many answers of an endless `rxTail` have been given (log entry 6). -/
  rxTurn : Nat
  /-- The transmit stream `TX`: the bytes the sink has taken, oldest first (R53). -/
  tx : List Byte
  /-- Does the transmit sink take a byte now (R53)? -/
  txReady : Bool
  /-- The decoder input stream `IN`: what the host has supplied and no operation has consumed (R54). -/
  inp : List InElem
  /-- The moves of the environment still to come, the next first. The model's own (log entry 5). -/
  script : List Move
  /-- The value the last host read returned. The model's own (log entry 10). -/
  lastRead : Option ReadValue
  /-- How many reads the host has made, so that each unspecified one has a free value of its own. The model's own (log
  entry 1). -/
  readTurn : Nat
  /-- The packet_framer operation accepted last, which decides whether what `pf_csum` or `pf_flag` shows is a result to be
  read (R272). The model's own (log entry 9). -/
  pfOp : Option PfOp
  /-- The measurement layout, which no step changes (R6 OPEN parameters; log entry 8). -/
  meas : MeasLayout
  deriving DecidableEq, Repr

/-- Why the machine stops with a fault. The hardware itself has no trap (60_exceptions R230); each of these stands for a
state that the spec excludes. All are safe: no run reaches them. -/
inductive Fault where
  /-- ENCODE reads an `ARGBUF` entry that nothing has written (R39: no rule ever does). Raised by `eArgsStep`, only in
  states that no run reaches (log entry 15). Safe. -/
  | argUnwritten
  /-- RESYNC stores at `FBUF[255]`, which does not exist (R27). Raised by `sFillStep`, only in states that no run
  reaches (log entry 15). Safe. -/
  | fbufIndex
  deriving DecidableEq, Repr

/-- Why the machine gives a move no meaning. All are safe. -/
inductive Refusal where
  /-- No meaning is written for the instruction. Raised only by an arm of `exec`. Safe. -/
  | notModelled (mnemonic : String)
  /-- A start on one block while the other is busy, or a step with both busy (10_state R29, 93 U7: "refuse").
  Raised by `startPf`, `startRs` and `blockStep` (log entry 2). Safe. -/
  | overlap
  /-- An element on `IN` after the end mark, while the operation that reads `IN` runs (70_reset R283: no move in a model).
  Raised by `hostMove` for a `supply` or a `presentFbuf` (log entry 24). Safe. -/
  | supplyAfterEnd
  /-- The host's direct transport read while a block is busy (70_reset R283, 93 U7). Raised by `hostMove` (log entry 3).
  Safe. -/
  | readOverlap
  /-- The request is no encoding of an instruction. Raised by `runRequest` (log entry 4). Safe. -/
  | undecodable (e : DecodeError)
  deriving DecidableEq, Repr

/-- The outcome of a step of this machine. -/
abbrev Outcome := Host.Outcome State Fault Refusal

/-- The machine right after reset (10_state R37), with nothing in its environment: an empty channel, nothing sent, a
ready sink, no input and no move to come (DESIGN CHOICE, log entry 12). The buffers hold no value (R37, R39; log entry 1). -/
def State.reset : State where
  acc := 0
  csaLast := 0
  csaHave := false
  pfPhase := .idle
  encCode := 0
  encN := 0
  encI := 0
  argbuf := []
  decE := 0
  decHasLen := false
  decHasCsum := false
  decCnt := 0
  decOver := false
  decLen := 0
  rbuf := []
  rbufValid := false
  pfResult := .none
  pfFlag := false
  rsPhase := .idle
  rsE := 0
  rsCnt := 0
  pdSeen1 := false
  fbuf := []
  fbufValid := false
  rsResult := .none
  rx := []
  rxTail := .exhausted
  rxTurn := 0
  tx := []
  txReady := true
  inp := []
  script := []
  lastRead := none
  readTurn := 0
  pfOp := none
  meas := .plain

end Sys2Proof.Machine
end

