-- ==== Sys2Proof/Machine/Ops.lean ====
section
/-! DEFINITION. The named operations over the buffers, the streams and the registers that the meanings share, and
reset. The hardware has no exception to take and none to return from (60_exceptions R230, R241): what stands in their
place is `finish(r)` (00_scope R9), in Machine/Flags.lean. -/

namespace Sys2Proof.Machine

open Config

/-! ### Frame buffers (10_state R27, R39) -/

/-- What an entry that nothing has written since reset reads as: no value (R37, R39; log entry 1). -/
def Memory.unlisted : Option Byte := none

/-- `BUF[i]`. -/
def Memory.read : Memory → Nat → Option Byte
  | [], _ => Memory.unlisted
  | (j, w) :: r, i => if i = j then some w else Memory.read r i

/-- `BUF[i] <- v`, keeping the entries in rising order of index. -/
def Memory.write : Memory → Nat → Byte → Memory
  | [], i, v => [(i, v)]
  | (j, w) :: r, i, v =>
    if i < j then (i, v) :: (j, w) :: r
    else if i = j then (i, v) :: r
    else (j, w) :: Memory.write r i v

/-- `BUF[start + k] <- bs[k]` for every k. -/
def Memory.store : Memory → Nat → List Byte → Memory
  | m, _, [] => m
  | m, start, b :: bs => Memory.store (Memory.write m start b) (start + 1) bs

/-- Strictly rising indices. -/
def Memory.rising : Memory → Bool
  | [] => true
  | [_] => true
  | a :: b :: r => decide (a.1 < b.1) && Memory.rising (b :: r)

/-- The canonical form of a buffer with `size` entries. -/
def Memory.wf (size : Nat) (m : Memory) : Bool :=
  Memory.rising m && m.all (fun c => decide (c.1 < size))

/-! ### Streams (20_memory R52 to R54) -/

/-- `InPop()`: the next element of `IN`, or nothing when the host has supplied none (the operation then holds). -/
def inPop (s : State) : Option (InElem × State) :=
  match s.inp with
  | [] => none
  | x :: rest => some (x, { s with inp := rest })

/-- The n-th answer of the channel's tail (log entry 6). -/
def RxTail.answer : RxTail → Nat → RxAnswer
  | .exhausted, _ => .exhausted
  | .cycle first more, n => ((first :: more)[n % (more.length + 1)]?).getD first
  | .oracle, n =>
    match channelAnswer n with
    | some b => .byte b
    | none => .exhausted

/-- How many answers of the tail have been given after one more: only an endless tail counts them. -/
def RxTail.turnAfter : RxTail → Nat → Nat
  | .exhausted, n => n
  | .cycle _ _, n => n + 1
  | .oracle, n => n + 1

/-- `RxPop()`: always answered, first from the list, then from the tail (log entries 6, 16). -/
def rxPop (s : State) : RxAnswer × State :=
  match s.rx with
  | [] => (s.rxTail.answer s.rxTurn, { s with rxTurn := s.rxTail.turnAfter s.rxTurn })
  | a :: rest => (a, { s with rx := rest })

/-- `TxPush(b)`, or nothing when the sink does not take the byte (ENCODE then holds, R138). -/
def txPush (b : Byte) (s : State) : Option State :=
  if s.txReady then some { s with tx := s.tx ++ [b] } else none

/-- The host supplies a whole sequence and its end mark on `IN` (R54). -/
def supplyAll (bs : List Byte) (s : State) : State :=
  { s with inp := s.inp ++ bs.map .byte ++ [.endMark] }

/-- Bytes from the device reach the receive channel, in the order sent (R52). -/
def deliver (bs : List Byte) (s : State) : State :=
  { s with rx := s.rx ++ bs.map .byte }

/-- The host's `readExact(n)` on the channel: up to n bytes, fewer when it is exhausted first (R51, R55; log
entry 16). -/
def takeRx : Nat → State → List Byte × State
  | 0, s => ([], s)
  | n + 1, s =>
    match rxPop s with
    | (.exhausted, t) => ([], t)
    | (.byte b, t) => (b :: (takeRx n t).1, (takeRx n t).2)

/-- Is the end mark of the running operation on `IN` already? -/
def endSupplied (s : State) : Bool :=
  match s.pfPhase with
  | .cRun => s.inp.contains .endMark
  | .vRun => s.inp.contains .endMark
  | .dRun => s.inp.contains .endMark
  | .idle => false
  | .eHdr => false
  | .eLen => false
  | .eCode => false
  | .eArgs => false
  | .eCsum => false

/-! ### checksum_accumulator (40_checksum_accumulator R112, R113) -/

/-- `CSA.clear`. -/
def csaClear (s : State) : State := { s with acc := 0, csaHave := false, csaLast := 0 }

/-- `CSA.add(b)`. -/
def csaAdd (b : Byte) (s : State) : State := { s with acc := s.acc + b }

/-- `CSA.feed(b)`. -/
def csaFeed (b : Byte) (s : State) : State :=
  { s with acc := if s.csaHave then s.acc + s.csaLast else s.acc, csaLast := b, csaHave := true }

/-- `CSA.match`. -/
def csaMatch (s : State) : Bool := s.csaHave && s.acc == s.csaLast

/-! ### pattern_detector (43_uart_resync_matcher R181) -/

/-- Does `PD.step(b)` report a match? -/
def pdMatch (b : Byte) (s : State) : Bool := s.pdSeen1 && b == hdr1

/-- `PD.step(b)` without a match. -/
def pdNote (b : Byte) (s : State) : State := { s with pdSeen1 := b == hdr0 }

/-! ### Reset (10_state R37, 70_reset R260, R262, R263) -/

/-- Reset: every element of R20 at its reset value; nothing of the environment changes (log entry 11 for `IN`). -/
def resetBlocks (s : State) : State :=
  { State.reset with
    rx := s.rx
    rxTail := s.rxTail
    rxTurn := s.rxTurn
    tx := s.tx
    txReady := s.txReady
    inp := s.inp
    script := s.script
    lastRead := s.lastRead
    readTurn := s.readTurn
    meas := s.meas }

end Sys2Proof.Machine
end

