-- ==== Sys2Proof/Machine/Flags.lean ====
section
/-! DEFINITION. Busy, result codes, valid bits and `pf_flag`; the end of an operation and the acceptance of a start. -/

namespace Sys2Proof.Machine

/-- The 3-bit code of a result (10_state R33). -/
def ResultCode.code : ResultCode → BitVec 3
  | .none => 0
  | .ok => 1
  | .lenMismatch => 2
  | .csumMismatch => 3
  | .syncTimeout => 4
  | .refused => 7

/-- `pf_busy` (R28). -/
def State.pfBusy (s : State) : Bool := s.pfPhase != .idle

/-- `rs_busy` (R28). -/
def State.rsBusy (s : State) : Bool := s.rsPhase != .idle

/-- The result field of a block (R33). -/
def State.result (s : State) : Block → ResultCode
  | .packetFramer => s.pfResult
  | .uartResyncMatcher => s.rsResult

/-- `finish(r)` of packet_framer (00_scope R9): the one way an operation of it ends, success or failure alike
(60_exceptions R230, R240). -/
def finishPf (r : ResultCode) (s : State) : State := { s with pfResult := r, pfPhase := .idle }

/-- `finish(r)` of uart_resync_matcher. -/
def finishRs (r : ResultCode) (s : State) : State := { s with rsResult := r, rsPhase := .idle }

/-- `pf_flag <- v` (R30). -/
def setFlag (v : Bool) (s : State) : State := { s with pfFlag := v }

/-- A start for packet_framer, `accepted` being the state after its starting step: ignored while the block is busy
(R29), given no meaning while the other block is (D3, 93 U7), accepted otherwise. -/
def startPf (s accepted : State) : Outcome :=
  if s.pfBusy then .next s
  else if s.rsBusy then .refused .overlap
  else .next accepted

/-- A start for uart_resync_matcher. -/
def startRs (s accepted : State) : Outcome :=
  if s.rsBusy then .next s
  else if s.pfBusy then .refused .overlap
  else .next accepted

/-- `REFUSED` in the result of packet_framer, the phase staying idle (R132). -/
def refusePf (s : State) : State := { s with pfResult := .refused }

/-- `REFUSED` in the result of uart_resync_matcher, the phase staying idle (R182). -/
def refuseRs (s : State) : State := { s with rsResult := .refused }

/-- A start with a reserved code: `REFUSED` in the result of each block that is idle, and no other effect
(R97; log entry 7). -/
def refuseReserved (s : State) : State :=
  { s with
    pfResult := if s.pfBusy then s.pfResult else .refused
    rsResult := if s.rsBusy then s.rsResult else .refused }

end Sys2Proof.Machine
end

