-- ==== Sys2Proof/Machine/Operands.lean ====
section
/-! DEFINITION. Operands: the starting steps, which sample them once (10_state R26, 20_memory R69), and what the host
reads back (10_state R28). -/

namespace Sys2Proof.Machine

open Config

/-! ### Starting steps (30_encoding R96) -/

/-- The starting step of CSUM_COMPUTE (40 R117). -/
def csumComputeStart (s : State) : State :=
  { csaClear s with pfResult := .none, pfPhase := .cRun, pfOp := some .csumCompute }

/-- The starting step of CSUM_VERIFY (40 R117). -/
def csumVerifyStart (s : State) : State :=
  { csaClear s with pfResult := .none, pfPhase := .vRun, pfOp := some .csumVerify }

/-- The starting step of ENCODE with at most 251 arguments (41 R133). -/
def encodeStart (code : Byte) (args : List Byte) (s : State) : State :=
  { csaClear s with
    encCode := code
    encN := BitVec.ofNat 8 args.length
    encI := 0
    argbuf := Memory.store s.argbuf 0 args
    pfResult := .none
    pfPhase := .eHdr
    pfOp := some .encode }

/-- What an accepted start of ENCODE does: more than 251 arguments are refused (41 R132). -/
def encodeAccepted (code : Byte) (args : List Byte) (s : State) : State :=
  if maxArgs < args.length then refusePf s else encodeStart code args s

/-- The starting step of DECODE (42 R154). -/
def decodeStart (e : Byte) (hasLen hasCsum : Bool) (s : State) : State :=
  { csaClear s with
    decE := e
    decHasLen := hasLen
    decHasCsum := hasCsum
    decCnt := 0
    decOver := false
    decLen := 0
    rbufValid := false
    pfResult := .none
    pfPhase := .dRun
    pfOp := some .decode }

/-- The starting step of RESYNC with `E` of at least 2 (43 R184). -/
def resyncStart (e : Byte) (s : State) : State :=
  { s with
    rsE := e
    rsCnt := 0
    pdSeen1 := false
    fbufValid := false
    rsResult := .none
    rsPhase := .sHunt }

/-- What an accepted start of RESYNC does: an `E` of 0 or 1 is refused (43 R182). -/
def resyncAccepted (e : Byte) (s : State) : State :=
  if e.toNat < 2 then refuseRs s else resyncStart e s

/-! ### Host reads (10_state R28, R39; 70_reset R272) -/

/-- May the host read `RBUF` and the measurement view (R272)? -/
def rbufReadable (s : State) : Bool :=
  !s.pfBusy && decide (s.pfResult = .ok) && s.rbufValid

/-- May the host read `FBUF` (R272)? -/
def fbufReadable (s : State) : Bool :=
  !s.rsBusy && decide (s.rsResult = .ok) && s.fbufValid

/-- `RBUF[i]` for the host, where the spec gives the read a value: in a validated frame (R23, R39, R272). -/
def rbufRead (s : State) (i : Nat) : Option Byte :=
  if rbufReadable s = true ∧ i < s.decE.toNat then Memory.read s.rbuf i else none

/-- `FBUF[i]` for the host, where the spec gives the read a value (R25, R39, R272). -/
def fbufRead (s : State) (i : Nat) : Option Byte :=
  if fbufReadable s = true ∧ i < s.rsE.toNat then Memory.read s.fbuf i else none

/-- A field of the measurement view at offset i of `RBUF`: meaningful when the frame is valid and has at least
8 bytes (42 R160). DESIGN CHOICE (log entry 25): in a valid frame of at least 8 bytes that is no measurement frame, where
R160 leaves the value unspecified, the field is what R160's equation gives; the block cannot tell the kinds apart. -/
def measField (s : State) (i : Nat) : Option Half :=
  if 8 ≤ s.decE.toNat then
    match rbufRead s i, rbufRead s (i + 1) with
    | some lo, some hi => some (le16 lo hi)
    | _, _ => none
  else none

/-- A buffer entry as the host's n-th read shows it: a FREE VALUE where the spec leaves it unspecified (R39, 93 U5: "`any
value`"; log entry 1). -/
def shownByte (v : Option Byte) (n : Nat) : Byte := v.getD (unspecifiedByte n)

/-- A field of the measurement view as the host's n-th read shows it (R160, 93 U5; log entry 1). -/
def shownHalf (v : Option Half) (n : Nat) : Half := v.getD (unspecifiedHalf n)

/-- Has operation `op` ended `OK`, and has no later operation of the block been accepted (R272)? -/
def hasValueOf (op : PfOp) (s : State) : Bool :=
  !s.pfBusy && decide (s.pfResult = .ok) && decide (s.pfOp = some op)

/-- Is a read of this port now one that the host may rely on (R272, R283)? The status fields and the lengths always are;
`pf_flag` and `pf_csum` only as the result of their operation (log entry 9). -/
def readValid (s : State) : ReadPort → Bool
  | .pfBusy => true
  | .rsBusy => true
  | .pfResult => true
  | .rsResult => true
  | .pfFlag => hasValueOf .csumVerify s
  | .pfCsum => hasValueOf .csumCompute s
  | .rbufValid => true
  | .rbufLen => true
  | .rbuf i => (rbufRead s i.toNat).isSome
  | .fbufValid => true
  | .fbufLen => true
  | .fbuf i => (fbufRead s i.toNat).isSome
  | .measDistance => (measField s 2).isSome
  | .measStrength => (measField s 4).isSome
  | .measTemperature => (measField s 6).isSome

/-- What a host read shows, which it may at any time and without effect on the blocks (R28). `pf_csum` is a view of `acc`
at all times (R32, 92 D25), and `pf_flag` the register (R30). -/
def hostRead (s : State) : ReadPort → ReadValue
  | .pfBusy => .bit s.pfBusy
  | .rsBusy => .bit s.rsBusy
  | .pfResult => .code s.pfResult.code
  | .rsResult => .code s.rsResult.code
  | .pfFlag => .bit s.pfFlag
  | .pfCsum => .byte s.acc
  | .rbufValid => .bit s.rbufValid
  | .rbufLen => .byte s.decE
  | .rbuf i => .byte (shownByte (rbufRead s i.toNat) s.readTurn)
  | .fbufValid => .bit s.fbufValid
  | .fbufLen => .byte s.rsE
  | .fbuf i => .byte (shownByte (fbufRead s i.toNat) s.readTurn)
  | .measDistance => .half (shownHalf (measField s 2) s.readTurn)
  | .measStrength => .half (shownHalf (measField s 4) s.readTurn)
  | .measTemperature => .half (shownHalf (measField s 6) s.readTurn)

/-- One read by the host. -/
def readPort (p : ReadPort) (s : State) : State :=
  { s with lastRead := some (hostRead s p), readTurn := s.readTurn + 1 }

/-- `FBUF[0..rs_E)` as the host reads it, entry by entry, to present it on `IN` (43 R196). -/
def shownFrame (s : State) : List Byte :=
  (List.range s.rsE.toNat).map fun i => shownByte (fbufRead s i) (s.readTurn + i)

/-- The host presents `FBUF[0..rs_E)` and the end mark on `IN` (43 R196). -/
def presentFrame (s : State) : State :=
  { supplyAll (shownFrame s) s with readTurn := s.readTurn + s.rsE.toNat }

end Sys2Proof.Machine
end

