-- ==== Sys2Proof/Machine/Checksum.lean ====
section
/-! DEFINITION. CSUM_COMPUTE and CSUM_VERIFY: their starts and the rows of 40_checksum_accumulator R117. -/

namespace Sys2Proof.Machine

/-- CSUM_COMPUTE (R115). -/
def execCsumCompute (s : State) : Outcome := startPf s (csumComputeStart s)

/-- CSUM_VERIFY (R116). -/
def execCsumVerify (s : State) : Outcome := startPf s (csumVerifyStart s)

/-- Phase `C_RUN` (R117). -/
def cRunStep (s : State) : Outcome :=
  match inPop s with
  | none => .next s
  | some (.byte b, t) => .next (csaAdd b t)
  | some (.endMark, t) => .next (finishPf .ok t)

/-- Phase `V_RUN` (R117). -/
def vRunStep (s : State) : Outcome :=
  match inPop s with
  | none => .next s
  | some (.byte b, t) => .next (csaFeed b t)
  | some (.endMark, t) => .next (finishPf .ok (setFlag (csaMatch t) t))

end Sys2Proof.Machine
end

