-- ==== Sys2Proof/Machine/Decoder.lean ====
section
/-! DEFINITION. DECODE, its pseudo-operations, the response frames it validates, and the rows of 42_frame_decoder
R156. -/

namespace Sys2Proof.Machine

open Config

/-- DECODE (R150, R154): no operand value is refused. -/
def execDecode (e : Byte) (hasLen hasCsum : Bool) (s : State) : Outcome :=
  startPf s (decodeStart e hasLen hasCsum s)

/-- DECODE_ECHO (30 R101): DECODE with `has_len` = 1 and `has_csum` = 1. -/
def execDecodeEcho (e : Byte) (s : State) : Outcome :=
  startPf s (decodeStart e true true s)

/-- DECODE_MEAS (30 R101): DECODE with `E` = `MEAS_SIZE`, `has_len` = 0, `has_csum` = `MEAS_HAS_CSUM`. -/
def execDecodeMeas (s : State) : Outcome :=
  startPf s (decodeStart s.meas.sizeByte false s.meas.hasCsum s)

/-- A whole received buffer presented on `IN` and DECODE started on it with its own size, as a command-echo response
(30 R81, R85). The buffer is presented only with an accepted start (DESIGN CHOICE, log entry 13). -/
def validateEcho (raw : List Byte) (s : State) : State :=
  decodeStart (BitVec.ofNat 8 raw.length) true true (supplyAll raw s)

/-- A received command-echo response (30 R81). -/
def execFrameEchoResponse (length code : Byte) (payload : List Byte) (checksum : Byte) (s : State) : Outcome :=
  startPf s (validateEcho (echoFrame length code payload checksum) s)

/-- The response frame GetVersion 3, 2, 1 (44 R215). -/
def execRspGetVersion321 (s : State) : Outcome :=
  startPf s (validateEcho version321Bytes s)

/-- A byte in phase `D_RUN` (R155, R156). -/
def decodeByte (b : Byte) (s : State) : State :=
  if s.decCnt.toNat < maxFrame then
    { csaFeed b s with
      rbuf := Memory.write s.rbuf s.decCnt.toNat b
      decLen := if s.decCnt = 1 then b else s.decLen
      decCnt := s.decCnt + 1 }
  else { s with decOver := true }

/-- The verdict at `End`: the first line of R156 that applies. -/
def decodeVerdict (s : State) : ResultCode :=
  if s.decOver = true ∨ s.decCnt ≠ s.decE then .lenMismatch
  else if s.decHasLen = true ∧ (s.decCnt.toNat < 2 ∨ s.decLen ≠ s.decE) then .lenMismatch
  else if s.decHasCsum = true ∧ csaMatch s = false then .csumMismatch
  else .ok

/-- `End` in phase `D_RUN`: the valid bit is set only with `OK` (10 R31). -/
def decodeEnd (s : State) : State :=
  match decodeVerdict s with
  | .ok => { finishPf .ok s with rbufValid := true }
  | r => finishPf r s

/-- Phase `D_RUN` (R156). -/
def dRunStep (s : State) : Outcome :=
  match inPop s with
  | none => .next s
  | some (.byte b, t) => .next (decodeByte b t)
  | some (.endMark, t) => .next (decodeEnd t)

end Sys2Proof.Machine
end

