-- ==== Sys2Proof/Machine/Encoder.lean ====
section
/-! DEFINITION. ENCODE, the command frames it produces, and the rows of 41_frame_encoder R134. -/

namespace Sys2Proof.Machine

open Config

/-- ENCODE (R130, R132, R133). -/
def execEncode (code : Byte) (args : List Byte) (s : State) : Outcome :=
  startPf s (encodeAccepted code args s)

/-- A command frame on its way to the device: ENCODE is what produces it, from its code and arguments (R80; log
entry 17). -/
def execFrameCommand (code : Byte) (args : List Byte) (s : State) : Outcome :=
  startPf s (encodeAccepted code args s)

/-- The command frame SetFrameRate 10 Hz: ENCODE code=03 args=[0A 00] (R215, R130's example). -/
def execCmdSetFrameRate10Hz (s : State) : Outcome :=
  startPf s (encodeAccepted 0x03 [0x0A, 0x00] s)

/-- The command frame GetVersion: ENCODE code=01 args=[] (R215). -/
def execCmdGetVersion (s : State) : Outcome :=
  startPf s (encodeAccepted 0x01 [] s)

/-- Push a byte and add it to the checksum, then go to a phase; hold while the sink does not take it (R134, R138). -/
def emitStep (b : Byte) (nextPhase : PfPhase) (s : State) : Outcome :=
  match txPush b s with
  | none => .next s
  | some t => .next { csaAdd b t with pfPhase := nextPhase }

/-- Phase `E_HDR`. -/
def eHdrStep (s : State) : Outcome := emitStep frameStart .eLen s

/-- Phase `E_LEN`. -/
def eLenStep (s : State) : Outcome := emitStep (lengthByte s.encN.toNat) .eCode s

/-- Phase `E_CODE`. -/
def eCodeStep (s : State) : Outcome :=
  emitStep s.encCode (if 0 < s.encN.toNat then .eArgs else .eCsum) s

/-- Phase `E_ARGS`. The comparison of the next index is on unbounded numbers (R7). -/
def eArgsStep (s : State) : Outcome :=
  match Memory.read s.argbuf s.encI.toNat with
  | none => .fault .argUnwritten
  | some b =>
    match txPush b s with
    | none => .next s
    | some t =>
      .next { csaAdd b t with
        encI := s.encI + 1
        pfPhase := if s.encI.toNat + 1 < s.encN.toNat then .eArgs else .eCsum }

/-- Phase `E_CSUM`: the checksum byte itself is not added to `acc`. -/
def eCsumStep (s : State) : Outcome :=
  match txPush s.acc s with
  | none => .next s
  | some t => .next (finishPf .ok t)

end Sys2Proof.Machine
end

