-- ==== Sys2Proof/Machine/Resync.lean ====
section
/-! DEFINITION. RESYNC, the measurement frame it locates, and the rows of 43_uart_resync_matcher R186. -/

namespace Sys2Proof.Machine

open Config

/-- RESYNC (R180, R182, R184). -/
def execResync (e : Byte) (s : State) : Outcome :=
  startRs s (resyncAccepted e s)

/-- A measurement frame on the UART: its bytes reach the receive channel whatever the blocks do, and RESYNC with
`E` = `MEAS_SIZE`, which locates such a frame, is started (30 R83, R85; log entry 14). -/
def execFrameMeasurement (distance strength temperature : Half) (tail : List Byte) (s : State) : Outcome :=
  startRs (deliver (measurementFrame distance strength temperature tail) s)
    (resyncAccepted s.meas.sizeByte (deliver (measurementFrame distance strength temperature tail) s))

/-- The frame in `FBUF` is complete. -/
def resyncDone (s : State) : State := { finishRs .ok s with fbufValid := true }

/-- The match: the two header bytes are stored (R185); with `E` = 2 they are the whole frame (R186). -/
def resyncMatch (s : State) : State :=
  let t := { s with
    fbuf := Memory.write (Memory.write s.fbuf 0 hdr0) 1 hdr1
    rsCnt := 2
    pdSeen1 := false }
  if s.rsE = 2 then resyncDone t else { t with rsPhase := .sFill }

/-- Phase `S_HUNT` (R186). -/
def sHuntStep (s : State) : Outcome :=
  match rxPop s with
  | (.exhausted, t) => .next (finishRs .syncTimeout t)
  | (.byte b, t) => .next (if pdMatch b t then resyncMatch t else pdNote b t)

/-- Phase `S_FILL` (R185, R186). The comparison of the count is on unbounded numbers (R7). -/
def sFillStep (s : State) : Outcome :=
  match rxPop s with
  | (.exhausted, t) => .next (finishRs .syncTimeout t)
  | (.byte b, t) =>
    if s.rsCnt.toNat < maxFrame then
      let u := { t with fbuf := Memory.write t.fbuf t.rsCnt.toNat b, rsCnt := t.rsCnt + 1 }
      .next (if s.rsCnt.toNat + 1 = s.rsE.toNat then resyncDone u else u)
    else .fault .fbufIndex

end Sys2Proof.Machine
end

