-- ==== Sys2Proof/Machine/Select.lean ====
section
/-! DEFINITION. The operation-select codes that start no operation: NOP and the reserved codes (30_encoding). -/

namespace Sys2Proof.Machine

/-- NOP: no state element changes (R100). -/
def execNop (s : State) : Outcome := .next s

/-- Reserved code 6 (R97). -/
def execReserved6 (s : State) : Outcome := .next (refuseReserved s)

/-- Reserved code 7 (R97). -/
def execReserved7 (s : State) : Outcome := .next (refuseReserved s)

end Sys2Proof.Machine
end

