-- ==== Sys2Proof/Machine/Dispatch.lean ====
section
/-! DEFINITION. One arm per instruction. -/

namespace Sys2Proof.Machine

def exec (i : Instr) (s : State) : Host.Outcome State Fault Refusal :=
  match i with
  | .nop => Sys2Proof.Machine.execNop s
  | .csumCompute => Sys2Proof.Machine.execCsumCompute s
  | .csumVerify => Sys2Proof.Machine.execCsumVerify s
  | .encode code args => Sys2Proof.Machine.execEncode code args s
  | .decode e hasLen hasCsum => Sys2Proof.Machine.execDecode e hasLen hasCsum s
  | .resync e => Sys2Proof.Machine.execResync e s
  | .reserved6 => Sys2Proof.Machine.execReserved6 s
  | .reserved7 => Sys2Proof.Machine.execReserved7 s
  | .decodeEcho e => Sys2Proof.Machine.execDecodeEcho e s
  | .decodeMeas => Sys2Proof.Machine.execDecodeMeas s
  | .frameCommand code args => Sys2Proof.Machine.execFrameCommand code args s
  | .frameEchoResponse length code payload checksum => Sys2Proof.Machine.execFrameEchoResponse length code payload checksum s
  | .frameMeasurement distance strength temperature tail => Sys2Proof.Machine.execFrameMeasurement distance strength temperature tail s
  | .cmdSetFrameRate10Hz => Sys2Proof.Machine.execCmdSetFrameRate10Hz s
  | .rspGetVersion321 => Sys2Proof.Machine.execRspGetVersion321 s
  | .cmdGetVersion => Sys2Proof.Machine.execCmdGetVersion s

end Sys2Proof.Machine
end

