-- ==== Sys2Proof/Machine/Environment.lean ====
section
/-! DEFINITION. The turns of the agents (00_scope R11): a step of the blocks, a request, and the other moves of the
host, the receive channel and the transmit sink (70_reset R283). -/

namespace Sys2Proof.Machine

/-- One step of packet_framer. An idle block has no step to take (60_exceptions R250). -/
def pfStep (s : State) : Outcome :=
  match s.pfPhase with
  | .idle => .next s
  | .cRun => cRunStep s
  | .vRun => vRunStep s
  | .eHdr => eHdrStep s
  | .eLen => eLenStep s
  | .eCode => eCodeStep s
  | .eArgs => eArgsStep s
  | .eCsum => eCsumStep s
  | .dRun => dRunStep s

/-- One step of uart_resync_matcher. -/
def rsStep (s : State) : Outcome :=
  match s.rsPhase with
  | .idle => .next s
  | .sHunt => sHuntStep s
  | .sFill => sFillStep s

/-- One step of the block that is busy; a holding or idle block leaves the state as it is (log entry 21). Both busy is the overlap
that the spec gives no meaning (93 U7). -/
def blockStep (s : State) : Outcome :=
  if s.pfBusy then
    if s.rsBusy then .refused .overlap else pfStep s
  else rsStep s

/-- A request is decoded and runs. -/
def runRequest (r : Request) (s : State) : Outcome :=
  match decode s.meas r with
  | .instr i => exec i s
  | .rejected e => .refused (.undecodable e)

/-- One environment move; `s` is the state with the move taken off the script, `held` the state with it still there
(for a host that goes on waiting). `presentFbuf` and `readExact` supply all their elements in one move (log entry 22). -/
def hostMove (m : EnvMove) (held s : State) : Outcome :=
  match m with
  | .run => blockStep s
  | .await => if s.pfBusy || s.rsBusy then blockStep held else .next s
  | .reset => .next (resetBlocks s)
  | .supply x => if endSupplied s then .refused .supplyAfterEnd else .next { s with inp := s.inp ++ [x] }
  | .presentFbuf =>
    if endSupplied s then .refused .supplyAfterEnd else .next (presentFrame s)
  | .arrive b => .next (deliver [b] s)
  | .sink ready => .next { s with txReady := ready }
  | .readExact n =>
    if s.pfBusy || s.rsBusy then .refused .readOverlap
    else .next (supplyAll (takeRx n.toNat s).1 (takeRx n.toNat s).2)
  | .read p => .next (readPort p s)
  | .unlessOk b rest => .next (if s.result b = .ok then s else { s with script := s.script.drop rest })

end Sys2Proof.Machine
end

