-- ==== Sys2Proof/Machine/Step.lean ====
section
/-! DEFINITION. The step: the next move of the script, or, when the script is empty, a step of the blocks. -/

namespace Sys2Proof.Machine

/-- One step. -/
def step (s : State) : Host.Outcome State Fault Refusal :=
  match s.script with
  | [] => blockStep s
  | .request r :: rest => runRequest r { s with script := rest }
  | .env m :: rest => hostMove m s { s with script := rest }

/-- The state whose next step runs the instruction of a word of the opcode table: its request stands first in the
script, which is where requests come from. -/
def State.withFetchWord (s : State) (nbits w : Nat) : State :=
  { s with script := .request (tableRequest nbits w) :: s.script }

end Sys2Proof.Machine
end

