-- ==== Sys2Proof/Machine/Catalog.lean ====
section
/-! DEFINITION. What the spec says of the host's CommandProtocol (44_command_catalog), as plain functions. The host is
outside the blocks (00_scope R4), so nothing here is part of a step: these are the operands it chooses, the checks it
makes on a validated buffer, and the order in which it uses the blocks (log entry 18). -/

namespace Sys2Proof.Machine

open Config

/-- `communicationMode` of DeviceSession (R90). -/
inductive CommMode where
  | uart
  | i2c
  deriving DecidableEq, Repr

/-- DeviceSession, owned by the host (00_scope R4); the bus address has 7 bits (20_memory R65). -/
structure DeviceSession where
  communicationMode : CommMode
  busAddress : BitVec 7
  deriving DecidableEq, Repr

/-- The entries of the catalog as the source prints it (R211). -/
inductive CatalogOp where
  | getVersion
  | setFrameRate
  | setBaudRate
  | setOutputFormat
  | setI2CAddress
  | setCommunicationMode
  | enableOutput
  | saveSettings
  | systemReset
  | factoryReset
  | getData
  deriving DecidableEq, Repr

/-- How many argument bytes an entry has (R211). -/
def CatalogOp.nargs : CatalogOp → CommMode → Nat
  | .getVersion, _ => 0
  | .setFrameRate, _ => 2
  | .setBaudRate, _ => 4
  | .setOutputFormat, _ => 1
  | .setI2CAddress, _ => 1
  | .setCommunicationMode, _ => 1
  | .enableOutput, _ => 1
  | .saveSettings, _ => 0
  | .systemReset, _ => 0
  | .factoryReset, _ => 0
  | .getData, .uart => 0
  | .getData, .i2c => 1

/-- The size of an entry's command frame (R211). -/
def CatalogOp.commandSize (op : CatalogOp) (mode : CommMode) : Nat := op.nargs mode + overhead

/-- The command codes the source shows (R215); the others are not in it. -/
def CatalogOp.knownCode : CatalogOp → Option Byte
  | .getVersion => some 0x01
  | .setFrameRate => some 0x03
  | _ => none

/-- The response sizes the source shows (R216); the others are not in it. -/
def CatalogOp.knownResponseSize (m : MeasLayout) : CatalogOp → Option Nat
  | .getVersion => some 7
  | .getData => some m.size
  | _ => none

/-- The frame rates a caller may choose (R90). -/
def frameRates : List Nat := [0, 1, 2, 5, 10, 20, 25, 50, 100, 200, 250, 500, 1000]

/-- The baud rates a caller may choose (R90). -/
def baudRates : List Nat := [9600, 19200, 38400, 57600, 115200]

/-- The output formats a caller may choose (R90). Their one-byte wire codes are not in the source (91 N3). -/
inductive OutputFormat where
  | cm
  | mm
  /-- PIXHAWK-compatible. -/
  | pixhawk
  deriving DecidableEq, Repr

/-- All output formats (R90). -/
def outputFormats : List OutputFormat := [.cm, .mm, .pixhawk]

/-- All communication modes (R90). Their one-byte wire codes are not in the source (91 N3). -/
def communicationModes : List CommMode := [.uart, .i2c]

/-- SetFrameRate's argument bytes (R87, R90). -/
def frameRateArgs (rate : Nat) : List Byte := leBytes 2 rate

/-- SetBaudRate's argument bytes (R87, R90). -/
def baudRateArgs (rate : Nat) : List Byte := leBytes 4 rate

/-- VersionInfo, in the order of the record (30_encoding R89). -/
structure VersionInfo where
  major : Byte
  minor : Byte
  revision : Byte
  deriving DecidableEq, Repr

/-- The version triple of a validated GetVersion response: on the wire revision, minor, major (R89). -/
def versionInfo (frame : List Byte) : Option VersionInfo :=
  match frame[3]?, frame[4]?, frame[5]? with
  | some revision, some minor, some major => some ⟨major, minor, revision⟩
  | _, _, _ => none

/-- `UnexpectedCommandEcho`: byte 2 of the validated response is not the request's code (R214). -/
def unexpectedEcho (code : Byte) (frame : List Byte) : Bool := frame[2]? != some code

/-- The success predicate of the entries that echo their arguments (R213). -/
def echoSucceeds (args frame : List Byte) : Bool := (frame.drop 3).take args.length == args

/-- The success predicate of the entries that answer a status byte (R213). -/
def statusSucceeds (frame : List Byte) : Bool := frame[3]? == some 0

/-- The success predicate of an entry on a validated response (R213). GetVersion and GetData take their fields. -/
def CatalogOp.succeeds (op : CatalogOp) (args frame : List Byte) : Bool :=
  match op with
  | .getVersion => (versionInfo frame).isSome
  | .setFrameRate => echoSucceeds args frame
  | .setBaudRate => echoSucceeds args frame
  | .setOutputFormat => echoSucceeds args frame
  | .setI2CAddress => echoSucceeds args frame
  | .setCommunicationMode => echoSucceeds args frame
  | .enableOutput => echoSucceeds args frame
  | .saveSettings => statusSucceeds frame
  | .systemReset => statusSucceeds frame
  | .factoryReset => statusSucceeds frame
  | .getData => true

/-- SetI2CAddress changes the session only after its success (R217). -/
def afterSetAddress (args frame : List Byte) (address : BitVec 7) (d : DeviceSession) : DeviceSession :=
  if CatalogOp.setI2CAddress.succeeds args frame then { d with busAddress := address } else d

/-- SetCommunicationMode changes the session only after its success and an explicit save (R217). -/
def afterSetMode (args frame : List Byte) (saved : Bool) (mode : CommMode) (d : DeviceSession) : DeviceSession :=
  if CatalogOp.setCommunicationMode.succeeds args frame && saved then { d with communicationMode := mode } else d

/-- `TransmissionError`: the transport wrote fewer bytes than the command frame has (R218, 60_exceptions R236). -/
def transmissionError (args : List Byte) (written : Nat) : Bool := decide (written < args.length + overhead)

/-! ### The host's sequences of block operations (R218; log entry 23) -/

/-- The rest of a call that goes on only if block `b` ended `OK`. -/
def ifOk (b : Block) (rest : List Move) : List Move := .env (.unlessOk b rest.length) :: rest

/-- The host's start of an operation and its wait for the end (70_reset R270). -/
def call (m : MeasLayout) (i : Instr) : List Move := [.request (encode m i), .env .await]

/-- The host reads byte 2 and the payload, bytes 3 to E - 2, of a validated response (R218, step 6). -/
def readResponse (e : Byte) : List Move :=
  (List.range (e.toNat - 3)).map fun j => .env (.read (.rbuf (BitVec.ofNat 8 (j + 2))))

/-- The host reads the measurement view (R218, step 6). -/
def readView : List Move :=
  [.env (.read .measDistance), .env (.read .measStrength), .env (.read .measTemperature)]

/-- READ_ECHO (30 R101): the host's `readExact(E)`, then DECODE_ECHO of what was read. -/
def readEcho (m : MeasLayout) (e : Byte) : List Move :=
  .env (.readExact e) :: call m (.decodeEcho e)

/-- READ_MEAS_UART (30 R101): RESYNC, then, if it ended `OK`, DECODE_MEAS of the frame it found (43 R196); `more` is what
the host does after that. -/
def readMeasUartThen (m : MeasLayout) (more : List Move) : List Move :=
  call m (.resync m.sizeByte) ++ ifOk .uartResyncMatcher (.env .presentFbuf :: (call m .decodeMeas ++ more))

/-- READ_MEAS_UART alone. -/
def readMeasUart (m : MeasLayout) : List Move := readMeasUartThen m []

/-- What the host read on the addressed bus, presented on `IN` with the end mark (20_memory R55). -/
def present (read : List Byte) : List Move :=
  read.map (fun b => .env (.supply (.byte b))) ++ [.env (.supply .endMark)]

/-- A command-echo exchange on the UART. -/
def echoExchangeUart (m : MeasLayout) (code : Byte) (args : List Byte) (e : Byte) : List Move :=
  call m (.encode code args) ++
    ifOk .packetFramer (readEcho m e ++ ifOk .packetFramer (readResponse e))

/-- A command-echo exchange on the addressed bus, where the host read `read`. -/
def echoExchangeBus (m : MeasLayout) (code : Byte) (args : List Byte) (e : Byte) (read : List Byte) : List Move :=
  call m (.encode code args) ++
    ifOk .packetFramer (present read ++ call m (.decodeEcho e) ++ ifOk .packetFramer (readResponse e))

/-- A measurement exchange on the UART. -/
def measurementExchangeUart (m : MeasLayout) (code : Byte) : List Move :=
  call m (.encode code []) ++
    ifOk .packetFramer (readMeasUartThen m (ifOk .packetFramer readView))

/-- A measurement exchange on the addressed bus, where the host read `read`. -/
def measurementExchangeBus (m : MeasLayout) (code flag : Byte) (read : List Byte) : List Move :=
  call m (.encode code [flag]) ++
    ifOk .packetFramer (present read ++ call m .decodeMeas ++ ifOk .packetFramer readView)

end Sys2Proof.Machine
end

