-- ==== Sys2Proof/Safety.lean ====
section
/-! DEFINITION. Safe runs, and the invariant of the machine: what holds at reset and after every step. -/

namespace Sys2Proof.Machine

open Config

/-- Every entry of `BUF[0..n)` has been written. -/
abbrev writtenBelow (m : Memory) (n : Nat) : Prop := ∀ i, i < n → (Memory.read m i).isSome = true

/-- The emission phases of ENCODE (10_state R24). -/
def PfPhase.encoding : PfPhase → Bool
  | .eHdr => true
  | .eLen => true
  | .eCode => true
  | .eArgs => true
  | .eCsum => true
  | _ => false

/-- The buffers are in canonical form, within the sizes of R27. -/
structure BuffersWf (s : State) : Prop where
  argbuf : Memory.wf maxArgs s.argbuf = true
  rbuf : Memory.wf maxFrame s.rbuf = true
  fbuf : Memory.wf maxFrame s.fbuf = true

/-- The results agree with the phases (R24, R33): a busy block has none yet, and a block never shows a code that only
the other produces. -/
structure ResultsLegal (s : State) : Prop where
  pfBusyNone : s.pfPhase ≠ .idle → s.pfResult = .none
  rsBusyNone : s.rsPhase ≠ .idle → s.rsResult = .none
  pfCodes : s.pfResult ≠ .syncTimeout
  rsCodes : s.rsResult ≠ .lenMismatch ∧ s.rsResult ≠ .csumMismatch

/-- While ENCODE emits, its arguments are latched and its index is where its phase says (41 R133 to R135). -/
structure EncoderInv (s : State) : Prop where
  latched : s.pfPhase.encoding = true → s.encN.toNat ≤ maxArgs ∧ writtenBelow s.argbuf s.encN.toNat
  before : s.pfPhase = .eHdr ∨ s.pfPhase = .eLen ∨ s.pfPhase = .eCode → s.encI = 0
  during : s.pfPhase = .eArgs → s.encI.toNat < s.encN.toNat
  after : s.pfPhase = .eCsum → s.encI = s.encN

/-- While DECODE runs, what it has counted is stored; a validated frame is stored whole (42 R155, 10 R31, R39). -/
structure DecoderInv (s : State) : Prop where
  stored : s.pfPhase = .dRun → writtenBelow s.rbuf s.decCnt.toNat
  running : s.pfPhase = .dRun → s.rbufValid = false
  overflow : s.pfPhase = .dRun → s.decOver = true → s.decCnt = 255
  valid : s.rbufValid = true → writtenBelow s.rbuf s.decE.toNat

/-- While RESYNC runs, its count is within the frame and what it has counted is stored; a complete frame is stored
whole and begins with the header (43 R184 to R186, R194). -/
structure ResyncInv (s : State) : Prop where
  hunting : s.rsPhase = .sHunt → 2 ≤ s.rsE.toNat ∧ s.rsCnt = 0
  filling : s.rsPhase = .sFill → 2 ≤ s.rsCnt.toNat ∧ s.rsCnt.toNat < s.rsE.toNat ∧ s.pdSeen1 = false ∧
    Memory.read s.fbuf 0 = some hdr0 ∧ Memory.read s.fbuf 1 = some hdr1 ∧ writtenBelow s.fbuf s.rsCnt.toNat
  running : s.rsPhase ≠ .idle → s.fbufValid = false
  valid : s.fbufValid = true → 2 ≤ s.rsE.toNat ∧ Memory.read s.fbuf 0 = some hdr0 ∧
    Memory.read s.fbuf 1 = some hdr1 ∧ writtenBelow s.fbuf s.rsE.toNat

/-- The invariant. -/
structure State.Inv (s : State) : Prop where
  buffers : BuffersWf s
  oneBusy : s.pfPhase = .idle ∨ s.rsPhase = .idle
  results : ResultsLegal s
  encoder : EncoderInv s
  decoder : DecoderInv s
  resync : ResyncInv s

/-- Both blocks idle: what a start needs of them (70_reset R284, R270). -/
def State.idle (s : State) : Prop := s.pfPhase = .idle ∧ s.rsPhase = .idle

/-- n steps, stopping at the first fault or refusal. -/
def run (n : Nat) (s : State) : Outcome := Host.Core.run Sys2Proof.core n s

/-- A run of n steps from `s` is safe: it does not stop with a fault. -/
def safeRun (n : Nat) (s : State) : Prop :=
  ∀ r, run n s ≠ .fault r

end Sys2Proof.Machine
end

