-- ==== Sys2Proof/Certificates/Slice0/Obligations.lean ====
section
/-! DEFINITION. The statements for the provers. `Sys2Proof.Claims` holds the vocabulary they share; each statement is a
`def Obligations.<Name> : Prop` and its docstring cites the rule it formalises. -/

namespace Sys2Proof.Claims

open Machine Config

/-- A sequence on `IN`, closed by its end mark, and what follows it. -/
def inStream (bs : List Byte) (rest : List InElem) : List InElem := bs.map .byte ++ .endMark :: rest

/-- Bytes the receive channel will deliver, and its answers after them. -/
def rxStream (bs : List Byte) (rest : List RxAnswer) : List RxAnswer := bs.map .byte ++ rest

/-- The channel's next answer is `Exhausted`, and `after` are the listed answers behind it (log entries 6, 16). -/
def answersExhausted (tail : RxTail) (rx after : List RxAnswer) : Prop :=
  rx = .exhausted :: after ∨ (rx = [] ∧ tail = .exhausted ∧ after = [])

/-- The channel's next answer is `a`, and `rx`, `turn` are its listed answers and the turn of its tail after it: the first
listed answer, or, behind the list, `Exhausted` on a channel that ends, the answer of this turn on an endless one (log
entry 6). -/
def channelAnswers (s : State) (a : RxAnswer) (rx : List RxAnswer) (turn : Nat) : Prop :=
  (s.rx = a :: rx ∧ turn = s.rxTurn) ∨
  (s.rx = [] ∧ s.rxTail = .exhausted ∧ a = .exhausted ∧ rx = [] ∧ turn = s.rxTurn) ∨
  (s.rx = [] ∧ s.rxTail ≠ .exhausted ∧ a = s.rxTail.answer s.rxTurn ∧ rx = [] ∧ turn = s.rxTurn + 1)

/-- The same channel with the first n answers of its tail listed. -/
def listed (n : Nat) (s : State) : State :=
  { s with
    rx := s.rx ++ (List.range n).map fun i => s.rxTail.answer (s.rxTurn + i)
    rxTurn := if s.rxTail = .exhausted then s.rxTurn else s.rxTurn + n }

/-- The moves by which the environment takes part in a running operation: turns of the blocks, bytes on `IN` and on the
channel, and the sink. -/
def duringOperation : Move → Bool
  | .env .run => true
  | .env .await => true
  | .env (.supply _) => true
  | .env (.arrive _) => true
  | .env (.sink _) => true
  | _ => false

/-- The host may rely on a read of this port (70_reset R272), and it shows v. -/
def shows (s : State) (p : ReadPort) (v : ReadValue) : Prop := readValid s p = true ∧ hostRead s p = v

/-- An element on `IN` would come behind the end mark of the running operation (log entry 24). -/
def behindEndMark (s : State) : Prop :=
  (s.pfPhase = .cRun ∨ s.pfPhase = .vRun ∨ s.pfPhase = .dRun) ∧ .endMark ∈ s.inp

/-- Where in `RBUF` an output of the measurement view begins (42_frame_decoder R160). -/
def viewOffset : ReadPort → Option Nat
  | .measDistance => some 2
  | .measStrength => some 4
  | .measTemperature => some 6
  | _ => none

/-- The code and arguments of the instructions that are command frames (30_encoding R80, 44 R215). -/
def commandFrame : Instr → Option (Byte × List Byte)
  | .frameCommand code args => some (code, args)
  | .cmdSetFrameRate10Hz => some (0x03, [0x0A, 0x00])
  | .cmdGetVersion => some (0x01, [])
  | _ => none

/-- The starting step of ENCODE leads from s to t (41 R133). Of `ARGBUF` only the latched entries change; `pfOp` is the
model's own field (log entry 9), of which this says nothing. -/
def encodeStarted (code : Byte) (args : List Byte) (s t : State) : Prop :=
  t = { s with
    encCode := code, encN := BitVec.ofNat 8 args.length, encI := 0, argbuf := t.argbuf
    acc := 0, csaHave := false, csaLast := 0, pfResult := .none, pfPhase := .eHdr, pfOp := t.pfOp } ∧
  ∀ j, Memory.read t.argbuf j = if j < args.length then args[j]? else Memory.read s.argbuf j

/-- The starting step of DECODE leads from s to t, with `inp` on `IN` after it (42 R154). `pfOp` is the model's own field
(log entry 9), of which this says nothing. -/
def decodeStarted (e : Byte) (hasLen hasCsum : Bool) (inp : List InElem) (s t : State) : Prop :=
  t = { s with
    inp := inp, decE := e, decHasLen := hasLen, decHasCsum := hasCsum, decCnt := 0, decOver := false, decLen := 0
    rbufValid := false, acc := 0, csaHave := false, csaLast := 0
    pfResult := .none, pfPhase := .dRun, pfOp := t.pfOp }

/-- The operands `E`, `has_len`, `has_csum` of the instructions that start DECODE on what `IN` holds. -/
def decodeOperands (m : MeasLayout) : Instr → Option (Byte × Bool × Bool)
  | .decode e hasLen hasCsum => some (e, hasLen, hasCsum)
  | .decodeEcho e => some (e, true, true)
  | .decodeMeas => some (BitVec.ofNat 8 m.size, false, m.hasCsum)
  | _ => none

/-- The received buffer of the instructions that present one to DECODE as a command-echo response. -/
def echoBuffer : Instr → Option (List Byte)
  | .frameEchoResponse length code payload checksum => some ([0x5A, length, code] ++ payload ++ [checksum])
  | .rspGetVersion321 => some [0x5A, 0x07, 0x01, 0x03, 0x02, 0x01, 0x68]
  | _ => none

/-- The instructions that start an operation of packet_framer. -/
def packetFramerOp : Instr → Bool
  | .csumCompute => true
  | .csumVerify => true
  | .encode _ _ => true
  | .decode _ _ _ => true
  | .decodeEcho _ => true
  | .decodeMeas => true
  | .frameCommand _ _ => true
  | .frameEchoResponse _ _ _ _ => true
  | .cmdSetFrameRate10Hz => true
  | .rspGetVersion321 => true
  | .cmdGetVersion => true
  | _ => false

/-- The instructions that start RESYNC. -/
def resyncOp : Instr → Bool
  | .resync _ => true
  | .frameMeasurement _ _ _ _ => true
  | _ => false

/-- What the operation an instruction starts leaves for the host to read (70_reset R272, R282): busy and result of
its block, and its value. A refused RESYNC has no value. -/
def resultPort (m : MeasLayout) (i : Instr) : ReadPort → Bool
  | .pfBusy => packetFramerOp i
  | .pfResult => packetFramerOp i
  | .pfCsum => decide (i = .csumCompute)
  | .pfFlag => decide (i = .csumVerify)
  | .rbufValid => (decodeOperands m i).isSome || (echoBuffer i).isSome
  | .rbufLen => (decodeOperands m i).isSome || (echoBuffer i).isSome
  | .rbuf _ => (decodeOperands m i).isSome || (echoBuffer i).isSome
  | .measDistance => (decodeOperands m i).isSome || (echoBuffer i).isSome
  | .measStrength => (decodeOperands m i).isSome || (echoBuffer i).isSome
  | .measTemperature => (decodeOperands m i).isSome || (echoBuffer i).isSome
  | .rsBusy => resyncOp i
  | .rsResult => resyncOp i
  | .fbufValid => fbufPort i
  | .fbufLen => fbufPort i
  | .fbuf _ => fbufPort i
where
  /-- RESYNC with an `E` of at least 2. -/
  fbufPort : Instr → Bool
    | .resync e => decide (2 ≤ e.toNat)
    | .frameMeasurement _ _ _ _ => true
    | _ => false

/-- Two states whose environments are the same. -/
def sameEnvironment (s t : State) : Prop :=
  s.rx = t.rx ∧ s.rxTail = t.rxTail ∧ s.rxTurn = t.rxTurn ∧ s.tx = t.tx ∧ s.txReady = t.txReady ∧ s.inp = t.inp ∧ s.script = t.script ∧ s.meas = t.meas

/-- The measurement frame of a layout: its checksum, where it has one, is the sum of the eight bytes before it
(42_frame_decoder R164). -/
def goodMeasurement (m : MeasLayout) (distance strength temperature : Half) : List Byte :=
  measurementFrame distance strength temperature
    (if m.hasCsum then [sum8 (measurementFrame distance strength temperature [])] else [])

/-- The next move of the script is a reset. -/
def resetNext (s : State) : Prop := ∃ rest, s.script = .env .reset :: rest

end Sys2Proof.Claims

open Sys2Proof Sys2Proof.Machine Sys2Proof.Config

/-! ### Encoding -/

/-- The words of spec/opcode_table.json, written out: every operation-select code of 30_encoding R95, the measurement frame
header of R83, and the three complete frames. The MODEL'S CHOICE, not the spec's: the byte form of a request (log entry 4),
and that operand and frame bytes a word leaves out are zero, so that word 4 is DECODE and 0x5959 a frame of zeros (log entry
20). -/
def Obligations.TableWordsDecodeToTheirRows : Prop :=
  decodeTableWord 8 0b000 = some .nop ∧ decodeTableWord 8 0b001 = some .csumCompute ∧
  decodeTableWord 8 0b010 = some .csumVerify ∧ decodeTableWord 8 0b011 = some (.encode 0 []) ∧
  decodeTableWord 8 0b100 = some (.decode 0 false false) ∧ decodeTableWord 8 0b101 = some (.resync 0) ∧
  decodeTableWord 8 0b110 = some .reserved6 ∧ decodeTableWord 8 0b111 = some .reserved7 ∧
  decodeTableWord 16 0x5959 = some (.frameMeasurement 0 0 0 []) ∧
  decodeTableWord 48 0x5A06030A006D = some .cmdSetFrameRate10Hz ∧
  decodeTableWord 56 0x5A070103020168 = some .rspGetVersion321 ∧
  decodeTableWord 32 0x5A04015F = some .cmdGetVersion

/-- Decoding an encoded well-formed instruction gives it back, under either measurement layout (30_encoding R80, R81,
R83, R95). How operands are written as bytes is the model's choice (log entry 4). -/
def Obligations.DecodingAnEncodedInstructionGivesItBack : Prop :=
  ∀ (m : MeasLayout) (i : Instr), i.wf m = true → decode m (encode m i) = .instr i

/-- Every request the decoder accepts is the encoding of a well-formed instruction: each has one reading, and no byte of
it is dropped (30_encoding R80, R81, R83, R95; log entry 4). -/
def Obligations.EncodingADecodedRequestGivesItBack : Prop :=
  ∀ (m : MeasLayout) (r : Request) (i : Instr), decode m r = .instr i → i.wf m = true ∧ encode m i = r

/-- The form of the step. When the next move of the script is a request that decodes to i, the step is exec of i with the
move taken off the script; a request that does not decode is refused by name. So for a word of the opcode table put first,
with operand bytes of zero and under the source's own measurement layout. The MODEL'S CHOICE, not the spec's: that requests
come from a script and run in one step (log entry 5), that a request which decodes to nothing is the refusal undecodable (log
entry 4), and how a word of the table becomes a request (log entry 20). -/
def Obligations.StepRunsTheDecodedInstruction : Prop :=
  (∀ (s : State) (r : Request) (rest : List Move), s.script = .request r :: rest →
    (∀ i, decode s.meas r = .instr i → step s = exec i { s with script := rest }) ∧
    (∀ e, decode s.meas r = .rejected e → step s = .refused (.undecodable e))) ∧
  (∀ (s : State) (nbits w : Nat) (i : Instr), s.meas = .plain → decodeTableWord nbits w = some i →
    step (s.withFetchWord nbits w) = exec i s)

/-! ### Reset and the invariant -/

/-- 70_reset R260, with R263: reset in any state puts every element of 10_state R20 at the value of R37 (a buffer entry
has no value), and leaves the receive channel and the transmit path as they are. -/
def Obligations.ResetPutsEveryElementAtItsResetValue : Prop :=
  ∀ (s : State) (rest : List Move), s.script = .env .reset :: rest →
    ∃ t, step s = .next t ∧
      t.pfPhase = .idle ∧ t.rsPhase = .idle ∧ t.pfResult = .none ∧ t.rsResult = .none ∧ t.pfFlag = false ∧
      t.rbufValid = false ∧ t.fbufValid = false ∧ t.acc = 0 ∧ t.csaLast = 0 ∧ t.csaHave = false ∧
      t.encCode = 0 ∧ t.encN = 0 ∧ t.encI = 0 ∧ t.decE = 0 ∧ t.decHasLen = false ∧ t.decHasCsum = false ∧
      t.decCnt = 0 ∧ t.decOver = false ∧ t.decLen = 0 ∧ t.rsE = 0 ∧ t.rsCnt = 0 ∧ t.pdSeen1 = false ∧
      (∀ j, Memory.read t.argbuf j = none ∧ Memory.read t.rbuf j = none ∧ Memory.read t.fbuf j = none) ∧
      t.rx = s.rx ∧ t.rxTail = s.rxTail ∧ t.rxTurn = s.rxTurn ∧ t.tx = s.tx ∧ t.txReady = s.txReady ∧ t.script = rest ∧ t.meas = s.meas

/-- The state after reset has the values of 10_state R37. -/
def Obligations.MachineAfterReset : Prop :=
  State.reset.idle ∧ State.reset.pfResult.code = 0 ∧ State.reset.rsResult.code = 0 ∧ State.reset.pfFlag = false ∧
  State.reset.rbufValid = false ∧ State.reset.fbufValid = false ∧ State.reset.acc = 0 ∧
  State.reset.csaLast = 0 ∧ State.reset.csaHave = false ∧ State.reset.encCode = 0 ∧ State.reset.encN = 0 ∧
  State.reset.encI = 0 ∧ State.reset.decE = 0 ∧ State.reset.decHasLen = false ∧ State.reset.decHasCsum = false ∧
  State.reset.decCnt = 0 ∧ State.reset.decOver = false ∧ State.reset.decLen = 0 ∧ State.reset.rsE = 0 ∧
  State.reset.rsCnt = 0 ∧ State.reset.pdSeen1 = false ∧
  ∀ j, Memory.read State.reset.argbuf j = none ∧ Memory.read State.reset.rbuf j = none ∧
    Memory.read State.reset.fbuf j = none

/-- The invariant holds after reset. -/
def Obligations.ResetMeetsTheInvariant : Prop := State.reset.Inv

/-- The invariant is kept by every step: by the blocks' own steps, by every request and by every move of the environment
(10_state R24, R27, R31, R33, R39; 41 R133 to R135; 42 R155; 43 R184 to R186). -/
def Obligations.StepKeepsTheInvariant : Prop :=
  ∀ s t : State, s.Inv → step s = .next t → t.Inv

/-- From a state that meets the invariant no run stops with a fault: no operation ever reads a buffer entry that has not been
written (10_state R39) and no index leaves its buffer (10_state R24, R27). -/
def Obligations.RunsFromTheInvariantAreSafe : Prop :=
  ∀ (s : State), s.Inv → ∀ n, safeRun n s

/-! ### Operation select -/

/-- 30_encoding R100: a NOP changes no state element. -/
def Obligations.NopChangesNothing : Prop :=
  ∀ s : State, exec .nop s = .next s

/-- 30_encoding R97: a start with code 6 or 7 writes REFUSED to the result of each block that is idle, and has no other
effect. R97 also says that a model should refuse these codes by name; taking the effect, and not treating the start as an
overlap while the other block is busy, is the model's choice (log entry 7). -/
def Obligations.ReservedCodesWriteRefused : Prop :=
  ∀ (i : Instr) (s : State), i = .reserved6 ∨ i = .reserved7 →
    exec i s = .next { s with
      pfResult := if s.pfPhase = .idle then .refused else s.pfResult
      rsResult := if s.rsPhase = .idle then .refused else s.rsResult }

/-- 10_state R29: a start presented to a busy block is ignored; it neither disturbs the running operation nor is it
queued. The MODEL'S CHOICE for the frame instructions: a response frame that finds the block busy is not presented on `IN`
(log entry 13), and the bytes of a measurement frame still reach the channel (log entry 14). -/
def Obligations.BusyBlockIgnoresAStart : Prop :=
  (∀ (i : Instr) (s : State), Claims.packetFramerOp i = true → s.pfPhase ≠ .idle → exec i s = .next s) ∧
  (∀ (e : Byte) (s : State), s.rsPhase ≠ .idle → exec (.resync e) s = .next s) ∧
  (∀ (d st tm : Half) (tail : List Byte) (s : State), s.rsPhase ≠ .idle →
    exec (.frameMeasurement d st tm tail) s =
      .next { s with rx := s.rx ++ (measurementFrame d st tm tail).map .byte })

/-- 10_state R29, 92 D3, 93 U7: a start on an idle block while the other block is busy is given no meaning; the refusal is
the model's choice (log entry 2). -/
def Obligations.OverlappingStartIsRefused : Prop :=
  ∀ (i : Instr) (s : State),
    (Claims.packetFramerOp i = true → s.pfPhase = .idle → s.rsPhase ≠ .idle → exec i s = .refused .overlap) ∧
    (Claims.resyncOp i = true → s.rsPhase = .idle → s.pfPhase ≠ .idle → exec i s = .refused .overlap)

/-! ### Starting steps: what each instruction does with both blocks idle -/

/-- 40 R117, first and fourth row: the starts of CSUM_COMPUTE and CSUM_VERIFY, and all they change. `pfOp` is the model's
own field (log entry 9). -/
def Obligations.ChecksumOperationsStart : Prop :=
  ∀ s : State, s.idle →
    exec .csumCompute s = .next { s with
      acc := 0, csaHave := false, csaLast := 0, pfResult := .none, pfPhase := .cRun, pfOp := some .csumCompute } ∧
    exec .csumVerify s = .next { s with
      acc := 0, csaHave := false, csaLast := 0, pfResult := .none, pfPhase := .vRun, pfOp := some .csumVerify }

/-- 41 R133: the starting step of ENCODE with at most 251 arguments, and all it changes. -/
def Obligations.EncodeStartLatchesItsOperands : Prop :=
  ∀ (code : Byte) (args : List Byte) (s : State), args.length ≤ 251 → s.idle →
    ∃ t, exec (.encode code args) s = .next t ∧ Claims.encodeStarted code args s t

/-- 30 R80, 44 R215: a command frame starts the ENCODE that produces it, with its code and arguments. That this is the
frame's meaning is read from R80 (log entry 17). -/
def Obligations.CommandFramesStartEncode : Prop :=
  ∀ (i : Instr) (code : Byte) (args : List Byte) (s : State), Claims.commandFrame i = some (code, args) →
    exec i s = exec (.encode code args) s ∧
    (args.length ≤ 251 → s.idle → ∃ t, exec i s = .next t ∧ Claims.encodeStarted code args s t)

/-- 41 R132: ENCODE with more than 251 arguments writes REFUSED and changes nothing else. -/
def Obligations.EncodeRefusesTooManyArguments : Prop :=
  ∀ (code : Byte) (args : List Byte) (s : State), 251 < args.length → s.idle →
    exec (.encode code args) s = .next { s with pfResult := .refused }

/-- 42 R154: the starting step of DECODE, DECODE_ECHO and DECODE_MEAS, and all it changes; no operand value is
refused. -/
def Obligations.DecodeStartLatchesItsOperands : Prop :=
  ∀ (i : Instr) (e : Byte) (hasLen hasCsum : Bool) (s : State),
    Claims.decodeOperands s.meas i = some (e, hasLen, hasCsum) → s.idle →
    ∃ t, exec i s = .next t ∧ Claims.decodeStarted e hasLen hasCsum s.inp s t

/-- 30 R81, R85: a received command-echo response is presented on `IN`, closed by the end mark, and DECODE is started
on it with its own size, `has_len` = 1 and `has_csum` = 1. That one instruction does both is the model's choice (log
entry 13). -/
def Obligations.EchoResponseIsPresentedToDecode : Prop :=
  ∀ (i : Instr) (raw : List Byte) (s : State), Claims.echoBuffer i = some raw → s.idle →
    ∃ t, exec i s = .next t ∧
      Claims.decodeStarted (BitVec.ofNat 8 raw.length) true true (s.inp ++ Claims.inStream raw []) s t

/-- 43 R184: the starting step of RESYNC with `E` of at least 2, and all it changes. -/
def Obligations.ResyncStartsHunting : Prop :=
  ∀ (e : Byte) (s : State), 2 ≤ e.toNat → s.idle →
    exec (.resync e) s = .next { s with
      rsE := e, rsCnt := 0, pdSeen1 := false, fbufValid := false, rsResult := .none, rsPhase := .sHunt }

/-- 43 R182: RESYNC with an `E` of 0 or 1 writes REFUSED and changes nothing else. -/
def Obligations.ResyncRefusesAFrameWithoutRoomForTheHeader : Prop :=
  ∀ (e : Byte) (s : State), e.toNat < 2 → s.idle →
    exec (.resync e) s = .next { s with rsResult := .refused }

/-- 30 R83, R85: a measurement frame on the UART reaches the receive channel and RESYNC is started for a frame of
`MEAS_SIZE` bytes. That one instruction does both is the model's choice (log entry 14). -/
def Obligations.MeasurementFrameArrivesAndIsHunted : Prop :=
  ∀ (d st tm : Half) (tail : List Byte) (s : State), s.idle →
    exec (.frameMeasurement d st tm tail) s = .next { s with
      rx := s.rx ++ (measurementFrame d st tm tail).map .byte
      rsE := BitVec.ofNat 8 s.meas.size, rsCnt := 0, pdSeen1 := false, fbufValid := false
      rsResult := .none, rsPhase := .sHunt }

/-! ### The transition tables, row by row -/

/-- 40 R117: the rows of `C_RUN` and `V_RUN`, the hold among them, and all they change. -/
def Obligations.ChecksumRows : Prop :=
  ∀ (s : State), s.script = [] → s.rsPhase = .idle →
    (s.pfPhase = .cRun → s.inp = [] → step s = .next s) ∧
    (∀ b rest, s.pfPhase = .cRun → s.inp = .byte b :: rest →
      step s = .next { s with inp := rest, acc := s.acc + b }) ∧
    (∀ rest, s.pfPhase = .cRun → s.inp = .endMark :: rest →
      step s = .next { s with inp := rest, pfResult := .ok, pfPhase := .idle }) ∧
    (s.pfPhase = .vRun → s.inp = [] → step s = .next s) ∧
    (∀ b rest, s.pfPhase = .vRun → s.inp = .byte b :: rest →
      step s = .next { s with
        inp := rest
        acc := if s.csaHave then s.acc + s.csaLast else s.acc, csaLast := b, csaHave := true }) ∧
    (∀ rest, s.pfPhase = .vRun → s.inp = .endMark :: rest →
      step s = .next { s with
        inp := rest, pfFlag := s.csaHave && decide (s.acc = s.csaLast), pfResult := .ok, pfPhase := .idle })

/-- 41 R134 and R138: the rows of ENCODE, the hold on a sink that does not take the byte among them, and all they
change. -/
def Obligations.EncoderRows : Prop :=
  ∀ (s : State), s.script = [] → s.rsPhase = .idle →
    (s.pfPhase.encoding = true → s.txReady = false →
      (s.pfPhase = .eArgs → ∃ b, Memory.read s.argbuf s.encI.toNat = some b) → step s = .next s) ∧
    (s.pfPhase = .eHdr → s.txReady = true →
      step s = .next { s with tx := s.tx ++ [0x5A], acc := s.acc + 0x5A, pfPhase := .eLen }) ∧
    (s.pfPhase = .eLen → s.txReady = true →
      step s = .next { s with tx := s.tx ++ [s.encN + 4], acc := s.acc + (s.encN + 4), pfPhase := .eCode }) ∧
    (s.pfPhase = .eCode → s.txReady = true →
      step s = .next { s with
        tx := s.tx ++ [s.encCode], acc := s.acc + s.encCode
        pfPhase := if 0 < s.encN.toNat then .eArgs else .eCsum }) ∧
    (∀ b, s.pfPhase = .eArgs → s.txReady = true → Memory.read s.argbuf s.encI.toNat = some b →
      step s = .next { s with
        tx := s.tx ++ [b], acc := s.acc + b, encI := s.encI + 1
        pfPhase := if s.encI.toNat + 1 < s.encN.toNat then .eArgs else .eCsum }) ∧
    (s.pfPhase = .eCsum → s.txReady = true →
      step s = .next { s with tx := s.tx ++ [s.acc], pfResult := .ok, pfPhase := .idle })

/-- 42 R156: the rows of `D_RUN`, the verdict and the hold among them, and all they change: of `RBUF` only the entry at
`dec_cnt`. -/
def Obligations.DecoderRows : Prop :=
  ∀ (s : State), s.script = [] → s.rsPhase = .idle → s.pfPhase = .dRun →
    (s.inp = [] → step s = .next s) ∧
    (∀ b rest, s.inp = .byte b :: rest → s.decCnt.toNat < 255 →
      ∃ t, step s = .next t ∧
        t = { s with
          inp := rest, rbuf := t.rbuf, decLen := if s.decCnt = 1 then b else s.decLen
          acc := if s.csaHave then s.acc + s.csaLast else s.acc, csaLast := b, csaHave := true
          decCnt := s.decCnt + 1 } ∧
        ∀ j, Memory.read t.rbuf j = if j = s.decCnt.toNat then some b else Memory.read s.rbuf j) ∧
    (∀ b rest, s.inp = .byte b :: rest → s.decCnt = 255 →
      step s = .next { s with inp := rest, decOver := true }) ∧
    (∀ rest, s.inp = .endMark :: rest →
      step s = .next (
        if s.decOver = true ∨ s.decCnt ≠ s.decE then
          { s with inp := rest, pfResult := .lenMismatch, pfPhase := .idle }
        else if s.decHasLen = true ∧ (s.decCnt.toNat < 2 ∨ s.decLen ≠ s.decE) then
          { s with inp := rest, pfResult := .lenMismatch, pfPhase := .idle }
        else if s.decHasCsum = true ∧ ¬ (s.csaHave = true ∧ s.acc = s.csaLast) then
          { s with inp := rest, pfResult := .csumMismatch, pfPhase := .idle }
        else { s with inp := rest, rbufValid := true, pfResult := .ok, pfPhase := .idle }))

/-- 43 R186: the rows of `S_HUNT` and `S_FILL`, and all they change: of `FBUF` only the entries they store. A pop is
always answered. How the channel's answers stand in State, and that a pop takes a listed answer `Exhausted` off the list, is
the model's choice (log entries 6, 16). -/
def Obligations.ResyncRows : Prop :=
  ∀ (s : State) (rx : List RxAnswer) (turn : Nat), s.script = [] → s.pfPhase = .idle →
    (s.rsPhase ≠ .idle → Claims.channelAnswers s .exhausted rx turn →
      step s = .next { s with rx := rx, rxTurn := turn, rsResult := .syncTimeout, rsPhase := .idle }) ∧
    (s.rsPhase = .sHunt → Claims.channelAnswers s (.byte 0x59) rx turn → s.pdSeen1 = true →
      ∃ t, step s = .next t ∧
        t = { s with
          rx := rx, rxTurn := turn, fbuf := t.fbuf, rsCnt := 2, pdSeen1 := false
          fbufValid := if s.rsE = 2 then true else s.fbufValid
          rsResult := if s.rsE = 2 then .ok else s.rsResult
          rsPhase := if s.rsE = 2 then .idle else .sFill } ∧
        ∀ j, Memory.read t.fbuf j = if j < 2 then some 0x59 else Memory.read s.fbuf j) ∧
    (∀ b, s.rsPhase = .sHunt → Claims.channelAnswers s (.byte b) rx turn → ¬ (s.pdSeen1 = true ∧ b = 0x59) →
      step s = .next { s with rx := rx, rxTurn := turn, pdSeen1 := decide (b = 0x59) }) ∧
    (∀ b, s.rsPhase = .sFill → Claims.channelAnswers s (.byte b) rx turn → s.rsCnt.toNat < 255 →
      ∃ t, step s = .next t ∧
        t = { s with
          rx := rx, rxTurn := turn, fbuf := t.fbuf, rsCnt := s.rsCnt + 1
          fbufValid := if s.rsCnt.toNat + 1 = s.rsE.toNat then true else s.fbufValid
          rsResult := if s.rsCnt.toNat + 1 = s.rsE.toNat then .ok else s.rsResult
          rsPhase := if s.rsCnt.toNat + 1 = s.rsE.toNat then .idle else .sFill } ∧
        ∀ j, Memory.read t.fbuf j = if j = s.rsCnt.toNat then some b else Memory.read s.fbuf j)

/-! ### Whole operations: the two levels agree -/

/-- 40 R115, with R112 and R117: CSUM_COMPUTE of any sequence, of any length, ends `OK` after one step per byte and one
for the end mark, with `pf_csum` = `compute(s)` for the host to read; all else it has changed is the checksum unit's own
registers. -/
def Obligations.CsumComputeGivesTheSum : Prop :=
  ∀ (s : State) (bs : List Byte) (rest : List InElem),
    s.idle → s.script = [] → s.inp = Claims.inStream bs rest →
    ∃ t₀ t, exec .csumCompute s = .next t₀ ∧ run (bs.length + 1) t₀ = .next t ∧
      Claims.shows t .pfCsum (.byte (sum8 bs)) ∧
      t = { s with acc := sum8 bs, csaHave := false, csaLast := 0, pfResult := .ok, pfOp := t.pfOp, inp := rest }

/-- 40 R116, with R114 and R117: CSUM_VERIFY of any sequence ends `OK` with `pf_flag` = `verify(s)` for the host to read,
and `acc` then holds the sum of all bytes but the last. -/
def Obligations.CsumVerifyGivesTheVerdict : Prop :=
  ∀ (s : State) (bs : List Byte) (rest : List InElem),
    s.idle → s.script = [] → s.inp = Claims.inStream bs rest →
    ∃ t₀ t, exec .csumVerify s = .next t₀ ∧ run (bs.length + 1) t₀ = .next t ∧
      Claims.shows t .pfFlag (.bit (verify bs)) ∧
      t = { s with
        acc := sum8 bs.dropLast, csaHave := !bs.isEmpty, csaLast := bs.getLastD 0
        pfFlag := verify bs, pfResult := .ok, pfOp := t.pfOp, inp := rest }

/-- 41 R136, with the count of steps of R134: with a sink that takes every byte, ENCODE pushes exactly the bytes of
`encode(code, args)` in order, `acc` being the sum of what it has pushed, takes one step per byte of the frame, and ends
`OK` with the last. -/
def Obligations.EncodeSendsItsFrame : Prop :=
  ∀ (code : Byte) (args : List Byte) (s : State), args.length ≤ 251 → s.idle → s.script = [] → s.txReady = true →
    ∃ t₀, exec (.encode code args) s = .next t₀ ∧
      run (args.length + 4) t₀ = .next { t₀ with
        tx := s.tx ++ encodeFrame code args, acc := sum8 (frameBody code args)
        encI := BitVec.ofNat 8 args.length, pfResult := .ok, pfPhase := .idle } ∧
      ∀ k, k < args.length + 4 → ∃ u, run k t₀ = .next u ∧ u.pfPhase ≠ .idle ∧ u.pfResult = .none ∧
        u.tx = s.tx ++ (encodeFrame code args).take k ∧ u.acc = sum8 ((encodeFrame code args).take k)

/-- 42 R157, with R150 and R155: DECODE consumes its whole input, takes one step per element, and its result is that of
`decode(raw, E, has_len, has_csum)`; with `OK` the buffer holds the input, and entries it did not store are as before. -/
def Obligations.DecodeGivesTheVerdict : Prop :=
  ∀ (i : Instr) (e : Byte) (hasLen hasCsum : Bool) (s : State) (raw : List Byte) (rest : List InElem),
    Claims.decodeOperands s.meas i = some (e, hasLen, hasCsum) → s.idle → s.script = [] →
    s.inp = Claims.inStream raw rest →
    ∃ t₀ t, exec i s = .next t₀ ∧ run (raw.length + 1) t₀ = .next t ∧
      (match decodeFrame raw e hasLen hasCsum with
        | .ok frame => t.pfResult = .ok ∧ t.rbufValid = true ∧ frame = raw
        | .lengthMismatch => t.pfResult = .lenMismatch ∧ t.rbufValid = false
        | .checksumMismatch => t.pfResult = .csumMismatch ∧ t.rbufValid = false) ∧
      (raw.length ≤ 255 → csaMatch t = verify raw) ∧
      (∀ j, Memory.read t.rbuf j = if j < raw.length ∧ j < 255 then raw[j]? else Memory.read s.rbuf j) ∧
      t = { s with
        acc := t.acc, csaLast := t.csaLast, csaHave := t.csaHave
        decE := e, decHasLen := hasLen, decHasCsum := hasCsum
        decCnt := BitVec.ofNat 8 (min raw.length 255), decOver := decide (255 < raw.length), decLen := raw[1]?.getD 0
        rbuf := t.rbuf, rbufValid := t.rbufValid, pfResult := t.pfResult, pfOp := t.pfOp, inp := rest }

/-- 30 R81 with 42 R151: a received command-echo response of at most 255 bytes ends `OK` exactly when its length byte
is its size and its last byte is the sum of the others; the length is judged first. That one instruction presents the frame
on `IN` and starts DECODE with its own size is the model's choice (log entry 13). -/
def Obligations.EchoResponseIsValidated : Prop :=
  ∀ (i : Instr) (raw : List Byte) (s : State), Claims.echoBuffer i = some raw → raw.length ≤ 255 →
    s.idle → s.script = [] → s.inp = [] →
    ∃ t₀ t, exec i s = .next t₀ ∧ run (raw.length + 1) t₀ = .next t ∧ t.idle ∧ t.inp = [] ∧
      (raw[1]? ≠ some (BitVec.ofNat 8 raw.length) → t.pfResult = .lenMismatch ∧ t.rbufValid = false) ∧
      (raw[1]? = some (BitVec.ofNat 8 raw.length) → raw.getLast? ≠ some (sum8 raw.dropLast) →
        t.pfResult = .csumMismatch ∧ t.rbufValid = false) ∧
      (raw[1]? = some (BitVec.ofNat 8 raw.length) → raw.getLast? = some (sum8 raw.dropLast) →
        t.pfResult = .ok ∧ t.rbufValid = true ∧ ∀ j, j < raw.length → Memory.read t.rbuf j = raw[j]?)

/-- 43 R187 and R180, with R183: RESYNC on a channel that delivers `rx` before its first `Exhausted` ends as
`resync(rx, E)` says: `OK` after one step per byte consumed, with the frame in `FBUF` and the bytes after it left in the
channel, or `SYNC_TIMEOUT` with every byte consumed. That the list of answers loses the `Exhausted` is the model's choice (log
entries 6, 16). -/
def Obligations.ResyncFindsTheFirstFrame : Prop :=
  ∀ (e : Byte) (s : State) (rx : List Byte) (rest after : List RxAnswer),
    2 ≤ e.toNat → s.idle → s.script = [] → s.rx = Claims.rxStream rx rest →
    Claims.answersExhausted s.rxTail rest after →
    ∃ t₀, exec (.resync e) s = .next t₀ ∧
      match resyncFrame rx e.toNat with
      | .ok skipped frame left => ∃ t, run (skipped + e.toNat) t₀ = .next t ∧
          (∀ j, Memory.read t.fbuf j = if j < e.toNat then frame[j]? else Memory.read s.fbuf j) ∧
          t = { s with
            rsE := e, rsCnt := e, pdSeen1 := false, fbuf := t.fbuf, fbufValid := true, rsResult := .ok
            rx := Claims.rxStream left rest }
      | .timeout => ∃ t, run (rx.length + 1) t₀ = .next t ∧
          t = { s with
            rsE := e, rsCnt := t.rsCnt, pdSeen1 := t.pdSeen1, fbuf := t.fbuf, fbufValid := false
            rsResult := .syncTimeout, rx := after }

/-- 30 R83 with 43 R194 (b): a measurement frame behind garbage that has no adjacent 0x59 pair and does not end in 0x59
is the frame RESYNC finds. That one instruction brings the frame and starts RESYNC is the model's choice (log entry
14). -/
def Obligations.MeasurementFrameIsLocated : Prop :=
  ∀ (d st tm : Half) (tail garbage : List Byte) (s : State),
    s.idle → s.script = [] → s.rx = Claims.rxStream garbage [] → tail.length = s.meas.tailBytes →
    firstHeader (garbage ++ [0x59]) = none →
    ∃ t₀ t, exec (.frameMeasurement d st tm tail) s = .next t₀ ∧
      run (garbage.length + s.meas.size) t₀ = .next t ∧ t.idle ∧ t.rsResult = .ok ∧ t.fbufValid = true ∧ t.rx = [] ∧
      ∀ j, j < s.meas.size → Memory.read t.fbuf j = (measurementFrame d st tm tail)[j]?

/-- 10_state R38 (70_reset R264, 40 R117): the result of an operation is a function of its operands and of the bytes the
environment supplies during it, and of nothing else. Two machines with any two histories behind them, idle and with the
same environment, started with the same instruction, show the same at every later step, whatever turns, bytes on `IN` and on
the channel and changes of the sink the environment's coming moves hold: the same streams, phases and, at every port of that
operation's result, the same read whenever the host may rely on it (70_reset R272; for `pf_csum` and `pf_flag` by a field of
the model's own, log entry 9). -/
def Obligations.OperationsDoNotDependOnHistory : Prop :=
  ∀ (i : Instr) (s₁ s₂ t₁ t₂ : State), s₁.Inv → s₂.Inv → s₁.idle → s₂.idle → Claims.sameEnvironment s₁ s₂ →
    (∀ m ∈ s₁.script, Claims.duringOperation m = true) → (Claims.packetFramerOp i = true ∨ Claims.resyncOp i = true) →
    exec i s₁ = .next t₁ → exec i s₂ = .next t₂ →
    ∀ n u₁, run n t₁ = .next u₁ → ∃ u₂, run n t₂ = .next u₂ ∧ Claims.sameEnvironment u₁ u₂ ∧
      u₁.pfPhase = u₂.pfPhase ∧ u₁.rsPhase = u₂.rsPhase ∧
      ∀ p, Claims.resultPort s₁.meas i p = true → readValid u₁ p = readValid u₂ p ∧
        (readValid u₁ p = true → hostRead u₁ p = hostRead u₂ p)

/-! ### Holding, idling, ending -/

/-- 70_reset R278, 93 U13: ENCODE holds for ever on a sink that takes nothing; CSUM_COMPUTE, CSUM_VERIFY and DECODE hold
for ever while the host supplies nothing. No step lets a block past these points. -/
def Obligations.BlockedOperationsHoldForEver : Prop :=
  ∀ s : State, s.Inv → s.script = [] →
    (s.pfPhase.encoding = true ∧ s.txReady = false) ∨
      ((s.pfPhase = .cRun ∨ s.pfPhase = .vRun ∨ s.pfPhase = .dRun) ∧ s.inp = []) →
    ∀ n, run n s = .next s

/-- 60 R250: with both blocks idle and no move of the environment to come, nothing changes. That the machine then takes
steps at all is the model's choice (log entry 21). -/
def Obligations.IdleBlocksTakeNoStep : Prop :=
  ∀ s : State, s.idle → s.script = [] → ∀ n, run n s = .next s

/-- 70_reset R278: RESYNC never holds. On a channel that delivers a finite list of answers and is exhausted after them (log
entry 6), it ends within one step more than their number, with `OK` or `SYNC_TIMEOUT`. On an endless channel it need not:
`ResyncHuntsForEverOnAnEndlessChannel`. -/
def Obligations.ResyncEnds : Prop :=
  ∀ s : State, s.Inv → s.script = [] → s.rsPhase ≠ .idle → s.rxTail = .exhausted →
    ∃ n t, n ≤ s.rx.length + 1 ∧ run n s = .next t ∧ t.rsPhase = .idle ∧
      (t.rsResult = .ok ∨ t.rsResult = .syncTimeout)

/-- 70_reset R278, 93 U13: on an endless channel that never answers `Exhausted` and never shows two adjacent 0x59, RESYNC
hunts for ever, consuming a byte with every step. How an endless channel stands in State is the model's choice (log entry
6). -/
def Obligations.ResyncHuntsForEverOnAnEndlessChannel : Prop :=
  ∀ s : State, s.script = [] → s.pfPhase = .idle → s.rsPhase = .sHunt → s.pdSeen1 = false → s.rx = [] →
    (∀ k, ∃ b, s.rxTail.answer k = .byte b) →
    (∀ k, ¬ (s.rxTail.answer k = .byte 0x59 ∧ s.rxTail.answer (k + 1) = .byte 0x59)) →
    ∀ n, ∃ t, run n s = .next t ∧ t.rsPhase = .sHunt ∧ t.rxTurn = s.rxTurn + n

/-- 20_memory R52, 93 U8: a run of the blocks sees finitely many answers of the channel, so it is the same run when those are
listed first. What the other statements say of listed answers they therefore say of every channel (log entry 6). -/
def Obligations.ListedAnswersStandForAnyChannel : Prop :=
  ∀ (s u : State) (n k : Nat), s.script = [] → k ≤ n → run k s = .next u →
    ∃ m, run k (Claims.listed n s) = .next (Claims.listed m u)

/-! ### Rules about every step -/

/-- 20_memory R56 with the column "Written by" of 10_state R20: what a step of a running operation may change, phase by
phase, and which buffer entries. -/
def Obligations.FrameOfARunningOperation : Prop :=
  ∀ s t : State, blockStep s = .next t →
    (s.pfPhase = .cRun → t = { s with
      acc := t.acc, pfPhase := t.pfPhase, pfResult := t.pfResult, inp := t.inp }) ∧
    (s.pfPhase = .vRun → t = { s with
      acc := t.acc, csaLast := t.csaLast, csaHave := t.csaHave, pfFlag := t.pfFlag
      pfPhase := t.pfPhase, pfResult := t.pfResult, inp := t.inp }) ∧
    (s.pfPhase.encoding = true → t = { s with
      acc := t.acc, encI := t.encI, pfPhase := t.pfPhase, pfResult := t.pfResult, tx := t.tx }) ∧
    (s.pfPhase = .dRun → (t = { s with
        acc := t.acc, csaLast := t.csaLast, csaHave := t.csaHave, decCnt := t.decCnt, decOver := t.decOver
        decLen := t.decLen, rbuf := t.rbuf, rbufValid := t.rbufValid
        pfPhase := t.pfPhase, pfResult := t.pfResult, inp := t.inp }) ∧
      ∀ j, j ≠ s.decCnt.toNat → Memory.read t.rbuf j = Memory.read s.rbuf j) ∧
    (s.rsPhase = .sHunt → (t = { s with
        rsCnt := t.rsCnt, pdSeen1 := t.pdSeen1, fbuf := t.fbuf, fbufValid := t.fbufValid
        rsPhase := t.rsPhase, rsResult := t.rsResult, rx := t.rx, rxTurn := t.rxTurn }) ∧
      ∀ j, 2 ≤ j → Memory.read t.fbuf j = Memory.read s.fbuf j) ∧
    (s.rsPhase = .sFill → (t = { s with
        rsCnt := t.rsCnt, fbuf := t.fbuf, fbufValid := t.fbufValid
        rsPhase := t.rsPhase, rsResult := t.rsResult, rx := t.rx, rxTurn := t.rxTurn }) ∧
      ∀ j, j ≠ s.rsCnt.toNat → Memory.read t.fbuf j = Memory.read s.fbuf j)

/-- 10_state R30: `pf_flag` is written only by the final step of CSUM_VERIFY, with `CSA.match`, and by reset. -/
def Obligations.OnlyCsumVerifyAndResetWriteTheFlag : Prop :=
  ∀ s t : State, step s = .next t → t.pfFlag = s.pfFlag ∨
    (s.pfPhase = .vRun ∧ t.pfPhase = .idle ∧ t.pfResult = .ok ∧
      t.pfFlag = (s.csaHave && decide (s.acc = s.csaLast))) ∨
    (Claims.resetNext s ∧ t.pfFlag = false)

/-- 10_state R31: a valid bit is set only by a step that ends its operation with `OK`, and cleared only by the step that
starts that operation or by reset. -/
def Obligations.ValidBitsFollowTheirOperations : Prop :=
  ∀ s t : State, s.Inv → step s = .next t →
    (s.rbufValid = false → t.rbufValid = true → s.pfPhase = .dRun ∧ t.pfPhase = .idle ∧ t.pfResult = .ok) ∧
    (s.rbufValid = true → t.rbufValid = false →
      (s.pfPhase = .idle ∧ t.pfPhase = .dRun) ∨ Claims.resetNext s) ∧
    (s.fbufValid = false → t.fbufValid = true → s.rsPhase ≠ .idle ∧ t.rsPhase = .idle ∧ t.rsResult = .ok) ∧
    (s.fbufValid = true → t.fbufValid = false →
      (s.rsPhase = .idle ∧ t.rsPhase = .sHunt) ∨ Claims.resetNext s)

/-- 10_state R24: a phase returns to idle exactly when the operation writes its result; reset apart. -/
def Obligations.APhaseReturnsToIdleExactlyWithItsResult : Prop :=
  ∀ s t : State, s.Inv → step s = .next t → ¬ Claims.resetNext s →
    (s.pfPhase ≠ .idle → (t.pfPhase = .idle ↔ t.pfResult ≠ .none)) ∧
    (s.rsPhase ≠ .idle → (t.rsPhase = .idle ↔ t.rsResult ≠ .none))

/-- 20_memory R53, R66: bytes on `TX` are only ever appended, one a step, by ENCODE, when the sink takes them; none is
dropped or reordered. -/
def Obligations.TransmitStreamOnlyGrows : Prop :=
  ∀ s t : State, step s = .next t → t.tx = s.tx ∨
    (s.pfPhase.encoding = true ∧ s.txReady = true ∧ ∃ b, t.tx = s.tx ++ [b])

/-- 20_memory R52, R60: the receive channel is consumed from the front and filled at the back; nothing is put back,
reordered or skipped. 20_memory R56 with 43 R186: no operation of packet_framer reads the channel, and a step of RESYNC pops
once. The MODEL'S CHOICE, not the spec's: that the channel's answers stand as a list, a tail and the turn of that tail, and
that arriving bytes stand between list and tail (log entry 6); that a listed `Exhausted` is consumed by the pop or the direct
read that meets it, as a byte is (log entry 16); that a step is either a turn of the blocks or one move, so that a step which
consumes brings no byte (log entries 5, 21); that the bytes of a measurement frame arrive with its instruction (log entry
14). The clause for a busy packet_framer, and that for a running RESYNC, also rest on the host's direct read being refused
while either block is busy (70_reset R270, R283; 93 U7; log entry 3). -/
def Obligations.ReceiveChannelIsFirstInFirstOut : Prop :=
  ∀ s t : State, step s = .next t → t.rxTail = s.rxTail ∧
    ∃ (taken turns : Nat) (arrived : List Byte), taken ≤ s.rx.length ∧
      t.rx = s.rx.drop taken ++ arrived.map .byte ∧ t.rxTurn = s.rxTurn + turns ∧
      (turns ≠ 0 → taken = s.rx.length ∧ s.rxTail ≠ .exhausted) ∧
      (arrived ≠ [] → taken = 0 ∧ turns = 0) ∧
      (s.pfPhase ≠ .idle → taken = 0 ∧ turns = 0) ∧ (s.rsPhase ≠ .idle → taken + turns ≤ 1)

/-! ### What the host reads -/

/-- 10_state R23, R25, R28, R39 with 70_reset R272: the host reads an entry of `RBUF` or `FBUF` when its block is idle, its
result `OK`, the frame valid and the index in it, without any effect on the blocks; a read at any other time or index shows
an unspecified value, and has no effect either. That this value is a free one, of which nothing is known, is the model's
choice between the two of 93 U5, and so is the counter of reads it is taken from (log entry 1); that the value read is kept
is log entry 10. -/
def Obligations.BufferReadsHaveAValueExactlyInAValidFrame : Prop :=
  ∀ (s : State) (i : Byte) (rest : List Move), s.Inv →
    (s.script = .env (.read (.rbuf i)) :: rest →
      (s.pfPhase = .idle ∧ s.pfResult = .ok ∧ s.rbufValid = true ∧ i.toNat < s.decE.toNat →
        readValid s (.rbuf i) = true ∧ ∃ b, Memory.read s.rbuf i.toNat = some b ∧
          step s = .next { s with script := rest, lastRead := some (.byte b), readTurn := s.readTurn + 1 }) ∧
      (¬ (s.pfPhase = .idle ∧ s.pfResult = .ok ∧ s.rbufValid = true ∧ i.toNat < s.decE.toNat) →
        readValid s (.rbuf i) = false ∧
          step s = .next { s with
            script := rest, lastRead := some (.byte (unspecifiedByte s.readTurn)), readTurn := s.readTurn + 1 })) ∧
    (s.script = .env (.read (.fbuf i)) :: rest →
      (s.rsPhase = .idle ∧ s.rsResult = .ok ∧ s.fbufValid = true ∧ i.toNat < s.rsE.toNat →
        readValid s (.fbuf i) = true ∧ ∃ b, Memory.read s.fbuf i.toNat = some b ∧
          step s = .next { s with script := rest, lastRead := some (.byte b), readTurn := s.readTurn + 1 }) ∧
      (¬ (s.rsPhase = .idle ∧ s.rsResult = .ok ∧ s.fbufValid = true ∧ i.toNat < s.rsE.toNat) →
        readValid s (.fbuf i) = false ∧
          step s = .next { s with
            script := rest, lastRead := some (.byte (unspecifiedByte s.readTurn)), readTurn := s.readTurn + 1 }))

/-- 10_state R28, R30, R32, R33, R36 and 42 R160 with 70_reset R272: the host's read of a status field, a length or an output
of the measurement view shows it and changes nothing of the blocks. `pf_csum` shows `acc` and `pf_flag` the flag at any time;
the host may rely on them only after the `OK` of CSUM_COMPUTE and of CSUM_VERIFY, which a field of the model's own remembers
(log entry 9). The view shows the fields when the host may read `RBUF` and the frame has at least 8 bytes (log entry 25), and
otherwise a free value, the model's choice between the two of 93 U5 (log entry 1). That the value read is kept and reads are
counted is the model's own (log entries 1, 10). -/
def Obligations.StatusReadsShowTheFieldsWithoutEffect : Prop :=
  ∀ (s : State) (p : ReadPort) (rest : List Move), s.script = .env (.read p) :: rest →
    (∃ v, step s = .next { s with script := rest, lastRead := some v, readTurn := s.readTurn + 1 } ∧
      (p = .pfBusy → v = .bit (decide (s.pfPhase ≠ .idle))) ∧
      (p = .rsBusy → v = .bit (decide (s.rsPhase ≠ .idle))) ∧
      (p = .pfResult → v = .code s.pfResult.code) ∧
      (p = .rsResult → v = .code s.rsResult.code) ∧
      (p = .rbufValid → v = .bit s.rbufValid) ∧
      (p = .fbufValid → v = .bit s.fbufValid) ∧
      (p = .rbufLen → v = .byte s.decE) ∧
      (p = .fbufLen → v = .byte s.rsE) ∧
      (p = .pfFlag → v = .bit s.pfFlag) ∧
      (p = .pfCsum → v = .byte s.acc) ∧
      (∀ k, Claims.viewOffset p = some k →
        (∀ lo hi, s.pfPhase = .idle → s.pfResult = .ok → s.rbufValid = true → 8 ≤ s.decE.toNat →
          Memory.read s.rbuf k = some lo → Memory.read s.rbuf (k + 1) = some hi →
          readValid s p = true ∧ v = .half (le16 lo hi)) ∧
        (¬ (s.pfPhase = .idle ∧ s.pfResult = .ok ∧ s.rbufValid = true ∧ 8 ≤ s.decE.toNat) →
          readValid s p = false ∧ v = .half (unspecifiedHalf s.readTurn)))) ∧
    (p = .pfFlag → (readValid s p = true ↔ s.pfPhase = .idle ∧ s.pfResult = .ok ∧ s.pfOp = some .csumVerify)) ∧
    (p = .pfCsum → (readValid s p = true ↔ s.pfPhase = .idle ∧ s.pfResult = .ok ∧ s.pfOp = some .csumCompute))

/-- 20_memory R52 to R55, 10_state R34, 43 R196, 44 R218: what a supplied element, an arriving byte, a change of the sink, the
host's direct read of the channel, its presenting of `FBUF`, its going on only after an `OK`, its waiting and a turn of the
blocks change. The MODEL'S CHOICE, not the spec's: that these are moves of a list (log entry 5), that an arriving byte stands
behind the list of answers and before the tail, and what the tail answers (log entry 6), that a direct read and `presentFbuf`
supply all elements and the end mark in one move (log entry 22), that a direct read consumes the `Exhausted` it meets (log
entry 16) and is refused while either block is busy (log entry 3), that an `FBUF` that may not be read is presented as free
values (log entry 1), that a call goes on or ends by `unlessOk` (log entry 23), that an element behind the end mark of a
running operation is refused (log entry 24), and the moves `run` and `await` (log entry 21). -/
def Obligations.EnvironmentMovesChangeOnlyTheirStreams : Prop :=
  ∀ (s : State) (rest : List Move),
    (∀ x, s.script = .env (.supply x) :: rest →
      (Claims.behindEndMark s → step s = .refused .supplyAfterEnd) ∧
      (¬ Claims.behindEndMark s → step s = .next { s with script := rest, inp := s.inp ++ [x] })) ∧
    (∀ b, s.script = .env (.arrive b) :: rest → step s = .next { s with script := rest, rx := s.rx ++ [.byte b] }) ∧
    (∀ r, s.script = .env (.sink r) :: rest → step s = .next { s with script := rest, txReady := r }) ∧
    (∀ (n : Byte) (bs : List Byte) (more : List RxAnswer), s.script = .env (.readExact n) :: rest → s.idle →
      s.rx = Claims.rxStream bs more → bs.length = n.toNat →
      step s = .next { s with script := rest, rx := more, inp := s.inp ++ Claims.inStream bs [] }) ∧
    (∀ (n : Byte) (bs : List Byte) (more after : List RxAnswer), s.script = .env (.readExact n) :: rest → s.idle →
      s.rx = Claims.rxStream bs more → bs.length < n.toNat → Claims.answersExhausted s.rxTail more after →
      step s = .next { s with script := rest, rx := after, inp := s.inp ++ Claims.inStream bs [] }) ∧
    (∀ (n : Byte) (bs cs : List Byte), s.script = .env (.readExact n) :: rest → s.idle → s.rxTail ≠ .exhausted →
      s.rx = Claims.rxStream bs [] → (∀ k, k < cs.length → cs[k]?.map .byte = some (s.rxTail.answer (s.rxTurn + k))) →
      (bs.length + cs.length = n.toNat →
        step s = .next { s with
          script := rest, rx := [], rxTurn := s.rxTurn + cs.length, inp := s.inp ++ Claims.inStream (bs ++ cs) [] }) ∧
      (bs.length + cs.length < n.toNat → s.rxTail.answer (s.rxTurn + cs.length) = .exhausted →
        step s = .next { s with
          script := rest, rx := [], rxTurn := s.rxTurn + cs.length + 1
          inp := s.inp ++ Claims.inStream (bs ++ cs) [] })) ∧
    (∀ n : Byte, s.script = .env (.readExact n) :: rest → ¬ s.idle → step s = .refused .readOverlap) ∧
    (s.script = .env .presentFbuf :: rest → Claims.behindEndMark s → step s = .refused .supplyAfterEnd) ∧
    (∀ bs : List Byte, s.script = .env .presentFbuf :: rest → ¬ Claims.behindEndMark s → s.rsPhase = .idle →
      s.rsResult = .ok → s.fbufValid = true → bs.length = s.rsE.toNat →
      (∀ j, j < s.rsE.toNat → Memory.read s.fbuf j = bs[j]?) →
      step s = .next { s with
        script := rest, inp := s.inp ++ Claims.inStream bs [], readTurn := s.readTurn + bs.length }) ∧
    (s.script = .env .presentFbuf :: rest → ¬ Claims.behindEndMark s →
      ¬ (s.rsPhase = .idle ∧ s.rsResult = .ok ∧ s.fbufValid = true) →
      step s = .next { s with
        script := rest
        inp := s.inp ++
          Claims.inStream ((List.range s.rsE.toNat).map fun j => unspecifiedByte (s.readTurn + j)) []
        readTurn := s.readTurn + s.rsE.toNat }) ∧
    (∀ (b : Block) (n : Nat), s.script = .env (.unlessOk b n) :: rest →
      step s = .next { s with script := if s.result b = .ok then rest else rest.drop n }) ∧
    (s.script = .env .await :: rest → s.idle → step s = .next { s with script := rest }) ∧
    (s.script = .env .await :: rest → ¬ s.idle → step s = blockStep s) ∧
    (s.script = .env .run :: rest → step s = blockStep { s with script := rest })

/-- 42 R160, R163, R164 with 30 R88: after DECODE_MEAS of a measurement frame of the layout in force the view shows its
three fields. -/
def Obligations.MeasurementViewShowsTheFields : Prop :=
  ∀ (d st tm : Half) (s : State), s.idle → s.script = [] →
    s.inp = Claims.inStream (Claims.goodMeasurement s.meas d st tm) [] →
    ∃ t₀ t, exec .decodeMeas s = .next t₀ ∧ run (s.meas.size + 1) t₀ = .next t ∧ t.idle ∧ t.pfResult = .ok ∧
      Claims.shows t .measDistance (.half d) ∧ Claims.shows t .measStrength (.half st) ∧
      Claims.shows t .measTemperature (.half tm)

/-- 43 R196 with 44 R218: the host's READ_MEAS_UART, that is RESYNC, then DECODE_MEAS of the frame it found, shows the
fields of the first measurement frame behind the garbage and leaves what follows it in the channel. The form of the host's
moves is the model's choice (log entries 5, 22, 23). -/
def Obligations.ReadMeasUartShowsTheFields : Prop :=
  ∀ (d st tm : Half) (garbage : List Byte) (rest : List RxAnswer) (s : State),
    s.idle → s.inp = [] → s.script = readMeasUart s.meas →
    s.rx = Claims.rxStream (garbage ++ Claims.goodMeasurement s.meas d st tm) rest →
    firstHeader (garbage ++ [0x59]) = none →
    ∃ n t, run n s = .next t ∧ t.script = [] ∧ t.idle ∧ t.rsResult = .ok ∧ t.pfResult = .ok ∧ t.rx = rest ∧
      Claims.shows t .measDistance (.half d) ∧ Claims.shows t .measStrength (.half st) ∧
      Claims.shows t .measTemperature (.half tm)

/-- 30 R101, 43 R196, 44 R218: after `SYNC_TIMEOUT` the host does not run DECODE; READ_MEAS_UART has failed, with `IN` and
packet_framer's results as they were. The form of the host's moves is the model's choice (log entries 5, 16, 23). -/
def Obligations.ReadMeasUartEndsWithoutDecodeOnTimeout : Prop :=
  ∀ (rx : List Byte) (rest after : List RxAnswer) (s : State),
    s.idle → s.script = readMeasUart s.meas → s.rx = Claims.rxStream rx rest →
    Claims.answersExhausted s.rxTail rest after → resyncFrame rx s.meas.size = .timeout →
    ∃ n t, run n s = .next t ∧ t.script = [] ∧ t.idle ∧ t.rsResult = .syncTimeout ∧ t.fbufValid = false ∧
      t.rx = after ∧ t.inp = s.inp ∧ t.pfResult = s.pfResult ∧ t.rbufValid = s.rbufValid ∧ t.rbuf = s.rbuf

/-! ### The functions of the operation level -/

/-- 40 R110, R118: `compute` is the sum of all bytes as unsigned integers, modulo 256; it does not depend on their
order, and of a concatenation it is the sum of the parts'. -/
def Obligations.SumIsTheSumModulo256 : Prop :=
  (∀ bs : List Byte, (sum8 bs).toNat = (bs.map BitVec.toNat).sum % 256) ∧
  (∀ a b : List Byte, sum8 (a ++ b) = sum8 a + sum8 b ∧ sum8 (a ++ b) = sum8 (b ++ a))

/-- 40 R114, with R112: what the checksum unit holds after a clear and any number of adds or feeds. -/
def Obligations.FeedingHoldsBackTheLastByte : Prop :=
  ∀ (bs : List Byte) (s : State),
    (bs.foldl (fun t b => csaAdd b t) (csaClear s)).acc = sum8 bs ∧
    (bs = [] → (bs.foldl (fun t b => csaFeed b t) (csaClear s)).csaHave = false ∧
      (bs.foldl (fun t b => csaFeed b t) (csaClear s)).acc = 0) ∧
    (∀ k, bs.getLast? = some k → (bs.foldl (fun t b => csaFeed b t) (csaClear s)).csaHave = true ∧
      (bs.foldl (fun t b => csaFeed b t) (csaClear s)).csaLast = k ∧
      (bs.foldl (fun t b => csaFeed b t) (csaClear s)).acc = sum8 bs.dropLast) ∧
    csaMatch (bs.foldl (fun t b => csaFeed b t) (csaClear s)) = verify bs

/-- 40 R119: a sequence with its checksum appended verifies, and no sequence that differs from a verified one in exactly
one bit of exactly one byte does. -/
def Obligations.ChecksumDetectsEverySingleBitError : Prop :=
  (∀ p : List Byte, verify (p ++ [sum8 p]) = true) ∧
  (∀ (bs : List Byte) (i k : Nat) (b : Byte), verify bs = true → bs[i]? = some b → k < 8 →
    verify (bs.set i (b ^^^ (1 <<< k))) = false)

/-- 41 R131: the command frame, byte by byte. -/
def Obligations.EncodedFrameByteByByte : Prop :=
  ∀ (code : Byte) (args : List Byte), args.length ≤ 251 →
    (encodeFrame code args).length = args.length + 4 ∧
    (encodeFrame code args)[0]? = some 0x5A ∧
    (encodeFrame code args)[1]? = some (BitVec.ofNat 8 (encodeFrame code args).length) ∧
    (encodeFrame code args)[2]? = some code ∧
    (∀ i, i < args.length → (encodeFrame code args)[3 + i]? = args[i]?) ∧
    (encodeFrame code args)[args.length + 3]? = some (sum8 ((encodeFrame code args).take (args.length + 3)))

/-- 41 R137, 42 R162 (b): a command frame verifies, decodes `OK` unchanged under its own size, and determines its code
and arguments. -/
def Obligations.EncodedFrameDecodesAndDeterminesItsOperands : Prop :=
  ∀ (code : Byte) (args : List Byte), args.length ≤ 251 →
    verify (encodeFrame code args) = true ∧
    decodeFrame (encodeFrame code args) (BitVec.ofNat 8 (args.length + 4)) true true = .ok (encodeFrame code args) ∧
    ∀ (code' : Byte) (args' : List Byte), args'.length ≤ 251 →
      encodeFrame code args = encodeFrame code' args' → code = code' ∧ args = args'

/-- 42 R162, with R152: (a) a wrong length byte is a `LengthMismatch` whatever the checksum is; (b) a command frame decodes
`OK`; (c) `decode` alters no byte; (d) of a buffer that decodes `OK` as a command-echo response, a flip of one bit in byte 1
gives `LengthMismatch`, a flip of one bit anywhere else gives `ChecksumMismatch`. -/
def Obligations.DecodeRejectsEverySingleBitError : Prop :=
  (∀ (raw : List Byte) (e b : Byte) (hasCsum : Bool), raw.length = e.toNat → raw[1]? = some b → b ≠ e →
    decodeFrame raw e true hasCsum = .lengthMismatch) ∧
  (∀ (code : Byte) (args : List Byte), args.length ≤ 251 →
    decodeFrame (encodeFrame code args) (BitVec.ofNat 8 (args.length + 4)) true true = .ok (encodeFrame code args)) ∧
  (∀ (raw frame : List Byte) (e : Byte) (hasLen hasCsum : Bool),
    decodeFrame raw e hasLen hasCsum = .ok frame → frame = raw) ∧
  (∀ (raw : List Byte) (e b : Byte) (i k : Nat), decodeFrame raw e true true = .ok raw → raw[i]? = some b → k < 8 →
    decodeFrame (raw.set i (b ^^^ (1 <<< k))) e true true =
      if i = 1 then .lengthMismatch else .checksumMismatch)

/-- 43 R188, R181: the two scanning procedures and the detector consume the same bytes, up to and including the first
adjacent pair of 0x59. -/
def Obligations.ScanningProceduresAgree : Prop :=
  ∀ rx : List Byte,
    scanByDetector false rx = (firstHeader rx).map (· + 2) ∧
    scanByDiscard rx = (firstHeader rx).map (· + 2) ∧
    scanByShift none rx = (firstHeader rx).map (· + 2)

/-- 43 R194 (a), (b), (c), (e): the frame RESYNC returns begins with the header, has E bytes and is a stretch of the
stream, unaltered; behind garbage without a pair it is the frame meant; and without a pair there is none. -/
def Obligations.ResyncReturnsAStretchOfTheStream : Prop :=
  (∀ (rx : List Byte) (e skipped : Nat) (frame left : List Byte), 2 ≤ e →
    resyncFrame rx e = .ok skipped frame left →
    frame.length = e ∧ frame[0]? = some 0x59 ∧ frame[1]? = some 0x59 ∧
      rx = rx.take skipped ++ frame ++ left ∧ skipped ≤ rx.length) ∧
  (∀ (garbage payload : List Byte) (e : Nat), 2 ≤ e → e ≤ payload.length + 2 →
    firstHeader (garbage ++ [0x59]) = none →
    resyncFrame (garbage ++ [0x59, 0x59] ++ payload) e =
      .ok garbage.length ([0x59, 0x59] ++ payload.take (e - 2)) (payload.drop (e - 2))) ∧
  (∀ (rx : List Byte) (e : Nat), (∀ k, ¬ (rx[k]? = some hdr0 ∧ rx[k + 1]? = some hdr1)) →
    resyncFrame rx e = .timeout)

/-- 30 R87, R88 (20 R58): multi-byte quantities are little-endian. -/
def Obligations.QuantitiesAreLittleEndian : Prop :=
  (∀ (k v j : Nat), j < k → (leBytes k v)[j]? = some (BitVec.ofNat 8 (v / 256 ^ j))) ∧
  (∀ (k v : Nat), (leBytes k v).length = k) ∧
  (∀ lo hi : Byte, (le16 lo hi).toNat = lo.toNat + 256 * hi.toNat) ∧
  (∀ h : Half, le16 (loByte h) (hiByte h) = h)
end

