-- ==== Sys2Proof/Laws/Memory.lean ====
section
/-! SUPPORT. The laws of the frame buffers: read after write, and that every write keeps the canonical form. -/

namespace Sys2Proof.Machine

@[simp] theorem Memory.read_nil (i : Nat) : Memory.read [] i = none := rfl

theorem Memory.read_cons (c : Host.Cell) (r : Memory) (i : Nat) :
    Memory.read (c :: r) i = if i = c.1 then some c.2 else Memory.read r i := rfl

theorem Memory.write_cons (c : Host.Cell) (r : Memory) (i : Nat) (v : Byte) :
    Memory.write (c :: r) i v =
      if i < c.1 then (i, v) :: c :: r else if i = c.1 then (i, v) :: r else c :: Memory.write r i v := rfl

/-- Reading after a write: the value written at its index, the old value everywhere else. -/
theorem Memory.read_write (m : Memory) (i j : Nat) (v : Byte) :
    Memory.read (Memory.write m i v) j = if j = i then some v else Memory.read m j := by
  induction m with
  | nil => rfl
  | cons c r ih =>
    rw [Memory.write_cons]
    by_cases h1 : i < c.1
    · simp only [h1, if_true, Memory.read_cons]
    · by_cases h2 : i = c.1
      · subst h2
        simp only [lt_irrefl, if_false, if_true, Memory.read_cons]
        split <;> rfl
      · simp only [h1, h2, if_false, Memory.read_cons, ih]
        by_cases hj : j = c.1
        · have hji : j ≠ i := fun h => h2 (h ▸ hj)
          rw [if_pos hj, if_neg hji]
          simp [hj]
        · simp [hj]

@[simp] theorem Memory.read_write_same (m : Memory) (i : Nat) (v : Byte) :
    Memory.read (Memory.write m i v) i = some v := by simp [Memory.read_write]

theorem Memory.read_write_other (m : Memory) {i j : Nat} (v : Byte) (h : j ≠ i) :
    Memory.read (Memory.write m i v) j = Memory.read m j := by simp [Memory.read_write, h]

/-- Reading after a block store: the stored byte inside the block, the old value outside. -/
theorem Memory.read_store (bs : List Byte) (m : Memory) (start j : Nat) :
    Memory.read (Memory.store m start bs) j =
      if start ≤ j ∧ j < start + bs.length then bs[j - start]? else Memory.read m j := by
  induction bs generalizing m start with
  | nil =>
    have : ¬ (start ≤ j ∧ j < start + ([] : List Byte).length) := by simp
    rw [if_neg this]; rfl
  | cons b bs ih =>
    simp only [Memory.store, ih, Memory.read_write, List.length_cons]
    by_cases h1 : j = start
    · subst h1
      simp
    · by_cases h2 : start ≤ j ∧ j < start + (bs.length + 1)
      · have h3 : start + 1 ≤ j ∧ j < start + 1 + bs.length := by omega
        have h4 : j - start = (j - (start + 1)) + 1 := by omega
        simp [h2, h3, h4]
      · have h3 : ¬ (start + 1 ≤ j ∧ j < start + 1 + bs.length) := by omega
        rw [if_neg h2, if_neg h3, if_neg h1]

theorem Memory.rising_cons (c : Host.Cell) (r : Memory) :
    Memory.rising (c :: r) = true ↔ (∀ d ∈ r.head?, c.1 < d.1) ∧ Memory.rising r = true := by
  cases r with
  | nil => simp [Memory.rising]
  | cons d r => simp [Memory.rising]

theorem Memory.head_write (m : Memory) (i : Nat) (v : Byte) (d : Host.Cell)
    (h : (Memory.write m i v).head? = some d) : d.1 = i ∨ m.head? = some d := by
  cases m with
  | nil => simp [Memory.write] at h; exact .inl (by rw [← h])
  | cons c r =>
    rw [Memory.write_cons] at h
    split at h
    · simp at h; exact .inl (by rw [← h])
    · split at h
      · simp at h; exact .inl (by rw [← h])
      · exact .inr h

theorem Memory.rising_write (m : Memory) (i : Nat) (v : Byte) (h : Memory.rising m = true) :
    Memory.rising (Memory.write m i v) = true := by
  induction m with
  | nil => rfl
  | cons c r ih =>
    rw [Memory.rising_cons] at h
    rw [Memory.write_cons]
    split
    · rename_i hi
      rw [Memory.rising_cons]
      exact ⟨by intro d hd; simp at hd; rw [← hd]; exact hi, by rw [Memory.rising_cons]; exact h⟩
    · split
      · rename_i hi
        rw [Memory.rising_cons]
        exact ⟨fun d hd => by rw [hi]; exact h.1 d hd, h.2⟩
      · rename_i h1 h2
        rw [Memory.rising_cons]
        refine ⟨fun d hd => ?_, ih h.2⟩
        rcases Memory.head_write r i v d hd with hd' | hd'
        · omega
        · exact h.1 d hd'

theorem Memory.all_write (m : Memory) (i : Nat) (v : Byte) (size : Nat) (hi : i < size)
    (h : m.all (fun c => decide (c.1 < size)) = true) :
    (Memory.write m i v).all (fun c => decide (c.1 < size)) = true := by
  induction m with
  | nil => simp [Memory.write, hi]
  | cons c r ih =>
    simp only [List.all_cons, Bool.and_eq_true] at h
    rw [Memory.write_cons]
    split
    · simp only [List.all_cons, Bool.and_eq_true]; exact ⟨by simpa using hi, h⟩
    · split
      · simp only [List.all_cons, Bool.and_eq_true]; exact ⟨by simpa using hi, h.2⟩
      · simp only [List.all_cons, Bool.and_eq_true]; exact ⟨h.1, ih h.2⟩

/-- A write below the size keeps the canonical form. -/
theorem Memory.wf_write (m : Memory) (i : Nat) (v : Byte) (size : Nat) (hi : i < size)
    (h : Memory.wf size m = true) : Memory.wf size (Memory.write m i v) = true := by
  simp only [Memory.wf, Bool.and_eq_true] at h ⊢
  exact ⟨Memory.rising_write m i v h.1, Memory.all_write m i v size hi h.2⟩

/-- A block store below the size keeps the canonical form. -/
theorem Memory.wf_store (bs : List Byte) (m : Memory) (start size : Nat) (hi : start + bs.length ≤ size)
    (h : Memory.wf size m = true) : Memory.wf size (Memory.store m start bs) = true := by
  induction bs generalizing m start with
  | nil => exact h
  | cons b bs ih =>
    simp only [List.length_cons] at hi
    exact ih _ _ (by omega) (Memory.wf_write m start b size (by omega) h)

/-- The buffers of the reset state are in canonical form. -/
theorem reset_buffers_wf : Memory.wf Config.maxArgs State.reset.argbuf = true ∧
    Memory.wf Config.maxFrame State.reset.rbuf = true ∧ Memory.wf Config.maxFrame State.reset.fbuf = true :=
  ⟨rfl, rfl, rfl⟩

end Sys2Proof.Machine
end

