-- ==== Sys2Proof/Laws/State.lean ====
section
/-! SUPPORT. One lemma per field per update of State, true by rfl: no later proof unfolds a record update. -/

namespace Sys2Proof.Machine

@[simp] theorem csaClear_acc (s : State) : (csaClear s).acc = 0 := rfl
@[simp] theorem csaClear_csaLast (s : State) : (csaClear s).csaLast = 0 := rfl
@[simp] theorem csaClear_csaHave (s : State) : (csaClear s).csaHave = false := rfl
@[simp] theorem csaClear_pfPhase (s : State) : (csaClear s).pfPhase = s.pfPhase := rfl
@[simp] theorem csaClear_encCode (s : State) : (csaClear s).encCode = s.encCode := rfl
@[simp] theorem csaClear_encN (s : State) : (csaClear s).encN = s.encN := rfl
@[simp] theorem csaClear_encI (s : State) : (csaClear s).encI = s.encI := rfl
@[simp] theorem csaClear_argbuf (s : State) : (csaClear s).argbuf = s.argbuf := rfl
@[simp] theorem csaClear_decE (s : State) : (csaClear s).decE = s.decE := rfl
@[simp] theorem csaClear_decHasLen (s : State) : (csaClear s).decHasLen = s.decHasLen := rfl
@[simp] theorem csaClear_decHasCsum (s : State) : (csaClear s).decHasCsum = s.decHasCsum := rfl
@[simp] theorem csaClear_decCnt (s : State) : (csaClear s).decCnt = s.decCnt := rfl
@[simp] theorem csaClear_decOver (s : State) : (csaClear s).decOver = s.decOver := rfl
@[simp] theorem csaClear_decLen (s : State) : (csaClear s).decLen = s.decLen := rfl
@[simp] theorem csaClear_rbuf (s : State) : (csaClear s).rbuf = s.rbuf := rfl
@[simp] theorem csaClear_rbufValid (s : State) : (csaClear s).rbufValid = s.rbufValid := rfl
@[simp] theorem csaClear_pfResult (s : State) : (csaClear s).pfResult = s.pfResult := rfl
@[simp] theorem csaClear_pfFlag (s : State) : (csaClear s).pfFlag = s.pfFlag := rfl
@[simp] theorem csaClear_rsPhase (s : State) : (csaClear s).rsPhase = s.rsPhase := rfl
@[simp] theorem csaClear_rsE (s : State) : (csaClear s).rsE = s.rsE := rfl
@[simp] theorem csaClear_rsCnt (s : State) : (csaClear s).rsCnt = s.rsCnt := rfl
@[simp] theorem csaClear_pdSeen1 (s : State) : (csaClear s).pdSeen1 = s.pdSeen1 := rfl
@[simp] theorem csaClear_fbuf (s : State) : (csaClear s).fbuf = s.fbuf := rfl
@[simp] theorem csaClear_fbufValid (s : State) : (csaClear s).fbufValid = s.fbufValid := rfl
@[simp] theorem csaClear_rsResult (s : State) : (csaClear s).rsResult = s.rsResult := rfl
@[simp] theorem csaClear_rx (s : State) : (csaClear s).rx = s.rx := rfl
@[simp] theorem csaClear_rxTail (s : State) : (csaClear s).rxTail = s.rxTail := rfl
@[simp] theorem csaClear_rxTurn (s : State) : (csaClear s).rxTurn = s.rxTurn := rfl
@[simp] theorem csaClear_tx (s : State) : (csaClear s).tx = s.tx := rfl
@[simp] theorem csaClear_txReady (s : State) : (csaClear s).txReady = s.txReady := rfl
@[simp] theorem csaClear_inp (s : State) : (csaClear s).inp = s.inp := rfl
@[simp] theorem csaClear_script (s : State) : (csaClear s).script = s.script := rfl
@[simp] theorem csaClear_lastRead (s : State) : (csaClear s).lastRead = s.lastRead := rfl
@[simp] theorem csaClear_readTurn (s : State) : (csaClear s).readTurn = s.readTurn := rfl
@[simp] theorem csaClear_pfOp (s : State) : (csaClear s).pfOp = s.pfOp := rfl
@[simp] theorem csaClear_meas (s : State) : (csaClear s).meas = s.meas := rfl

@[simp] theorem csaAdd_acc (b : Byte) (s : State) : (csaAdd b s).acc = s.acc + b := rfl
@[simp] theorem csaAdd_csaLast (b : Byte) (s : State) : (csaAdd b s).csaLast = s.csaLast := rfl
@[simp] theorem csaAdd_csaHave (b : Byte) (s : State) : (csaAdd b s).csaHave = s.csaHave := rfl
@[simp] theorem csaAdd_pfPhase (b : Byte) (s : State) : (csaAdd b s).pfPhase = s.pfPhase := rfl
@[simp] theorem csaAdd_encCode (b : Byte) (s : State) : (csaAdd b s).encCode = s.encCode := rfl
@[simp] theorem csaAdd_encN (b : Byte) (s : State) : (csaAdd b s).encN = s.encN := rfl
@[simp] theorem csaAdd_encI (b : Byte) (s : State) : (csaAdd b s).encI = s.encI := rfl
@[simp] theorem csaAdd_argbuf (b : Byte) (s : State) : (csaAdd b s).argbuf = s.argbuf := rfl
@[simp] theorem csaAdd_decE (b : Byte) (s : State) : (csaAdd b s).decE = s.decE := rfl
@[simp] theorem csaAdd_decHasLen (b : Byte) (s : State) : (csaAdd b s).decHasLen = s.decHasLen := rfl
@[simp] theorem csaAdd_decHasCsum (b : Byte) (s : State) : (csaAdd b s).decHasCsum = s.decHasCsum := rfl
@[simp] theorem csaAdd_decCnt (b : Byte) (s : State) : (csaAdd b s).decCnt = s.decCnt := rfl
@[simp] theorem csaAdd_decOver (b : Byte) (s : State) : (csaAdd b s).decOver = s.decOver := rfl
@[simp] theorem csaAdd_decLen (b : Byte) (s : State) : (csaAdd b s).decLen = s.decLen := rfl
@[simp] theorem csaAdd_rbuf (b : Byte) (s : State) : (csaAdd b s).rbuf = s.rbuf := rfl
@[simp] theorem csaAdd_rbufValid (b : Byte) (s : State) : (csaAdd b s).rbufValid = s.rbufValid := rfl
@[simp] theorem csaAdd_pfResult (b : Byte) (s : State) : (csaAdd b s).pfResult = s.pfResult := rfl
@[simp] theorem csaAdd_pfFlag (b : Byte) (s : State) : (csaAdd b s).pfFlag = s.pfFlag := rfl
@[simp] theorem csaAdd_rsPhase (b : Byte) (s : State) : (csaAdd b s).rsPhase = s.rsPhase := rfl
@[simp] theorem csaAdd_rsE (b : Byte) (s : State) : (csaAdd b s).rsE = s.rsE := rfl
@[simp] theorem csaAdd_rsCnt (b : Byte) (s : State) : (csaAdd b s).rsCnt = s.rsCnt := rfl
@[simp] theorem csaAdd_pdSeen1 (b : Byte) (s : State) : (csaAdd b s).pdSeen1 = s.pdSeen1 := rfl
@[simp] theorem csaAdd_fbuf (b : Byte) (s : State) : (csaAdd b s).fbuf = s.fbuf := rfl
@[simp] theorem csaAdd_fbufValid (b : Byte) (s : State) : (csaAdd b s).fbufValid = s.fbufValid := rfl
@[simp] theorem csaAdd_rsResult (b : Byte) (s : State) : (csaAdd b s).rsResult = s.rsResult := rfl
@[simp] theorem csaAdd_rx (b : Byte) (s : State) : (csaAdd b s).rx = s.rx := rfl
@[simp] theorem csaAdd_rxTail (b : Byte) (s : State) : (csaAdd b s).rxTail = s.rxTail := rfl
@[simp] theorem csaAdd_rxTurn (b : Byte) (s : State) : (csaAdd b s).rxTurn = s.rxTurn := rfl
@[simp] theorem csaAdd_tx (b : Byte) (s : State) : (csaAdd b s).tx = s.tx := rfl
@[simp] theorem csaAdd_txReady (b : Byte) (s : State) : (csaAdd b s).txReady = s.txReady := rfl
@[simp] theorem csaAdd_inp (b : Byte) (s : State) : (csaAdd b s).inp = s.inp := rfl
@[simp] theorem csaAdd_script (b : Byte) (s : State) : (csaAdd b s).script = s.script := rfl
@[simp] theorem csaAdd_lastRead (b : Byte) (s : State) : (csaAdd b s).lastRead = s.lastRead := rfl
@[simp] theorem csaAdd_readTurn (b : Byte) (s : State) : (csaAdd b s).readTurn = s.readTurn := rfl
@[simp] theorem csaAdd_pfOp (b : Byte) (s : State) : (csaAdd b s).pfOp = s.pfOp := rfl
@[simp] theorem csaAdd_meas (b : Byte) (s : State) : (csaAdd b s).meas = s.meas := rfl

@[simp] theorem csaFeed_acc (b : Byte) (s : State) : (csaFeed b s).acc = if s.csaHave then s.acc + s.csaLast else s.acc := rfl
@[simp] theorem csaFeed_csaLast (b : Byte) (s : State) : (csaFeed b s).csaLast = b := rfl
@[simp] theorem csaFeed_csaHave (b : Byte) (s : State) : (csaFeed b s).csaHave = true := rfl
@[simp] theorem csaFeed_pfPhase (b : Byte) (s : State) : (csaFeed b s).pfPhase = s.pfPhase := rfl
@[simp] theorem csaFeed_encCode (b : Byte) (s : State) : (csaFeed b s).encCode = s.encCode := rfl
@[simp] theorem csaFeed_encN (b : Byte) (s : State) : (csaFeed b s).encN = s.encN := rfl
@[simp] theorem csaFeed_encI (b : Byte) (s : State) : (csaFeed b s).encI = s.encI := rfl
@[simp] theorem csaFeed_argbuf (b : Byte) (s : State) : (csaFeed b s).argbuf = s.argbuf := rfl
@[simp] theorem csaFeed_decE (b : Byte) (s : State) : (csaFeed b s).decE = s.decE := rfl
@[simp] theorem csaFeed_decHasLen (b : Byte) (s : State) : (csaFeed b s).decHasLen = s.decHasLen := rfl
@[simp] theorem csaFeed_decHasCsum (b : Byte) (s : State) : (csaFeed b s).decHasCsum = s.decHasCsum := rfl
@[simp] theorem csaFeed_decCnt (b : Byte) (s : State) : (csaFeed b s).decCnt = s.decCnt := rfl
@[simp] theorem csaFeed_decOver (b : Byte) (s : State) : (csaFeed b s).decOver = s.decOver := rfl
@[simp] theorem csaFeed_decLen (b : Byte) (s : State) : (csaFeed b s).decLen = s.decLen := rfl
@[simp] theorem csaFeed_rbuf (b : Byte) (s : State) : (csaFeed b s).rbuf = s.rbuf := rfl
@[simp] theorem csaFeed_rbufValid (b : Byte) (s : State) : (csaFeed b s).rbufValid = s.rbufValid := rfl
@[simp] theorem csaFeed_pfResult (b : Byte) (s : State) : (csaFeed b s).pfResult = s.pfResult := rfl
@[simp] theorem csaFeed_pfFlag (b : Byte) (s : State) : (csaFeed b s).pfFlag = s.pfFlag := rfl
@[simp] theorem csaFeed_rsPhase (b : Byte) (s : State) : (csaFeed b s).rsPhase = s.rsPhase := rfl
@[simp] theorem csaFeed_rsE (b : Byte) (s : State) : (csaFeed b s).rsE = s.rsE := rfl
@[simp] theorem csaFeed_rsCnt (b : Byte) (s : State) : (csaFeed b s).rsCnt = s.rsCnt := rfl
@[simp] theorem csaFeed_pdSeen1 (b : Byte) (s : State) : (csaFeed b s).pdSeen1 = s.pdSeen1 := rfl
@[simp] theorem csaFeed_fbuf (b : Byte) (s : State) : (csaFeed b s).fbuf = s.fbuf := rfl
@[simp] theorem csaFeed_fbufValid (b : Byte) (s : State) : (csaFeed b s).fbufValid = s.fbufValid := rfl
@[simp] theorem csaFeed_rsResult (b : Byte) (s : State) : (csaFeed b s).rsResult = s.rsResult := rfl
@[simp] theorem csaFeed_rx (b : Byte) (s : State) : (csaFeed b s).rx = s.rx := rfl
@[simp] theorem csaFeed_rxTail (b : Byte) (s : State) : (csaFeed b s).rxTail = s.rxTail := rfl
@[simp] theorem csaFeed_rxTurn (b : Byte) (s : State) : (csaFeed b s).rxTurn = s.rxTurn := rfl
@[simp] theorem csaFeed_tx (b : Byte) (s : State) : (csaFeed b s).tx = s.tx := rfl
@[simp] theorem csaFeed_txReady (b : Byte) (s : State) : (csaFeed b s).txReady = s.txReady := rfl
@[simp] theorem csaFeed_inp (b : Byte) (s : State) : (csaFeed b s).inp = s.inp := rfl
@[simp] theorem csaFeed_script (b : Byte) (s : State) : (csaFeed b s).script = s.script := rfl
@[simp] theorem csaFeed_lastRead (b : Byte) (s : State) : (csaFeed b s).lastRead = s.lastRead := rfl
@[simp] theorem csaFeed_readTurn (b : Byte) (s : State) : (csaFeed b s).readTurn = s.readTurn := rfl
@[simp] theorem csaFeed_pfOp (b : Byte) (s : State) : (csaFeed b s).pfOp = s.pfOp := rfl
@[simp] theorem csaFeed_meas (b : Byte) (s : State) : (csaFeed b s).meas = s.meas := rfl

@[simp] theorem finishPf_acc (r : ResultCode) (s : State) : (finishPf r s).acc = s.acc := rfl
@[simp] theorem finishPf_csaLast (r : ResultCode) (s : State) : (finishPf r s).csaLast = s.csaLast := rfl
@[simp] theorem finishPf_csaHave (r : ResultCode) (s : State) : (finishPf r s).csaHave = s.csaHave := rfl
@[simp] theorem finishPf_pfPhase (r : ResultCode) (s : State) : (finishPf r s).pfPhase = .idle := rfl
@[simp] theorem finishPf_encCode (r : ResultCode) (s : State) : (finishPf r s).encCode = s.encCode := rfl
@[simp] theorem finishPf_encN (r : ResultCode) (s : State) : (finishPf r s).encN = s.encN := rfl
@[simp] theorem finishPf_encI (r : ResultCode) (s : State) : (finishPf r s).encI = s.encI := rfl
@[simp] theorem finishPf_argbuf (r : ResultCode) (s : State) : (finishPf r s).argbuf = s.argbuf := rfl
@[simp] theorem finishPf_decE (r : ResultCode) (s : State) : (finishPf r s).decE = s.decE := rfl
@[simp] theorem finishPf_decHasLen (r : ResultCode) (s : State) : (finishPf r s).decHasLen = s.decHasLen := rfl
@[simp] theorem finishPf_decHasCsum (r : ResultCode) (s : State) : (finishPf r s).decHasCsum = s.decHasCsum := rfl
@[simp] theorem finishPf_decCnt (r : ResultCode) (s : State) : (finishPf r s).decCnt = s.decCnt := rfl
@[simp] theorem finishPf_decOver (r : ResultCode) (s : State) : (finishPf r s).decOver = s.decOver := rfl
@[simp] theorem finishPf_decLen (r : ResultCode) (s : State) : (finishPf r s).decLen = s.decLen := rfl
@[simp] theorem finishPf_rbuf (r : ResultCode) (s : State) : (finishPf r s).rbuf = s.rbuf := rfl
@[simp] theorem finishPf_rbufValid (r : ResultCode) (s : State) : (finishPf r s).rbufValid = s.rbufValid := rfl
@[simp] theorem finishPf_pfResult (r : ResultCode) (s : State) : (finishPf r s).pfResult = r := rfl
@[simp] theorem finishPf_pfFlag (r : ResultCode) (s : State) : (finishPf r s).pfFlag = s.pfFlag := rfl
@[simp] theorem finishPf_rsPhase (r : ResultCode) (s : State) : (finishPf r s).rsPhase = s.rsPhase := rfl
@[simp] theorem finishPf_rsE (r : ResultCode) (s : State) : (finishPf r s).rsE = s.rsE := rfl
@[simp] theorem finishPf_rsCnt (r : ResultCode) (s : State) : (finishPf r s).rsCnt = s.rsCnt := rfl
@[simp] theorem finishPf_pdSeen1 (r : ResultCode) (s : State) : (finishPf r s).pdSeen1 = s.pdSeen1 := rfl
@[simp] theorem finishPf_fbuf (r : ResultCode) (s : State) : (finishPf r s).fbuf = s.fbuf := rfl
@[simp] theorem finishPf_fbufValid (r : ResultCode) (s : State) : (finishPf r s).fbufValid = s.fbufValid := rfl
@[simp] theorem finishPf_rsResult (r : ResultCode) (s : State) : (finishPf r s).rsResult = s.rsResult := rfl
@[simp] theorem finishPf_rx (r : ResultCode) (s : State) : (finishPf r s).rx = s.rx := rfl
@[simp] theorem finishPf_rxTail (r : ResultCode) (s : State) : (finishPf r s).rxTail = s.rxTail := rfl
@[simp] theorem finishPf_rxTurn (r : ResultCode) (s : State) : (finishPf r s).rxTurn = s.rxTurn := rfl
@[simp] theorem finishPf_tx (r : ResultCode) (s : State) : (finishPf r s).tx = s.tx := rfl
@[simp] theorem finishPf_txReady (r : ResultCode) (s : State) : (finishPf r s).txReady = s.txReady := rfl
@[simp] theorem finishPf_inp (r : ResultCode) (s : State) : (finishPf r s).inp = s.inp := rfl
@[simp] theorem finishPf_script (r : ResultCode) (s : State) : (finishPf r s).script = s.script := rfl
@[simp] theorem finishPf_lastRead (r : ResultCode) (s : State) : (finishPf r s).lastRead = s.lastRead := rfl
@[simp] theorem finishPf_readTurn (r : ResultCode) (s : State) : (finishPf r s).readTurn = s.readTurn := rfl
@[simp] theorem finishPf_pfOp (r : ResultCode) (s : State) : (finishPf r s).pfOp = s.pfOp := rfl
@[simp] theorem finishPf_meas (r : ResultCode) (s : State) : (finishPf r s).meas = s.meas := rfl

@[simp] theorem finishRs_acc (r : ResultCode) (s : State) : (finishRs r s).acc = s.acc := rfl
@[simp] theorem finishRs_csaLast (r : ResultCode) (s : State) : (finishRs r s).csaLast = s.csaLast := rfl
@[simp] theorem finishRs_csaHave (r : ResultCode) (s : State) : (finishRs r s).csaHave = s.csaHave := rfl
@[simp] theorem finishRs_pfPhase (r : ResultCode) (s : State) : (finishRs r s).pfPhase = s.pfPhase := rfl
@[simp] theorem finishRs_encCode (r : ResultCode) (s : State) : (finishRs r s).encCode = s.encCode := rfl
@[simp] theorem finishRs_encN (r : ResultCode) (s : State) : (finishRs r s).encN = s.encN := rfl
@[simp] theorem finishRs_encI (r : ResultCode) (s : State) : (finishRs r s).encI = s.encI := rfl
@[simp] theorem finishRs_argbuf (r : ResultCode) (s : State) : (finishRs r s).argbuf = s.argbuf := rfl
@[simp] theorem finishRs_decE (r : ResultCode) (s : State) : (finishRs r s).decE = s.decE := rfl
@[simp] theorem finishRs_decHasLen (r : ResultCode) (s : State) : (finishRs r s).decHasLen = s.decHasLen := rfl
@[simp] theorem finishRs_decHasCsum (r : ResultCode) (s : State) : (finishRs r s).decHasCsum = s.decHasCsum := rfl
@[simp] theorem finishRs_decCnt (r : ResultCode) (s : State) : (finishRs r s).decCnt = s.decCnt := rfl
@[simp] theorem finishRs_decOver (r : ResultCode) (s : State) : (finishRs r s).decOver = s.decOver := rfl
@[simp] theorem finishRs_decLen (r : ResultCode) (s : State) : (finishRs r s).decLen = s.decLen := rfl
@[simp] theorem finishRs_rbuf (r : ResultCode) (s : State) : (finishRs r s).rbuf = s.rbuf := rfl
@[simp] theorem finishRs_rbufValid (r : ResultCode) (s : State) : (finishRs r s).rbufValid = s.rbufValid := rfl
@[simp] theorem finishRs_pfResult (r : ResultCode) (s : State) : (finishRs r s).pfResult = s.pfResult := rfl
@[simp] theorem finishRs_pfFlag (r : ResultCode) (s : State) : (finishRs r s).pfFlag = s.pfFlag := rfl
@[simp] theorem finishRs_rsPhase (r : ResultCode) (s : State) : (finishRs r s).rsPhase = .idle := rfl
@[simp] theorem finishRs_rsE (r : ResultCode) (s : State) : (finishRs r s).rsE = s.rsE := rfl
@[simp] theorem finishRs_rsCnt (r : ResultCode) (s : State) : (finishRs r s).rsCnt = s.rsCnt := rfl
@[simp] theorem finishRs_pdSeen1 (r : ResultCode) (s : State) : (finishRs r s).pdSeen1 = s.pdSeen1 := rfl
@[simp] theorem finishRs_fbuf (r : ResultCode) (s : State) : (finishRs r s).fbuf = s.fbuf := rfl
@[simp] theorem finishRs_fbufValid (r : ResultCode) (s : State) : (finishRs r s).fbufValid = s.fbufValid := rfl
@[simp] theorem finishRs_rsResult (r : ResultCode) (s : State) : (finishRs r s).rsResult = r := rfl
@[simp] theorem finishRs_rx (r : ResultCode) (s : State) : (finishRs r s).rx = s.rx := rfl
@[simp] theorem finishRs_rxTail (r : ResultCode) (s : State) : (finishRs r s).rxTail = s.rxTail := rfl
@[simp] theorem finishRs_rxTurn (r : ResultCode) (s : State) : (finishRs r s).rxTurn = s.rxTurn := rfl
@[simp] theorem finishRs_tx (r : ResultCode) (s : State) : (finishRs r s).tx = s.tx := rfl
@[simp] theorem finishRs_txReady (r : ResultCode) (s : State) : (finishRs r s).txReady = s.txReady := rfl
@[simp] theorem finishRs_inp (r : ResultCode) (s : State) : (finishRs r s).inp = s.inp := rfl
@[simp] theorem finishRs_script (r : ResultCode) (s : State) : (finishRs r s).script = s.script := rfl
@[simp] theorem finishRs_lastRead (r : ResultCode) (s : State) : (finishRs r s).lastRead = s.lastRead := rfl
@[simp] theorem finishRs_readTurn (r : ResultCode) (s : State) : (finishRs r s).readTurn = s.readTurn := rfl
@[simp] theorem finishRs_pfOp (r : ResultCode) (s : State) : (finishRs r s).pfOp = s.pfOp := rfl
@[simp] theorem finishRs_meas (r : ResultCode) (s : State) : (finishRs r s).meas = s.meas := rfl

@[simp] theorem setFlag_acc (v : Bool) (s : State) : (setFlag v s).acc = s.acc := rfl
@[simp] theorem setFlag_csaLast (v : Bool) (s : State) : (setFlag v s).csaLast = s.csaLast := rfl
@[simp] theorem setFlag_csaHave (v : Bool) (s : State) : (setFlag v s).csaHave = s.csaHave := rfl
@[simp] theorem setFlag_pfPhase (v : Bool) (s : State) : (setFlag v s).pfPhase = s.pfPhase := rfl
@[simp] theorem setFlag_encCode (v : Bool) (s : State) : (setFlag v s).encCode = s.encCode := rfl
@[simp] theorem setFlag_encN (v : Bool) (s : State) : (setFlag v s).encN = s.encN := rfl
@[simp] theorem setFlag_encI (v : Bool) (s : State) : (setFlag v s).encI = s.encI := rfl
@[simp] theorem setFlag_argbuf (v : Bool) (s : State) : (setFlag v s).argbuf = s.argbuf := rfl
@[simp] theorem setFlag_decE (v : Bool) (s : State) : (setFlag v s).decE = s.decE := rfl
@[simp] theorem setFlag_decHasLen (v : Bool) (s : State) : (setFlag v s).decHasLen = s.decHasLen := rfl
@[simp] theorem setFlag_decHasCsum (v : Bool) (s : State) : (setFlag v s).decHasCsum = s.decHasCsum := rfl
@[simp] theorem setFlag_decCnt (v : Bool) (s : State) : (setFlag v s).decCnt = s.decCnt := rfl
@[simp] theorem setFlag_decOver (v : Bool) (s : State) : (setFlag v s).decOver = s.decOver := rfl
@[simp] theorem setFlag_decLen (v : Bool) (s : State) : (setFlag v s).decLen = s.decLen := rfl
@[simp] theorem setFlag_rbuf (v : Bool) (s : State) : (setFlag v s).rbuf = s.rbuf := rfl
@[simp] theorem setFlag_rbufValid (v : Bool) (s : State) : (setFlag v s).rbufValid = s.rbufValid := rfl
@[simp] theorem setFlag_pfResult (v : Bool) (s : State) : (setFlag v s).pfResult = s.pfResult := rfl
@[simp] theorem setFlag_pfFlag (v : Bool) (s : State) : (setFlag v s).pfFlag = v := rfl
@[simp] theorem setFlag_rsPhase (v : Bool) (s : State) : (setFlag v s).rsPhase = s.rsPhase := rfl
@[simp] theorem setFlag_rsE (v : Bool) (s : State) : (setFlag v s).rsE = s.rsE := rfl
@[simp] theorem setFlag_rsCnt (v : Bool) (s : State) : (setFlag v s).rsCnt = s.rsCnt := rfl
@[simp] theorem setFlag_pdSeen1 (v : Bool) (s : State) : (setFlag v s).pdSeen1 = s.pdSeen1 := rfl
@[simp] theorem setFlag_fbuf (v : Bool) (s : State) : (setFlag v s).fbuf = s.fbuf := rfl
@[simp] theorem setFlag_fbufValid (v : Bool) (s : State) : (setFlag v s).fbufValid = s.fbufValid := rfl
@[simp] theorem setFlag_rsResult (v : Bool) (s : State) : (setFlag v s).rsResult = s.rsResult := rfl
@[simp] theorem setFlag_rx (v : Bool) (s : State) : (setFlag v s).rx = s.rx := rfl
@[simp] theorem setFlag_rxTail (v : Bool) (s : State) : (setFlag v s).rxTail = s.rxTail := rfl
@[simp] theorem setFlag_rxTurn (v : Bool) (s : State) : (setFlag v s).rxTurn = s.rxTurn := rfl
@[simp] theorem setFlag_tx (v : Bool) (s : State) : (setFlag v s).tx = s.tx := rfl
@[simp] theorem setFlag_txReady (v : Bool) (s : State) : (setFlag v s).txReady = s.txReady := rfl
@[simp] theorem setFlag_inp (v : Bool) (s : State) : (setFlag v s).inp = s.inp := rfl
@[simp] theorem setFlag_script (v : Bool) (s : State) : (setFlag v s).script = s.script := rfl
@[simp] theorem setFlag_lastRead (v : Bool) (s : State) : (setFlag v s).lastRead = s.lastRead := rfl
@[simp] theorem setFlag_readTurn (v : Bool) (s : State) : (setFlag v s).readTurn = s.readTurn := rfl
@[simp] theorem setFlag_pfOp (v : Bool) (s : State) : (setFlag v s).pfOp = s.pfOp := rfl
@[simp] theorem setFlag_meas (v : Bool) (s : State) : (setFlag v s).meas = s.meas := rfl

@[simp] theorem refusePf_acc (s : State) : (refusePf s).acc = s.acc := rfl
@[simp] theorem refusePf_csaLast (s : State) : (refusePf s).csaLast = s.csaLast := rfl
@[simp] theorem refusePf_csaHave (s : State) : (refusePf s).csaHave = s.csaHave := rfl
@[simp] theorem refusePf_pfPhase (s : State) : (refusePf s).pfPhase = s.pfPhase := rfl
@[simp] theorem refusePf_encCode (s : State) : (refusePf s).encCode = s.encCode := rfl
@[simp] theorem refusePf_encN (s : State) : (refusePf s).encN = s.encN := rfl
@[simp] theorem refusePf_encI (s : State) : (refusePf s).encI = s.encI := rfl
@[simp] theorem refusePf_argbuf (s : State) : (refusePf s).argbuf = s.argbuf := rfl
@[simp] theorem refusePf_decE (s : State) : (refusePf s).decE = s.decE := rfl
@[simp] theorem refusePf_decHasLen (s : State) : (refusePf s).decHasLen = s.decHasLen := rfl
@[simp] theorem refusePf_decHasCsum (s : State) : (refusePf s).decHasCsum = s.decHasCsum := rfl
@[simp] theorem refusePf_decCnt (s : State) : (refusePf s).decCnt = s.decCnt := rfl
@[simp] theorem refusePf_decOver (s : State) : (refusePf s).decOver = s.decOver := rfl
@[simp] theorem refusePf_decLen (s : State) : (refusePf s).decLen = s.decLen := rfl
@[simp] theorem refusePf_rbuf (s : State) : (refusePf s).rbuf = s.rbuf := rfl
@[simp] theorem refusePf_rbufValid (s : State) : (refusePf s).rbufValid = s.rbufValid := rfl
@[simp] theorem refusePf_pfResult (s : State) : (refusePf s).pfResult = .refused := rfl
@[simp] theorem refusePf_pfFlag (s : State) : (refusePf s).pfFlag = s.pfFlag := rfl
@[simp] theorem refusePf_rsPhase (s : State) : (refusePf s).rsPhase = s.rsPhase := rfl
@[simp] theorem refusePf_rsE (s : State) : (refusePf s).rsE = s.rsE := rfl
@[simp] theorem refusePf_rsCnt (s : State) : (refusePf s).rsCnt = s.rsCnt := rfl
@[simp] theorem refusePf_pdSeen1 (s : State) : (refusePf s).pdSeen1 = s.pdSeen1 := rfl
@[simp] theorem refusePf_fbuf (s : State) : (refusePf s).fbuf = s.fbuf := rfl
@[simp] theorem refusePf_fbufValid (s : State) : (refusePf s).fbufValid = s.fbufValid := rfl
@[simp] theorem refusePf_rsResult (s : State) : (refusePf s).rsResult = s.rsResult := rfl
@[simp] theorem refusePf_rx (s : State) : (refusePf s).rx = s.rx := rfl
@[simp] theorem refusePf_rxTail (s : State) : (refusePf s).rxTail = s.rxTail := rfl
@[simp] theorem refusePf_rxTurn (s : State) : (refusePf s).rxTurn = s.rxTurn := rfl
@[simp] theorem refusePf_tx (s : State) : (refusePf s).tx = s.tx := rfl
@[simp] theorem refusePf_txReady (s : State) : (refusePf s).txReady = s.txReady := rfl
@[simp] theorem refusePf_inp (s : State) : (refusePf s).inp = s.inp := rfl
@[simp] theorem refusePf_script (s : State) : (refusePf s).script = s.script := rfl
@[simp] theorem refusePf_lastRead (s : State) : (refusePf s).lastRead = s.lastRead := rfl
@[simp] theorem refusePf_readTurn (s : State) : (refusePf s).readTurn = s.readTurn := rfl
@[simp] theorem refusePf_pfOp (s : State) : (refusePf s).pfOp = s.pfOp := rfl
@[simp] theorem refusePf_meas (s : State) : (refusePf s).meas = s.meas := rfl

@[simp] theorem refuseRs_acc (s : State) : (refuseRs s).acc = s.acc := rfl
@[simp] theorem refuseRs_csaLast (s : State) : (refuseRs s).csaLast = s.csaLast := rfl
@[simp] theorem refuseRs_csaHave (s : State) : (refuseRs s).csaHave = s.csaHave := rfl
@[simp] theorem refuseRs_pfPhase (s : State) : (refuseRs s).pfPhase = s.pfPhase := rfl
@[simp] theorem refuseRs_encCode (s : State) : (refuseRs s).encCode = s.encCode := rfl
@[simp] theorem refuseRs_encN (s : State) : (refuseRs s).encN = s.encN := rfl
@[simp] theorem refuseRs_encI (s : State) : (refuseRs s).encI = s.encI := rfl
@[simp] theorem refuseRs_argbuf (s : State) : (refuseRs s).argbuf = s.argbuf := rfl
@[simp] theorem refuseRs_decE (s : State) : (refuseRs s).decE = s.decE := rfl
@[simp] theorem refuseRs_decHasLen (s : State) : (refuseRs s).decHasLen = s.decHasLen := rfl
@[simp] theorem refuseRs_decHasCsum (s : State) : (refuseRs s).decHasCsum = s.decHasCsum := rfl
@[simp] theorem refuseRs_decCnt (s : State) : (refuseRs s).decCnt = s.decCnt := rfl
@[simp] theorem refuseRs_decOver (s : State) : (refuseRs s).decOver = s.decOver := rfl
@[simp] theorem refuseRs_decLen (s : State) : (refuseRs s).decLen = s.decLen := rfl
@[simp] theorem refuseRs_rbuf (s : State) : (refuseRs s).rbuf = s.rbuf := rfl
@[simp] theorem refuseRs_rbufValid (s : State) : (refuseRs s).rbufValid = s.rbufValid := rfl
@[simp] theorem refuseRs_pfResult (s : State) : (refuseRs s).pfResult = s.pfResult := rfl
@[simp] theorem refuseRs_pfFlag (s : State) : (refuseRs s).pfFlag = s.pfFlag := rfl
@[simp] theorem refuseRs_rsPhase (s : State) : (refuseRs s).rsPhase = s.rsPhase := rfl
@[simp] theorem refuseRs_rsE (s : State) : (refuseRs s).rsE = s.rsE := rfl
@[simp] theorem refuseRs_rsCnt (s : State) : (refuseRs s).rsCnt = s.rsCnt := rfl
@[simp] theorem refuseRs_pdSeen1 (s : State) : (refuseRs s).pdSeen1 = s.pdSeen1 := rfl
@[simp] theorem refuseRs_fbuf (s : State) : (refuseRs s).fbuf = s.fbuf := rfl
@[simp] theorem refuseRs_fbufValid (s : State) : (refuseRs s).fbufValid = s.fbufValid := rfl
@[simp] theorem refuseRs_rsResult (s : State) : (refuseRs s).rsResult = .refused := rfl
@[simp] theorem refuseRs_rx (s : State) : (refuseRs s).rx = s.rx := rfl
@[simp] theorem refuseRs_rxTail (s : State) : (refuseRs s).rxTail = s.rxTail := rfl
@[simp] theorem refuseRs_rxTurn (s : State) : (refuseRs s).rxTurn = s.rxTurn := rfl
@[simp] theorem refuseRs_tx (s : State) : (refuseRs s).tx = s.tx := rfl
@[simp] theorem refuseRs_txReady (s : State) : (refuseRs s).txReady = s.txReady := rfl
@[simp] theorem refuseRs_inp (s : State) : (refuseRs s).inp = s.inp := rfl
@[simp] theorem refuseRs_script (s : State) : (refuseRs s).script = s.script := rfl
@[simp] theorem refuseRs_lastRead (s : State) : (refuseRs s).lastRead = s.lastRead := rfl
@[simp] theorem refuseRs_readTurn (s : State) : (refuseRs s).readTurn = s.readTurn := rfl
@[simp] theorem refuseRs_pfOp (s : State) : (refuseRs s).pfOp = s.pfOp := rfl
@[simp] theorem refuseRs_meas (s : State) : (refuseRs s).meas = s.meas := rfl

@[simp] theorem refuseReserved_acc (s : State) : (refuseReserved s).acc = s.acc := rfl
@[simp] theorem refuseReserved_csaLast (s : State) : (refuseReserved s).csaLast = s.csaLast := rfl
@[simp] theorem refuseReserved_csaHave (s : State) : (refuseReserved s).csaHave = s.csaHave := rfl
@[simp] theorem refuseReserved_pfPhase (s : State) : (refuseReserved s).pfPhase = s.pfPhase := rfl
@[simp] theorem refuseReserved_encCode (s : State) : (refuseReserved s).encCode = s.encCode := rfl
@[simp] theorem refuseReserved_encN (s : State) : (refuseReserved s).encN = s.encN := rfl
@[simp] theorem refuseReserved_encI (s : State) : (refuseReserved s).encI = s.encI := rfl
@[simp] theorem refuseReserved_argbuf (s : State) : (refuseReserved s).argbuf = s.argbuf := rfl
@[simp] theorem refuseReserved_decE (s : State) : (refuseReserved s).decE = s.decE := rfl
@[simp] theorem refuseReserved_decHasLen (s : State) : (refuseReserved s).decHasLen = s.decHasLen := rfl
@[simp] theorem refuseReserved_decHasCsum (s : State) : (refuseReserved s).decHasCsum = s.decHasCsum := rfl
@[simp] theorem refuseReserved_decCnt (s : State) : (refuseReserved s).decCnt = s.decCnt := rfl
@[simp] theorem refuseReserved_decOver (s : State) : (refuseReserved s).decOver = s.decOver := rfl
@[simp] theorem refuseReserved_decLen (s : State) : (refuseReserved s).decLen = s.decLen := rfl
@[simp] theorem refuseReserved_rbuf (s : State) : (refuseReserved s).rbuf = s.rbuf := rfl
@[simp] theorem refuseReserved_rbufValid (s : State) : (refuseReserved s).rbufValid = s.rbufValid := rfl
@[simp] theorem refuseReserved_pfResult (s : State) : (refuseReserved s).pfResult = if s.pfBusy then s.pfResult else .refused := rfl
@[simp] theorem refuseReserved_pfFlag (s : State) : (refuseReserved s).pfFlag = s.pfFlag := rfl
@[simp] theorem refuseReserved_rsPhase (s : State) : (refuseReserved s).rsPhase = s.rsPhase := rfl
@[simp] theorem refuseReserved_rsE (s : State) : (refuseReserved s).rsE = s.rsE := rfl
@[simp] theorem refuseReserved_rsCnt (s : State) : (refuseReserved s).rsCnt = s.rsCnt := rfl
@[simp] theorem refuseReserved_pdSeen1 (s : State) : (refuseReserved s).pdSeen1 = s.pdSeen1 := rfl
@[simp] theorem refuseReserved_fbuf (s : State) : (refuseReserved s).fbuf = s.fbuf := rfl
@[simp] theorem refuseReserved_fbufValid (s : State) : (refuseReserved s).fbufValid = s.fbufValid := rfl
@[simp] theorem refuseReserved_rsResult (s : State) : (refuseReserved s).rsResult = if s.rsBusy then s.rsResult else .refused := rfl
@[simp] theorem refuseReserved_rx (s : State) : (refuseReserved s).rx = s.rx := rfl
@[simp] theorem refuseReserved_rxTail (s : State) : (refuseReserved s).rxTail = s.rxTail := rfl
@[simp] theorem refuseReserved_rxTurn (s : State) : (refuseReserved s).rxTurn = s.rxTurn := rfl
@[simp] theorem refuseReserved_tx (s : State) : (refuseReserved s).tx = s.tx := rfl
@[simp] theorem refuseReserved_txReady (s : State) : (refuseReserved s).txReady = s.txReady := rfl
@[simp] theorem refuseReserved_inp (s : State) : (refuseReserved s).inp = s.inp := rfl
@[simp] theorem refuseReserved_script (s : State) : (refuseReserved s).script = s.script := rfl
@[simp] theorem refuseReserved_lastRead (s : State) : (refuseReserved s).lastRead = s.lastRead := rfl
@[simp] theorem refuseReserved_readTurn (s : State) : (refuseReserved s).readTurn = s.readTurn := rfl
@[simp] theorem refuseReserved_pfOp (s : State) : (refuseReserved s).pfOp = s.pfOp := rfl
@[simp] theorem refuseReserved_meas (s : State) : (refuseReserved s).meas = s.meas := rfl

@[simp] theorem supplyAll_acc (bs : List Byte) (s : State) : (supplyAll bs s).acc = s.acc := rfl
@[simp] theorem supplyAll_csaLast (bs : List Byte) (s : State) : (supplyAll bs s).csaLast = s.csaLast := rfl
@[simp] theorem supplyAll_csaHave (bs : List Byte) (s : State) : (supplyAll bs s).csaHave = s.csaHave := rfl
@[simp] theorem supplyAll_pfPhase (bs : List Byte) (s : State) : (supplyAll bs s).pfPhase = s.pfPhase := rfl
@[simp] theorem supplyAll_encCode (bs : List Byte) (s : State) : (supplyAll bs s).encCode = s.encCode := rfl
@[simp] theorem supplyAll_encN (bs : List Byte) (s : State) : (supplyAll bs s).encN = s.encN := rfl
@[simp] theorem supplyAll_encI (bs : List Byte) (s : State) : (supplyAll bs s).encI = s.encI := rfl
@[simp] theorem supplyAll_argbuf (bs : List Byte) (s : State) : (supplyAll bs s).argbuf = s.argbuf := rfl
@[simp] theorem supplyAll_decE (bs : List Byte) (s : State) : (supplyAll bs s).decE = s.decE := rfl
@[simp] theorem supplyAll_decHasLen (bs : List Byte) (s : State) : (supplyAll bs s).decHasLen = s.decHasLen := rfl
@[simp] theorem supplyAll_decHasCsum (bs : List Byte) (s : State) : (supplyAll bs s).decHasCsum = s.decHasCsum := rfl
@[simp] theorem supplyAll_decCnt (bs : List Byte) (s : State) : (supplyAll bs s).decCnt = s.decCnt := rfl
@[simp] theorem supplyAll_decOver (bs : List Byte) (s : State) : (supplyAll bs s).decOver = s.decOver := rfl
@[simp] theorem supplyAll_decLen (bs : List Byte) (s : State) : (supplyAll bs s).decLen = s.decLen := rfl
@[simp] theorem supplyAll_rbuf (bs : List Byte) (s : State) : (supplyAll bs s).rbuf = s.rbuf := rfl
@[simp] theorem supplyAll_rbufValid (bs : List Byte) (s : State) : (supplyAll bs s).rbufValid = s.rbufValid := rfl
@[simp] theorem supplyAll_pfResult (bs : List Byte) (s : State) : (supplyAll bs s).pfResult = s.pfResult := rfl
@[simp] theorem supplyAll_pfFlag (bs : List Byte) (s : State) : (supplyAll bs s).pfFlag = s.pfFlag := rfl
@[simp] theorem supplyAll_rsPhase (bs : List Byte) (s : State) : (supplyAll bs s).rsPhase = s.rsPhase := rfl
@[simp] theorem supplyAll_rsE (bs : List Byte) (s : State) : (supplyAll bs s).rsE = s.rsE := rfl
@[simp] theorem supplyAll_rsCnt (bs : List Byte) (s : State) : (supplyAll bs s).rsCnt = s.rsCnt := rfl
@[simp] theorem supplyAll_pdSeen1 (bs : List Byte) (s : State) : (supplyAll bs s).pdSeen1 = s.pdSeen1 := rfl
@[simp] theorem supplyAll_fbuf (bs : List Byte) (s : State) : (supplyAll bs s).fbuf = s.fbuf := rfl
@[simp] theorem supplyAll_fbufValid (bs : List Byte) (s : State) : (supplyAll bs s).fbufValid = s.fbufValid := rfl
@[simp] theorem supplyAll_rsResult (bs : List Byte) (s : State) : (supplyAll bs s).rsResult = s.rsResult := rfl
@[simp] theorem supplyAll_rx (bs : List Byte) (s : State) : (supplyAll bs s).rx = s.rx := rfl
@[simp] theorem supplyAll_rxTail (bs : List Byte) (s : State) : (supplyAll bs s).rxTail = s.rxTail := rfl
@[simp] theorem supplyAll_rxTurn (bs : List Byte) (s : State) : (supplyAll bs s).rxTurn = s.rxTurn := rfl
@[simp] theorem supplyAll_tx (bs : List Byte) (s : State) : (supplyAll bs s).tx = s.tx := rfl
@[simp] theorem supplyAll_txReady (bs : List Byte) (s : State) : (supplyAll bs s).txReady = s.txReady := rfl
@[simp] theorem supplyAll_inp (bs : List Byte) (s : State) : (supplyAll bs s).inp = s.inp ++ bs.map .byte ++ [.endMark] := rfl
@[simp] theorem supplyAll_script (bs : List Byte) (s : State) : (supplyAll bs s).script = s.script := rfl
@[simp] theorem supplyAll_lastRead (bs : List Byte) (s : State) : (supplyAll bs s).lastRead = s.lastRead := rfl
@[simp] theorem supplyAll_readTurn (bs : List Byte) (s : State) : (supplyAll bs s).readTurn = s.readTurn := rfl
@[simp] theorem supplyAll_pfOp (bs : List Byte) (s : State) : (supplyAll bs s).pfOp = s.pfOp := rfl
@[simp] theorem supplyAll_meas (bs : List Byte) (s : State) : (supplyAll bs s).meas = s.meas := rfl

@[simp] theorem deliver_acc (bs : List Byte) (s : State) : (deliver bs s).acc = s.acc := rfl
@[simp] theorem deliver_csaLast (bs : List Byte) (s : State) : (deliver bs s).csaLast = s.csaLast := rfl
@[simp] theorem deliver_csaHave (bs : List Byte) (s : State) : (deliver bs s).csaHave = s.csaHave := rfl
@[simp] theorem deliver_pfPhase (bs : List Byte) (s : State) : (deliver bs s).pfPhase = s.pfPhase := rfl
@[simp] theorem deliver_encCode (bs : List Byte) (s : State) : (deliver bs s).encCode = s.encCode := rfl
@[simp] theorem deliver_encN (bs : List Byte) (s : State) : (deliver bs s).encN = s.encN := rfl
@[simp] theorem deliver_encI (bs : List Byte) (s : State) : (deliver bs s).encI = s.encI := rfl
@[simp] theorem deliver_argbuf (bs : List Byte) (s : State) : (deliver bs s).argbuf = s.argbuf := rfl
@[simp] theorem deliver_decE (bs : List Byte) (s : State) : (deliver bs s).decE = s.decE := rfl
@[simp] theorem deliver_decHasLen (bs : List Byte) (s : State) : (deliver bs s).decHasLen = s.decHasLen := rfl
@[simp] theorem deliver_decHasCsum (bs : List Byte) (s : State) : (deliver bs s).decHasCsum = s.decHasCsum := rfl
@[simp] theorem deliver_decCnt (bs : List Byte) (s : State) : (deliver bs s).decCnt = s.decCnt := rfl
@[simp] theorem deliver_decOver (bs : List Byte) (s : State) : (deliver bs s).decOver = s.decOver := rfl
@[simp] theorem deliver_decLen (bs : List Byte) (s : State) : (deliver bs s).decLen = s.decLen := rfl
@[simp] theorem deliver_rbuf (bs : List Byte) (s : State) : (deliver bs s).rbuf = s.rbuf := rfl
@[simp] theorem deliver_rbufValid (bs : List Byte) (s : State) : (deliver bs s).rbufValid = s.rbufValid := rfl
@[simp] theorem deliver_pfResult (bs : List Byte) (s : State) : (deliver bs s).pfResult = s.pfResult := rfl
@[simp] theorem deliver_pfFlag (bs : List Byte) (s : State) : (deliver bs s).pfFlag = s.pfFlag := rfl
@[simp] theorem deliver_rsPhase (bs : List Byte) (s : State) : (deliver bs s).rsPhase = s.rsPhase := rfl
@[simp] theorem deliver_rsE (bs : List Byte) (s : State) : (deliver bs s).rsE = s.rsE := rfl
@[simp] theorem deliver_rsCnt (bs : List Byte) (s : State) : (deliver bs s).rsCnt = s.rsCnt := rfl
@[simp] theorem deliver_pdSeen1 (bs : List Byte) (s : State) : (deliver bs s).pdSeen1 = s.pdSeen1 := rfl
@[simp] theorem deliver_fbuf (bs : List Byte) (s : State) : (deliver bs s).fbuf = s.fbuf := rfl
@[simp] theorem deliver_fbufValid (bs : List Byte) (s : State) : (deliver bs s).fbufValid = s.fbufValid := rfl
@[simp] theorem deliver_rsResult (bs : List Byte) (s : State) : (deliver bs s).rsResult = s.rsResult := rfl
@[simp] theorem deliver_rx (bs : List Byte) (s : State) : (deliver bs s).rx = s.rx ++ bs.map .byte := rfl
@[simp] theorem deliver_rxTail (bs : List Byte) (s : State) : (deliver bs s).rxTail = s.rxTail := rfl
@[simp] theorem deliver_rxTurn (bs : List Byte) (s : State) : (deliver bs s).rxTurn = s.rxTurn := rfl
@[simp] theorem deliver_tx (bs : List Byte) (s : State) : (deliver bs s).tx = s.tx := rfl
@[simp] theorem deliver_txReady (bs : List Byte) (s : State) : (deliver bs s).txReady = s.txReady := rfl
@[simp] theorem deliver_inp (bs : List Byte) (s : State) : (deliver bs s).inp = s.inp := rfl
@[simp] theorem deliver_script (bs : List Byte) (s : State) : (deliver bs s).script = s.script := rfl
@[simp] theorem deliver_lastRead (bs : List Byte) (s : State) : (deliver bs s).lastRead = s.lastRead := rfl
@[simp] theorem deliver_readTurn (bs : List Byte) (s : State) : (deliver bs s).readTurn = s.readTurn := rfl
@[simp] theorem deliver_pfOp (bs : List Byte) (s : State) : (deliver bs s).pfOp = s.pfOp := rfl
@[simp] theorem deliver_meas (bs : List Byte) (s : State) : (deliver bs s).meas = s.meas := rfl

@[simp] theorem pdNote_acc (b : Byte) (s : State) : (pdNote b s).acc = s.acc := rfl
@[simp] theorem pdNote_csaLast (b : Byte) (s : State) : (pdNote b s).csaLast = s.csaLast := rfl
@[simp] theorem pdNote_csaHave (b : Byte) (s : State) : (pdNote b s).csaHave = s.csaHave := rfl
@[simp] theorem pdNote_pfPhase (b : Byte) (s : State) : (pdNote b s).pfPhase = s.pfPhase := rfl
@[simp] theorem pdNote_encCode (b : Byte) (s : State) : (pdNote b s).encCode = s.encCode := rfl
@[simp] theorem pdNote_encN (b : Byte) (s : State) : (pdNote b s).encN = s.encN := rfl
@[simp] theorem pdNote_encI (b : Byte) (s : State) : (pdNote b s).encI = s.encI := rfl
@[simp] theorem pdNote_argbuf (b : Byte) (s : State) : (pdNote b s).argbuf = s.argbuf := rfl
@[simp] theorem pdNote_decE (b : Byte) (s : State) : (pdNote b s).decE = s.decE := rfl
@[simp] theorem pdNote_decHasLen (b : Byte) (s : State) : (pdNote b s).decHasLen = s.decHasLen := rfl
@[simp] theorem pdNote_decHasCsum (b : Byte) (s : State) : (pdNote b s).decHasCsum = s.decHasCsum := rfl
@[simp] theorem pdNote_decCnt (b : Byte) (s : State) : (pdNote b s).decCnt = s.decCnt := rfl
@[simp] theorem pdNote_decOver (b : Byte) (s : State) : (pdNote b s).decOver = s.decOver := rfl
@[simp] theorem pdNote_decLen (b : Byte) (s : State) : (pdNote b s).decLen = s.decLen := rfl
@[simp] theorem pdNote_rbuf (b : Byte) (s : State) : (pdNote b s).rbuf = s.rbuf := rfl
@[simp] theorem pdNote_rbufValid (b : Byte) (s : State) : (pdNote b s).rbufValid = s.rbufValid := rfl
@[simp] theorem pdNote_pfResult (b : Byte) (s : State) : (pdNote b s).pfResult = s.pfResult := rfl
@[simp] theorem pdNote_pfFlag (b : Byte) (s : State) : (pdNote b s).pfFlag = s.pfFlag := rfl
@[simp] theorem pdNote_rsPhase (b : Byte) (s : State) : (pdNote b s).rsPhase = s.rsPhase := rfl
@[simp] theorem pdNote_rsE (b : Byte) (s : State) : (pdNote b s).rsE = s.rsE := rfl
@[simp] theorem pdNote_rsCnt (b : Byte) (s : State) : (pdNote b s).rsCnt = s.rsCnt := rfl
@[simp] theorem pdNote_pdSeen1 (b : Byte) (s : State) : (pdNote b s).pdSeen1 = (b == Config.hdr0) := rfl
@[simp] theorem pdNote_fbuf (b : Byte) (s : State) : (pdNote b s).fbuf = s.fbuf := rfl
@[simp] theorem pdNote_fbufValid (b : Byte) (s : State) : (pdNote b s).fbufValid = s.fbufValid := rfl
@[simp] theorem pdNote_rsResult (b : Byte) (s : State) : (pdNote b s).rsResult = s.rsResult := rfl
@[simp] theorem pdNote_rx (b : Byte) (s : State) : (pdNote b s).rx = s.rx := rfl
@[simp] theorem pdNote_rxTail (b : Byte) (s : State) : (pdNote b s).rxTail = s.rxTail := rfl
@[simp] theorem pdNote_rxTurn (b : Byte) (s : State) : (pdNote b s).rxTurn = s.rxTurn := rfl
@[simp] theorem pdNote_tx (b : Byte) (s : State) : (pdNote b s).tx = s.tx := rfl
@[simp] theorem pdNote_txReady (b : Byte) (s : State) : (pdNote b s).txReady = s.txReady := rfl
@[simp] theorem pdNote_inp (b : Byte) (s : State) : (pdNote b s).inp = s.inp := rfl
@[simp] theorem pdNote_script (b : Byte) (s : State) : (pdNote b s).script = s.script := rfl
@[simp] theorem pdNote_lastRead (b : Byte) (s : State) : (pdNote b s).lastRead = s.lastRead := rfl
@[simp] theorem pdNote_readTurn (b : Byte) (s : State) : (pdNote b s).readTurn = s.readTurn := rfl
@[simp] theorem pdNote_pfOp (b : Byte) (s : State) : (pdNote b s).pfOp = s.pfOp := rfl
@[simp] theorem pdNote_meas (b : Byte) (s : State) : (pdNote b s).meas = s.meas := rfl

@[simp] theorem resyncDone_acc (s : State) : (resyncDone s).acc = s.acc := rfl
@[simp] theorem resyncDone_csaLast (s : State) : (resyncDone s).csaLast = s.csaLast := rfl
@[simp] theorem resyncDone_csaHave (s : State) : (resyncDone s).csaHave = s.csaHave := rfl
@[simp] theorem resyncDone_pfPhase (s : State) : (resyncDone s).pfPhase = s.pfPhase := rfl
@[simp] theorem resyncDone_encCode (s : State) : (resyncDone s).encCode = s.encCode := rfl
@[simp] theorem resyncDone_encN (s : State) : (resyncDone s).encN = s.encN := rfl
@[simp] theorem resyncDone_encI (s : State) : (resyncDone s).encI = s.encI := rfl
@[simp] theorem resyncDone_argbuf (s : State) : (resyncDone s).argbuf = s.argbuf := rfl
@[simp] theorem resyncDone_decE (s : State) : (resyncDone s).decE = s.decE := rfl
@[simp] theorem resyncDone_decHasLen (s : State) : (resyncDone s).decHasLen = s.decHasLen := rfl
@[simp] theorem resyncDone_decHasCsum (s : State) : (resyncDone s).decHasCsum = s.decHasCsum := rfl
@[simp] theorem resyncDone_decCnt (s : State) : (resyncDone s).decCnt = s.decCnt := rfl
@[simp] theorem resyncDone_decOver (s : State) : (resyncDone s).decOver = s.decOver := rfl
@[simp] theorem resyncDone_decLen (s : State) : (resyncDone s).decLen = s.decLen := rfl
@[simp] theorem resyncDone_rbuf (s : State) : (resyncDone s).rbuf = s.rbuf := rfl
@[simp] theorem resyncDone_rbufValid (s : State) : (resyncDone s).rbufValid = s.rbufValid := rfl
@[simp] theorem resyncDone_pfResult (s : State) : (resyncDone s).pfResult = s.pfResult := rfl
@[simp] theorem resyncDone_pfFlag (s : State) : (resyncDone s).pfFlag = s.pfFlag := rfl
@[simp] theorem resyncDone_rsPhase (s : State) : (resyncDone s).rsPhase = .idle := rfl
@[simp] theorem resyncDone_rsE (s : State) : (resyncDone s).rsE = s.rsE := rfl
@[simp] theorem resyncDone_rsCnt (s : State) : (resyncDone s).rsCnt = s.rsCnt := rfl
@[simp] theorem resyncDone_pdSeen1 (s : State) : (resyncDone s).pdSeen1 = s.pdSeen1 := rfl
@[simp] theorem resyncDone_fbuf (s : State) : (resyncDone s).fbuf = s.fbuf := rfl
@[simp] theorem resyncDone_fbufValid (s : State) : (resyncDone s).fbufValid = true := rfl
@[simp] theorem resyncDone_rsResult (s : State) : (resyncDone s).rsResult = .ok := rfl
@[simp] theorem resyncDone_rx (s : State) : (resyncDone s).rx = s.rx := rfl
@[simp] theorem resyncDone_rxTail (s : State) : (resyncDone s).rxTail = s.rxTail := rfl
@[simp] theorem resyncDone_rxTurn (s : State) : (resyncDone s).rxTurn = s.rxTurn := rfl
@[simp] theorem resyncDone_tx (s : State) : (resyncDone s).tx = s.tx := rfl
@[simp] theorem resyncDone_txReady (s : State) : (resyncDone s).txReady = s.txReady := rfl
@[simp] theorem resyncDone_inp (s : State) : (resyncDone s).inp = s.inp := rfl
@[simp] theorem resyncDone_script (s : State) : (resyncDone s).script = s.script := rfl
@[simp] theorem resyncDone_lastRead (s : State) : (resyncDone s).lastRead = s.lastRead := rfl
@[simp] theorem resyncDone_readTurn (s : State) : (resyncDone s).readTurn = s.readTurn := rfl
@[simp] theorem resyncDone_pfOp (s : State) : (resyncDone s).pfOp = s.pfOp := rfl
@[simp] theorem resyncDone_meas (s : State) : (resyncDone s).meas = s.meas := rfl

@[simp] theorem csumComputeStart_acc (s : State) : (csumComputeStart s).acc = 0 := rfl
@[simp] theorem csumComputeStart_csaLast (s : State) : (csumComputeStart s).csaLast = 0 := rfl
@[simp] theorem csumComputeStart_csaHave (s : State) : (csumComputeStart s).csaHave = false := rfl
@[simp] theorem csumComputeStart_pfPhase (s : State) : (csumComputeStart s).pfPhase = .cRun := rfl
@[simp] theorem csumComputeStart_encCode (s : State) : (csumComputeStart s).encCode = s.encCode := rfl
@[simp] theorem csumComputeStart_encN (s : State) : (csumComputeStart s).encN = s.encN := rfl
@[simp] theorem csumComputeStart_encI (s : State) : (csumComputeStart s).encI = s.encI := rfl
@[simp] theorem csumComputeStart_argbuf (s : State) : (csumComputeStart s).argbuf = s.argbuf := rfl
@[simp] theorem csumComputeStart_decE (s : State) : (csumComputeStart s).decE = s.decE := rfl
@[simp] theorem csumComputeStart_decHasLen (s : State) : (csumComputeStart s).decHasLen = s.decHasLen := rfl
@[simp] theorem csumComputeStart_decHasCsum (s : State) : (csumComputeStart s).decHasCsum = s.decHasCsum := rfl
@[simp] theorem csumComputeStart_decCnt (s : State) : (csumComputeStart s).decCnt = s.decCnt := rfl
@[simp] theorem csumComputeStart_decOver (s : State) : (csumComputeStart s).decOver = s.decOver := rfl
@[simp] theorem csumComputeStart_decLen (s : State) : (csumComputeStart s).decLen = s.decLen := rfl
@[simp] theorem csumComputeStart_rbuf (s : State) : (csumComputeStart s).rbuf = s.rbuf := rfl
@[simp] theorem csumComputeStart_rbufValid (s : State) : (csumComputeStart s).rbufValid = s.rbufValid := rfl
@[simp] theorem csumComputeStart_pfResult (s : State) : (csumComputeStart s).pfResult = .none := rfl
@[simp] theorem csumComputeStart_pfFlag (s : State) : (csumComputeStart s).pfFlag = s.pfFlag := rfl
@[simp] theorem csumComputeStart_rsPhase (s : State) : (csumComputeStart s).rsPhase = s.rsPhase := rfl
@[simp] theorem csumComputeStart_rsE (s : State) : (csumComputeStart s).rsE = s.rsE := rfl
@[simp] theorem csumComputeStart_rsCnt (s : State) : (csumComputeStart s).rsCnt = s.rsCnt := rfl
@[simp] theorem csumComputeStart_pdSeen1 (s : State) : (csumComputeStart s).pdSeen1 = s.pdSeen1 := rfl
@[simp] theorem csumComputeStart_fbuf (s : State) : (csumComputeStart s).fbuf = s.fbuf := rfl
@[simp] theorem csumComputeStart_fbufValid (s : State) : (csumComputeStart s).fbufValid = s.fbufValid := rfl
@[simp] theorem csumComputeStart_rsResult (s : State) : (csumComputeStart s).rsResult = s.rsResult := rfl
@[simp] theorem csumComputeStart_rx (s : State) : (csumComputeStart s).rx = s.rx := rfl
@[simp] theorem csumComputeStart_rxTail (s : State) : (csumComputeStart s).rxTail = s.rxTail := rfl
@[simp] theorem csumComputeStart_rxTurn (s : State) : (csumComputeStart s).rxTurn = s.rxTurn := rfl
@[simp] theorem csumComputeStart_tx (s : State) : (csumComputeStart s).tx = s.tx := rfl
@[simp] theorem csumComputeStart_txReady (s : State) : (csumComputeStart s).txReady = s.txReady := rfl
@[simp] theorem csumComputeStart_inp (s : State) : (csumComputeStart s).inp = s.inp := rfl
@[simp] theorem csumComputeStart_script (s : State) : (csumComputeStart s).script = s.script := rfl
@[simp] theorem csumComputeStart_lastRead (s : State) : (csumComputeStart s).lastRead = s.lastRead := rfl
@[simp] theorem csumComputeStart_readTurn (s : State) : (csumComputeStart s).readTurn = s.readTurn := rfl
@[simp] theorem csumComputeStart_pfOp (s : State) : (csumComputeStart s).pfOp = some .csumCompute := rfl
@[simp] theorem csumComputeStart_meas (s : State) : (csumComputeStart s).meas = s.meas := rfl

@[simp] theorem csumVerifyStart_acc (s : State) : (csumVerifyStart s).acc = 0 := rfl
@[simp] theorem csumVerifyStart_csaLast (s : State) : (csumVerifyStart s).csaLast = 0 := rfl
@[simp] theorem csumVerifyStart_csaHave (s : State) : (csumVerifyStart s).csaHave = false := rfl
@[simp] theorem csumVerifyStart_pfPhase (s : State) : (csumVerifyStart s).pfPhase = .vRun := rfl
@[simp] theorem csumVerifyStart_encCode (s : State) : (csumVerifyStart s).encCode = s.encCode := rfl
@[simp] theorem csumVerifyStart_encN (s : State) : (csumVerifyStart s).encN = s.encN := rfl
@[simp] theorem csumVerifyStart_encI (s : State) : (csumVerifyStart s).encI = s.encI := rfl
@[simp] theorem csumVerifyStart_argbuf (s : State) : (csumVerifyStart s).argbuf = s.argbuf := rfl
@[simp] theorem csumVerifyStart_decE (s : State) : (csumVerifyStart s).decE = s.decE := rfl
@[simp] theorem csumVerifyStart_decHasLen (s : State) : (csumVerifyStart s).decHasLen = s.decHasLen := rfl
@[simp] theorem csumVerifyStart_decHasCsum (s : State) : (csumVerifyStart s).decHasCsum = s.decHasCsum := rfl
@[simp] theorem csumVerifyStart_decCnt (s : State) : (csumVerifyStart s).decCnt = s.decCnt := rfl
@[simp] theorem csumVerifyStart_decOver (s : State) : (csumVerifyStart s).decOver = s.decOver := rfl
@[simp] theorem csumVerifyStart_decLen (s : State) : (csumVerifyStart s).decLen = s.decLen := rfl
@[simp] theorem csumVerifyStart_rbuf (s : State) : (csumVerifyStart s).rbuf = s.rbuf := rfl
@[simp] theorem csumVerifyStart_rbufValid (s : State) : (csumVerifyStart s).rbufValid = s.rbufValid := rfl
@[simp] theorem csumVerifyStart_pfResult (s : State) : (csumVerifyStart s).pfResult = .none := rfl
@[simp] theorem csumVerifyStart_pfFlag (s : State) : (csumVerifyStart s).pfFlag = s.pfFlag := rfl
@[simp] theorem csumVerifyStart_rsPhase (s : State) : (csumVerifyStart s).rsPhase = s.rsPhase := rfl
@[simp] theorem csumVerifyStart_rsE (s : State) : (csumVerifyStart s).rsE = s.rsE := rfl
@[simp] theorem csumVerifyStart_rsCnt (s : State) : (csumVerifyStart s).rsCnt = s.rsCnt := rfl
@[simp] theorem csumVerifyStart_pdSeen1 (s : State) : (csumVerifyStart s).pdSeen1 = s.pdSeen1 := rfl
@[simp] theorem csumVerifyStart_fbuf (s : State) : (csumVerifyStart s).fbuf = s.fbuf := rfl
@[simp] theorem csumVerifyStart_fbufValid (s : State) : (csumVerifyStart s).fbufValid = s.fbufValid := rfl
@[simp] theorem csumVerifyStart_rsResult (s : State) : (csumVerifyStart s).rsResult = s.rsResult := rfl
@[simp] theorem csumVerifyStart_rx (s : State) : (csumVerifyStart s).rx = s.rx := rfl
@[simp] theorem csumVerifyStart_rxTail (s : State) : (csumVerifyStart s).rxTail = s.rxTail := rfl
@[simp] theorem csumVerifyStart_rxTurn (s : State) : (csumVerifyStart s).rxTurn = s.rxTurn := rfl
@[simp] theorem csumVerifyStart_tx (s : State) : (csumVerifyStart s).tx = s.tx := rfl
@[simp] theorem csumVerifyStart_txReady (s : State) : (csumVerifyStart s).txReady = s.txReady := rfl
@[simp] theorem csumVerifyStart_inp (s : State) : (csumVerifyStart s).inp = s.inp := rfl
@[simp] theorem csumVerifyStart_script (s : State) : (csumVerifyStart s).script = s.script := rfl
@[simp] theorem csumVerifyStart_lastRead (s : State) : (csumVerifyStart s).lastRead = s.lastRead := rfl
@[simp] theorem csumVerifyStart_readTurn (s : State) : (csumVerifyStart s).readTurn = s.readTurn := rfl
@[simp] theorem csumVerifyStart_pfOp (s : State) : (csumVerifyStart s).pfOp = some .csumVerify := rfl
@[simp] theorem csumVerifyStart_meas (s : State) : (csumVerifyStart s).meas = s.meas := rfl

@[simp] theorem encodeStart_acc (code : Byte) (args : List Byte) (s : State) : (encodeStart code args s).acc = 0 := rfl
@[simp] theorem encodeStart_csaLast (code : Byte) (args : List Byte) (s : State) : (encodeStart code args s).csaLast = 0 := rfl
@[simp] theorem encodeStart_csaHave (code : Byte) (args : List Byte) (s : State) : (encodeStart code args s).csaHave = false := rfl
@[simp] theorem encodeStart_pfPhase (code : Byte) (args : List Byte) (s : State) : (encodeStart code args s).pfPhase = .eHdr := rfl
@[simp] theorem encodeStart_encCode (code : Byte) (args : List Byte) (s : State) : (encodeStart code args s).encCode = code := rfl
@[simp] theorem encodeStart_encN (code : Byte) (args : List Byte) (s : State) : (encodeStart code args s).encN = BitVec.ofNat 8 args.length := rfl
@[simp] theorem encodeStart_encI (code : Byte) (args : List Byte) (s : State) : (encodeStart code args s).encI = 0 := rfl
@[simp] theorem encodeStart_argbuf (code : Byte) (args : List Byte) (s : State) : (encodeStart code args s).argbuf = Memory.store s.argbuf 0 args := rfl
@[simp] theorem encodeStart_decE (code : Byte) (args : List Byte) (s : State) : (encodeStart code args s).decE = s.decE := rfl
@[simp] theorem encodeStart_decHasLen (code : Byte) (args : List Byte) (s : State) : (encodeStart code args s).decHasLen = s.decHasLen := rfl
@[simp] theorem encodeStart_decHasCsum (code : Byte) (args : List Byte) (s : State) : (encodeStart code args s).decHasCsum = s.decHasCsum := rfl
@[simp] theorem encodeStart_decCnt (code : Byte) (args : List Byte) (s : State) : (encodeStart code args s).decCnt = s.decCnt := rfl
@[simp] theorem encodeStart_decOver (code : Byte) (args : List Byte) (s : State) : (encodeStart code args s).decOver = s.decOver := rfl
@[simp] theorem encodeStart_decLen (code : Byte) (args : List Byte) (s : State) : (encodeStart code args s).decLen = s.decLen := rfl
@[simp] theorem encodeStart_rbuf (code : Byte) (args : List Byte) (s : State) : (encodeStart code args s).rbuf = s.rbuf := rfl
@[simp] theorem encodeStart_rbufValid (code : Byte) (args : List Byte) (s : State) : (encodeStart code args s).rbufValid = s.rbufValid := rfl
@[simp] theorem encodeStart_pfResult (code : Byte) (args : List Byte) (s : State) : (encodeStart code args s).pfResult = .none := rfl
@[simp] theorem encodeStart_pfFlag (code : Byte) (args : List Byte) (s : State) : (encodeStart code args s).pfFlag = s.pfFlag := rfl
@[simp] theorem encodeStart_rsPhase (code : Byte) (args : List Byte) (s : State) : (encodeStart code args s).rsPhase = s.rsPhase := rfl
@[simp] theorem encodeStart_rsE (code : Byte) (args : List Byte) (s : State) : (encodeStart code args s).rsE = s.rsE := rfl
@[simp] theorem encodeStart_rsCnt (code : Byte) (args : List Byte) (s : State) : (encodeStart code args s).rsCnt = s.rsCnt := rfl
@[simp] theorem encodeStart_pdSeen1 (code : Byte) (args : List Byte) (s : State) : (encodeStart code args s).pdSeen1 = s.pdSeen1 := rfl
@[simp] theorem encodeStart_fbuf (code : Byte) (args : List Byte) (s : State) : (encodeStart code args s).fbuf = s.fbuf := rfl
@[simp] theorem encodeStart_fbufValid (code : Byte) (args : List Byte) (s : State) : (encodeStart code args s).fbufValid = s.fbufValid := rfl
@[simp] theorem encodeStart_rsResult (code : Byte) (args : List Byte) (s : State) : (encodeStart code args s).rsResult = s.rsResult := rfl
@[simp] theorem encodeStart_rx (code : Byte) (args : List Byte) (s : State) : (encodeStart code args s).rx = s.rx := rfl
@[simp] theorem encodeStart_rxTail (code : Byte) (args : List Byte) (s : State) : (encodeStart code args s).rxTail = s.rxTail := rfl
@[simp] theorem encodeStart_rxTurn (code : Byte) (args : List Byte) (s : State) : (encodeStart code args s).rxTurn = s.rxTurn := rfl
@[simp] theorem encodeStart_tx (code : Byte) (args : List Byte) (s : State) : (encodeStart code args s).tx = s.tx := rfl
@[simp] theorem encodeStart_txReady (code : Byte) (args : List Byte) (s : State) : (encodeStart code args s).txReady = s.txReady := rfl
@[simp] theorem encodeStart_inp (code : Byte) (args : List Byte) (s : State) : (encodeStart code args s).inp = s.inp := rfl
@[simp] theorem encodeStart_script (code : Byte) (args : List Byte) (s : State) : (encodeStart code args s).script = s.script := rfl
@[simp] theorem encodeStart_lastRead (code : Byte) (args : List Byte) (s : State) : (encodeStart code args s).lastRead = s.lastRead := rfl
@[simp] theorem encodeStart_readTurn (code : Byte) (args : List Byte) (s : State) : (encodeStart code args s).readTurn = s.readTurn := rfl
@[simp] theorem encodeStart_pfOp (code : Byte) (args : List Byte) (s : State) : (encodeStart code args s).pfOp = some .encode := rfl
@[simp] theorem encodeStart_meas (code : Byte) (args : List Byte) (s : State) : (encodeStart code args s).meas = s.meas := rfl

@[simp] theorem decodeStart_acc (e : Byte) (hl hc : Bool) (s : State) : (decodeStart e hl hc s).acc = 0 := rfl
@[simp] theorem decodeStart_csaLast (e : Byte) (hl hc : Bool) (s : State) : (decodeStart e hl hc s).csaLast = 0 := rfl
@[simp] theorem decodeStart_csaHave (e : Byte) (hl hc : Bool) (s : State) : (decodeStart e hl hc s).csaHave = false := rfl
@[simp] theorem decodeStart_pfPhase (e : Byte) (hl hc : Bool) (s : State) : (decodeStart e hl hc s).pfPhase = .dRun := rfl
@[simp] theorem decodeStart_encCode (e : Byte) (hl hc : Bool) (s : State) : (decodeStart e hl hc s).encCode = s.encCode := rfl
@[simp] theorem decodeStart_encN (e : Byte) (hl hc : Bool) (s : State) : (decodeStart e hl hc s).encN = s.encN := rfl
@[simp] theorem decodeStart_encI (e : Byte) (hl hc : Bool) (s : State) : (decodeStart e hl hc s).encI = s.encI := rfl
@[simp] theorem decodeStart_argbuf (e : Byte) (hl hc : Bool) (s : State) : (decodeStart e hl hc s).argbuf = s.argbuf := rfl
@[simp] theorem decodeStart_decE (e : Byte) (hl hc : Bool) (s : State) : (decodeStart e hl hc s).decE = e := rfl
@[simp] theorem decodeStart_decHasLen (e : Byte) (hl hc : Bool) (s : State) : (decodeStart e hl hc s).decHasLen = hl := rfl
@[simp] theorem decodeStart_decHasCsum (e : Byte) (hl hc : Bool) (s : State) : (decodeStart e hl hc s).decHasCsum = hc := rfl
@[simp] theorem decodeStart_decCnt (e : Byte) (hl hc : Bool) (s : State) : (decodeStart e hl hc s).decCnt = 0 := rfl
@[simp] theorem decodeStart_decOver (e : Byte) (hl hc : Bool) (s : State) : (decodeStart e hl hc s).decOver = false := rfl
@[simp] theorem decodeStart_decLen (e : Byte) (hl hc : Bool) (s : State) : (decodeStart e hl hc s).decLen = 0 := rfl
@[simp] theorem decodeStart_rbuf (e : Byte) (hl hc : Bool) (s : State) : (decodeStart e hl hc s).rbuf = s.rbuf := rfl
@[simp] theorem decodeStart_rbufValid (e : Byte) (hl hc : Bool) (s : State) : (decodeStart e hl hc s).rbufValid = false := rfl
@[simp] theorem decodeStart_pfResult (e : Byte) (hl hc : Bool) (s : State) : (decodeStart e hl hc s).pfResult = .none := rfl
@[simp] theorem decodeStart_pfFlag (e : Byte) (hl hc : Bool) (s : State) : (decodeStart e hl hc s).pfFlag = s.pfFlag := rfl
@[simp] theorem decodeStart_rsPhase (e : Byte) (hl hc : Bool) (s : State) : (decodeStart e hl hc s).rsPhase = s.rsPhase := rfl
@[simp] theorem decodeStart_rsE (e : Byte) (hl hc : Bool) (s : State) : (decodeStart e hl hc s).rsE = s.rsE := rfl
@[simp] theorem decodeStart_rsCnt (e : Byte) (hl hc : Bool) (s : State) : (decodeStart e hl hc s).rsCnt = s.rsCnt := rfl
@[simp] theorem decodeStart_pdSeen1 (e : Byte) (hl hc : Bool) (s : State) : (decodeStart e hl hc s).pdSeen1 = s.pdSeen1 := rfl
@[simp] theorem decodeStart_fbuf (e : Byte) (hl hc : Bool) (s : State) : (decodeStart e hl hc s).fbuf = s.fbuf := rfl
@[simp] theorem decodeStart_fbufValid (e : Byte) (hl hc : Bool) (s : State) : (decodeStart e hl hc s).fbufValid = s.fbufValid := rfl
@[simp] theorem decodeStart_rsResult (e : Byte) (hl hc : Bool) (s : State) : (decodeStart e hl hc s).rsResult = s.rsResult := rfl
@[simp] theorem decodeStart_rx (e : Byte) (hl hc : Bool) (s : State) : (decodeStart e hl hc s).rx = s.rx := rfl
@[simp] theorem decodeStart_rxTail (e : Byte) (hl hc : Bool) (s : State) : (decodeStart e hl hc s).rxTail = s.rxTail := rfl
@[simp] theorem decodeStart_rxTurn (e : Byte) (hl hc : Bool) (s : State) : (decodeStart e hl hc s).rxTurn = s.rxTurn := rfl
@[simp] theorem decodeStart_tx (e : Byte) (hl hc : Bool) (s : State) : (decodeStart e hl hc s).tx = s.tx := rfl
@[simp] theorem decodeStart_txReady (e : Byte) (hl hc : Bool) (s : State) : (decodeStart e hl hc s).txReady = s.txReady := rfl
@[simp] theorem decodeStart_inp (e : Byte) (hl hc : Bool) (s : State) : (decodeStart e hl hc s).inp = s.inp := rfl
@[simp] theorem decodeStart_script (e : Byte) (hl hc : Bool) (s : State) : (decodeStart e hl hc s).script = s.script := rfl
@[simp] theorem decodeStart_lastRead (e : Byte) (hl hc : Bool) (s : State) : (decodeStart e hl hc s).lastRead = s.lastRead := rfl
@[simp] theorem decodeStart_readTurn (e : Byte) (hl hc : Bool) (s : State) : (decodeStart e hl hc s).readTurn = s.readTurn := rfl
@[simp] theorem decodeStart_pfOp (e : Byte) (hl hc : Bool) (s : State) : (decodeStart e hl hc s).pfOp = some .decode := rfl
@[simp] theorem decodeStart_meas (e : Byte) (hl hc : Bool) (s : State) : (decodeStart e hl hc s).meas = s.meas := rfl

@[simp] theorem resyncStart_acc (e : Byte) (s : State) : (resyncStart e s).acc = s.acc := rfl
@[simp] theorem resyncStart_csaLast (e : Byte) (s : State) : (resyncStart e s).csaLast = s.csaLast := rfl
@[simp] theorem resyncStart_csaHave (e : Byte) (s : State) : (resyncStart e s).csaHave = s.csaHave := rfl
@[simp] theorem resyncStart_pfPhase (e : Byte) (s : State) : (resyncStart e s).pfPhase = s.pfPhase := rfl
@[simp] theorem resyncStart_encCode (e : Byte) (s : State) : (resyncStart e s).encCode = s.encCode := rfl
@[simp] theorem resyncStart_encN (e : Byte) (s : State) : (resyncStart e s).encN = s.encN := rfl
@[simp] theorem resyncStart_encI (e : Byte) (s : State) : (resyncStart e s).encI = s.encI := rfl
@[simp] theorem resyncStart_argbuf (e : Byte) (s : State) : (resyncStart e s).argbuf = s.argbuf := rfl
@[simp] theorem resyncStart_decE (e : Byte) (s : State) : (resyncStart e s).decE = s.decE := rfl
@[simp] theorem resyncStart_decHasLen (e : Byte) (s : State) : (resyncStart e s).decHasLen = s.decHasLen := rfl
@[simp] theorem resyncStart_decHasCsum (e : Byte) (s : State) : (resyncStart e s).decHasCsum = s.decHasCsum := rfl
@[simp] theorem resyncStart_decCnt (e : Byte) (s : State) : (resyncStart e s).decCnt = s.decCnt := rfl
@[simp] theorem resyncStart_decOver (e : Byte) (s : State) : (resyncStart e s).decOver = s.decOver := rfl
@[simp] theorem resyncStart_decLen (e : Byte) (s : State) : (resyncStart e s).decLen = s.decLen := rfl
@[simp] theorem resyncStart_rbuf (e : Byte) (s : State) : (resyncStart e s).rbuf = s.rbuf := rfl
@[simp] theorem resyncStart_rbufValid (e : Byte) (s : State) : (resyncStart e s).rbufValid = s.rbufValid := rfl
@[simp] theorem resyncStart_pfResult (e : Byte) (s : State) : (resyncStart e s).pfResult = s.pfResult := rfl
@[simp] theorem resyncStart_pfFlag (e : Byte) (s : State) : (resyncStart e s).pfFlag = s.pfFlag := rfl
@[simp] theorem resyncStart_rsPhase (e : Byte) (s : State) : (resyncStart e s).rsPhase = .sHunt := rfl
@[simp] theorem resyncStart_rsE (e : Byte) (s : State) : (resyncStart e s).rsE = e := rfl
@[simp] theorem resyncStart_rsCnt (e : Byte) (s : State) : (resyncStart e s).rsCnt = 0 := rfl
@[simp] theorem resyncStart_pdSeen1 (e : Byte) (s : State) : (resyncStart e s).pdSeen1 = false := rfl
@[simp] theorem resyncStart_fbuf (e : Byte) (s : State) : (resyncStart e s).fbuf = s.fbuf := rfl
@[simp] theorem resyncStart_fbufValid (e : Byte) (s : State) : (resyncStart e s).fbufValid = false := rfl
@[simp] theorem resyncStart_rsResult (e : Byte) (s : State) : (resyncStart e s).rsResult = .none := rfl
@[simp] theorem resyncStart_rx (e : Byte) (s : State) : (resyncStart e s).rx = s.rx := rfl
@[simp] theorem resyncStart_rxTail (e : Byte) (s : State) : (resyncStart e s).rxTail = s.rxTail := rfl
@[simp] theorem resyncStart_rxTurn (e : Byte) (s : State) : (resyncStart e s).rxTurn = s.rxTurn := rfl
@[simp] theorem resyncStart_tx (e : Byte) (s : State) : (resyncStart e s).tx = s.tx := rfl
@[simp] theorem resyncStart_txReady (e : Byte) (s : State) : (resyncStart e s).txReady = s.txReady := rfl
@[simp] theorem resyncStart_inp (e : Byte) (s : State) : (resyncStart e s).inp = s.inp := rfl
@[simp] theorem resyncStart_script (e : Byte) (s : State) : (resyncStart e s).script = s.script := rfl
@[simp] theorem resyncStart_lastRead (e : Byte) (s : State) : (resyncStart e s).lastRead = s.lastRead := rfl
@[simp] theorem resyncStart_readTurn (e : Byte) (s : State) : (resyncStart e s).readTurn = s.readTurn := rfl
@[simp] theorem resyncStart_pfOp (e : Byte) (s : State) : (resyncStart e s).pfOp = s.pfOp := rfl
@[simp] theorem resyncStart_meas (e : Byte) (s : State) : (resyncStart e s).meas = s.meas := rfl

@[simp] theorem readPort_acc (p : ReadPort) (s : State) : (readPort p s).acc = s.acc := rfl
@[simp] theorem readPort_csaLast (p : ReadPort) (s : State) : (readPort p s).csaLast = s.csaLast := rfl
@[simp] theorem readPort_csaHave (p : ReadPort) (s : State) : (readPort p s).csaHave = s.csaHave := rfl
@[simp] theorem readPort_pfPhase (p : ReadPort) (s : State) : (readPort p s).pfPhase = s.pfPhase := rfl
@[simp] theorem readPort_encCode (p : ReadPort) (s : State) : (readPort p s).encCode = s.encCode := rfl
@[simp] theorem readPort_encN (p : ReadPort) (s : State) : (readPort p s).encN = s.encN := rfl
@[simp] theorem readPort_encI (p : ReadPort) (s : State) : (readPort p s).encI = s.encI := rfl
@[simp] theorem readPort_argbuf (p : ReadPort) (s : State) : (readPort p s).argbuf = s.argbuf := rfl
@[simp] theorem readPort_decE (p : ReadPort) (s : State) : (readPort p s).decE = s.decE := rfl
@[simp] theorem readPort_decHasLen (p : ReadPort) (s : State) : (readPort p s).decHasLen = s.decHasLen := rfl
@[simp] theorem readPort_decHasCsum (p : ReadPort) (s : State) : (readPort p s).decHasCsum = s.decHasCsum := rfl
@[simp] theorem readPort_decCnt (p : ReadPort) (s : State) : (readPort p s).decCnt = s.decCnt := rfl
@[simp] theorem readPort_decOver (p : ReadPort) (s : State) : (readPort p s).decOver = s.decOver := rfl
@[simp] theorem readPort_decLen (p : ReadPort) (s : State) : (readPort p s).decLen = s.decLen := rfl
@[simp] theorem readPort_rbuf (p : ReadPort) (s : State) : (readPort p s).rbuf = s.rbuf := rfl
@[simp] theorem readPort_rbufValid (p : ReadPort) (s : State) : (readPort p s).rbufValid = s.rbufValid := rfl
@[simp] theorem readPort_pfResult (p : ReadPort) (s : State) : (readPort p s).pfResult = s.pfResult := rfl
@[simp] theorem readPort_pfFlag (p : ReadPort) (s : State) : (readPort p s).pfFlag = s.pfFlag := rfl
@[simp] theorem readPort_rsPhase (p : ReadPort) (s : State) : (readPort p s).rsPhase = s.rsPhase := rfl
@[simp] theorem readPort_rsE (p : ReadPort) (s : State) : (readPort p s).rsE = s.rsE := rfl
@[simp] theorem readPort_rsCnt (p : ReadPort) (s : State) : (readPort p s).rsCnt = s.rsCnt := rfl
@[simp] theorem readPort_pdSeen1 (p : ReadPort) (s : State) : (readPort p s).pdSeen1 = s.pdSeen1 := rfl
@[simp] theorem readPort_fbuf (p : ReadPort) (s : State) : (readPort p s).fbuf = s.fbuf := rfl
@[simp] theorem readPort_fbufValid (p : ReadPort) (s : State) : (readPort p s).fbufValid = s.fbufValid := rfl
@[simp] theorem readPort_rsResult (p : ReadPort) (s : State) : (readPort p s).rsResult = s.rsResult := rfl
@[simp] theorem readPort_rx (p : ReadPort) (s : State) : (readPort p s).rx = s.rx := rfl
@[simp] theorem readPort_rxTail (p : ReadPort) (s : State) : (readPort p s).rxTail = s.rxTail := rfl
@[simp] theorem readPort_rxTurn (p : ReadPort) (s : State) : (readPort p s).rxTurn = s.rxTurn := rfl
@[simp] theorem readPort_tx (p : ReadPort) (s : State) : (readPort p s).tx = s.tx := rfl
@[simp] theorem readPort_txReady (p : ReadPort) (s : State) : (readPort p s).txReady = s.txReady := rfl
@[simp] theorem readPort_inp (p : ReadPort) (s : State) : (readPort p s).inp = s.inp := rfl
@[simp] theorem readPort_script (p : ReadPort) (s : State) : (readPort p s).script = s.script := rfl
@[simp] theorem readPort_lastRead (p : ReadPort) (s : State) : (readPort p s).lastRead = some (hostRead s p) := rfl
@[simp] theorem readPort_readTurn (p : ReadPort) (s : State) : (readPort p s).readTurn = s.readTurn + 1 := rfl
@[simp] theorem readPort_pfOp (p : ReadPort) (s : State) : (readPort p s).pfOp = s.pfOp := rfl
@[simp] theorem readPort_meas (p : ReadPort) (s : State) : (readPort p s).meas = s.meas := rfl

@[simp] theorem presentFrame_acc (s : State) : (presentFrame s).acc = s.acc := rfl
@[simp] theorem presentFrame_csaLast (s : State) : (presentFrame s).csaLast = s.csaLast := rfl
@[simp] theorem presentFrame_csaHave (s : State) : (presentFrame s).csaHave = s.csaHave := rfl
@[simp] theorem presentFrame_pfPhase (s : State) : (presentFrame s).pfPhase = s.pfPhase := rfl
@[simp] theorem presentFrame_encCode (s : State) : (presentFrame s).encCode = s.encCode := rfl
@[simp] theorem presentFrame_encN (s : State) : (presentFrame s).encN = s.encN := rfl
@[simp] theorem presentFrame_encI (s : State) : (presentFrame s).encI = s.encI := rfl
@[simp] theorem presentFrame_argbuf (s : State) : (presentFrame s).argbuf = s.argbuf := rfl
@[simp] theorem presentFrame_decE (s : State) : (presentFrame s).decE = s.decE := rfl
@[simp] theorem presentFrame_decHasLen (s : State) : (presentFrame s).decHasLen = s.decHasLen := rfl
@[simp] theorem presentFrame_decHasCsum (s : State) : (presentFrame s).decHasCsum = s.decHasCsum := rfl
@[simp] theorem presentFrame_decCnt (s : State) : (presentFrame s).decCnt = s.decCnt := rfl
@[simp] theorem presentFrame_decOver (s : State) : (presentFrame s).decOver = s.decOver := rfl
@[simp] theorem presentFrame_decLen (s : State) : (presentFrame s).decLen = s.decLen := rfl
@[simp] theorem presentFrame_rbuf (s : State) : (presentFrame s).rbuf = s.rbuf := rfl
@[simp] theorem presentFrame_rbufValid (s : State) : (presentFrame s).rbufValid = s.rbufValid := rfl
@[simp] theorem presentFrame_pfResult (s : State) : (presentFrame s).pfResult = s.pfResult := rfl
@[simp] theorem presentFrame_pfFlag (s : State) : (presentFrame s).pfFlag = s.pfFlag := rfl
@[simp] theorem presentFrame_rsPhase (s : State) : (presentFrame s).rsPhase = s.rsPhase := rfl
@[simp] theorem presentFrame_rsE (s : State) : (presentFrame s).rsE = s.rsE := rfl
@[simp] theorem presentFrame_rsCnt (s : State) : (presentFrame s).rsCnt = s.rsCnt := rfl
@[simp] theorem presentFrame_pdSeen1 (s : State) : (presentFrame s).pdSeen1 = s.pdSeen1 := rfl
@[simp] theorem presentFrame_fbuf (s : State) : (presentFrame s).fbuf = s.fbuf := rfl
@[simp] theorem presentFrame_fbufValid (s : State) : (presentFrame s).fbufValid = s.fbufValid := rfl
@[simp] theorem presentFrame_rsResult (s : State) : (presentFrame s).rsResult = s.rsResult := rfl
@[simp] theorem presentFrame_rx (s : State) : (presentFrame s).rx = s.rx := rfl
@[simp] theorem presentFrame_rxTail (s : State) : (presentFrame s).rxTail = s.rxTail := rfl
@[simp] theorem presentFrame_rxTurn (s : State) : (presentFrame s).rxTurn = s.rxTurn := rfl
@[simp] theorem presentFrame_tx (s : State) : (presentFrame s).tx = s.tx := rfl
@[simp] theorem presentFrame_txReady (s : State) : (presentFrame s).txReady = s.txReady := rfl
@[simp] theorem presentFrame_inp (s : State) : (presentFrame s).inp = s.inp ++ (shownFrame s).map .byte ++ [.endMark] := rfl
@[simp] theorem presentFrame_script (s : State) : (presentFrame s).script = s.script := rfl
@[simp] theorem presentFrame_lastRead (s : State) : (presentFrame s).lastRead = s.lastRead := rfl
@[simp] theorem presentFrame_readTurn (s : State) : (presentFrame s).readTurn = s.readTurn + s.rsE.toNat := rfl
@[simp] theorem presentFrame_pfOp (s : State) : (presentFrame s).pfOp = s.pfOp := rfl
@[simp] theorem presentFrame_meas (s : State) : (presentFrame s).meas = s.meas := rfl

end Sys2Proof.Machine
end

