-- ==== Sys2Proof/Laws/Ops.lean ====
section
/-! SUPPORT. For each shared operation and each phase, one lemma that says everything it can do. -/

namespace Sys2Proof.Machine

open Config

/-! ### Streams -/

theorem inPop_eq_none {s : State} : inPop s = none ↔ s.inp = [] := by
  unfold inPop
  cases s.inp <;> simp

theorem inPop_eq_some {s t : State} {x : InElem} :
    inPop s = some (x, t) ↔ ∃ rest, s.inp = x :: rest ∧ t = { s with inp := rest } := by
  unfold inPop
  cases s.inp with
  | nil => simp
  | cons y ys =>
    simp only [Option.some.injEq, Prod.mk.injEq, List.cons.injEq]
    constructor
    · rintro ⟨rfl, rfl⟩; exact ⟨ys, ⟨rfl, rfl⟩, rfl⟩
    · rintro ⟨rest, ⟨rfl, rfl⟩, rfl⟩; exact ⟨rfl, rfl⟩

theorem inPop_cons {s : State} {x : InElem} {rest : List InElem} (h : s.inp = x :: rest) :
    inPop s = some (x, { s with inp := rest }) := inPop_eq_some.2 ⟨rest, h, rfl⟩

@[simp] theorem inPop_nil {s : State} (h : s.inp = []) : inPop s = none := inPop_eq_none.2 h

/-- A pop gets the next answer of the list, or, behind the list, one of the tail. -/
theorem rxPop_cases (s : State) :
    (s.rx = [] ∧
        rxPop s = (s.rxTail.answer s.rxTurn, { s with rxTurn := s.rxTail.turnAfter s.rxTurn })) ∨
      ∃ a rest, s.rx = a :: rest ∧ rxPop s = (a, { s with rx := rest }) := by
  unfold rxPop
  cases h : s.rx with
  | nil => exact .inl ⟨rfl, rfl⟩
  | cons a rest => exact .inr ⟨a, rest, rfl, rfl⟩

@[simp] theorem rxPop_nil {s : State} (h : s.rx = []) :
    rxPop s = (s.rxTail.answer s.rxTurn, { s with rxTurn := s.rxTail.turnAfter s.rxTurn }) := by
  unfold rxPop; rw [h]

@[simp] theorem RxTail.answer_exhausted (n : Nat) : RxTail.exhausted.answer n = .exhausted := rfl

@[simp] theorem RxTail.turnAfter_exhausted (n : Nat) : RxTail.exhausted.turnAfter n = n := rfl

theorem RxTail.turnAfter_endless {x : RxTail} (h : x ≠ .exhausted) (n : Nat) : x.turnAfter n = n + 1 := by
  cases x with
  | exhausted => exact absurd rfl h
  | cycle _ _ => rfl
  | oracle => rfl

/-- On a channel that ends, a pop behind the list is answered `Exhausted` and changes nothing. -/
theorem rxPop_ended {s : State} (h : s.rx = []) (ht : s.rxTail = .exhausted) : rxPop s = (.exhausted, s) := by
  have hn : s.rxTail.turnAfter s.rxTurn = s.rxTurn := by rw [ht]; rfl
  rw [rxPop_nil h, hn]
  exact Prod.ext (by show s.rxTail.answer s.rxTurn = _; rw [ht]; rfl) rfl

theorem rxPop_cons {s : State} {a : RxAnswer} {rest : List RxAnswer} (h : s.rx = a :: rest) :
    rxPop s = (a, { s with rx := rest }) := by
  unfold rxPop; rw [h]

/-- The frame of a pop: the list and the turn. -/
theorem rxPop_frame (s : State) : (rxPop s).2 = { s with rx := (rxPop s).2.rx, rxTurn := (rxPop s).2.rxTurn } := by
  rcases rxPop_cases s with ⟨h, e⟩ | ⟨a, rest, h, e⟩ <;> rw [e]

/-- The frame of a direct read: the list and the turn. -/
theorem takeRx_frame (n : Nat) (s : State) :
    (takeRx n s).2 = { s with rx := (takeRx n s).2.rx, rxTurn := (takeRx n s).2.rxTurn } := by
  induction n generalizing s with
  | zero => rfl
  | succ n ih =>
    have hp := rxPop_frame s
    unfold takeRx
    rcases h : rxPop s with ⟨_ | _, t⟩ <;> rw [h] at hp
    · show (takeRx n t).2 = { s with rx := (takeRx n t).2.rx, rxTurn := (takeRx n t).2.rxTurn }
      rw [ih t]
      dsimp only at hp
      rw [hp]
    · exact hp

/-- A direct read of as many bytes as the list begins with. -/
theorem takeRx_bytes (bs : List Byte) (rest : List RxAnswer) (s : State) (h : s.rx = bs.map .byte ++ rest) :
    takeRx bs.length s = (bs, { s with rx := rest }) := by
  induction bs generalizing s with
  | nil =>
    have h' : s.rx = rest := h
    simp only [List.length_nil, takeRx, ← h']
  | cons b bs ih =>
    have hp : rxPop s = (.byte b, { s with rx := bs.map .byte ++ rest }) := rxPop_cons h
    rw [List.length_cons, takeRx, hp]
    dsimp only
    rw [ih _ rfl]

@[simp] theorem txPush_ready {s : State} (b : Byte) (h : s.txReady = true) :
    txPush b s = some { s with tx := s.tx ++ [b] } := by simp [txPush, h]

@[simp] theorem txPush_stalled {s : State} (b : Byte) (h : s.txReady = false) : txPush b s = none := by
  simp [txPush, h]

/-! ### Starts -/

@[simp] theorem pfBusy_eq_false {s : State} : s.pfBusy = false ↔ s.pfPhase = .idle := by
  simp [State.pfBusy]

@[simp] theorem pfBusy_eq_true {s : State} : s.pfBusy = true ↔ s.pfPhase ≠ .idle := by
  simp [State.pfBusy]

@[simp] theorem rsBusy_eq_false {s : State} : s.rsBusy = false ↔ s.rsPhase = .idle := by
  simp [State.rsBusy]

@[simp] theorem rsBusy_eq_true {s : State} : s.rsBusy = true ↔ s.rsPhase ≠ .idle := by
  simp [State.rsBusy]

/-- What an accepted, ignored or overlapping start of packet_framer answers. -/
theorem startPf_cases (s accepted : State) :
    (s.pfPhase ≠ .idle ∧ startPf s accepted = .next s) ∨
      (s.pfPhase = .idle ∧ s.rsPhase ≠ .idle ∧ startPf s accepted = .refused .overlap) ∨
      (s.pfPhase = .idle ∧ s.rsPhase = .idle ∧ startPf s accepted = .next accepted) := by
  unfold startPf
  by_cases h1 : s.pfPhase = .idle <;> by_cases h2 : s.rsPhase = .idle <;> simp [h1, h2]

/-- If a start of packet_framer answers a next state, it is the old state or the accepted one. -/
theorem startPf_next {s accepted t : State} (h : startPf s accepted = .next t) :
    (s.pfPhase ≠ .idle ∧ t = s) ∨ (s.pfPhase = .idle ∧ s.rsPhase = .idle ∧ t = accepted) := by
  rcases startPf_cases s accepted with ⟨hp, e⟩ | ⟨hp, hr, e⟩ | ⟨hp, hr, e⟩ <;> rw [e] at h
  · exact .inl ⟨hp, (Host.Outcome.next.inj h).symm⟩
  · exact absurd h (by simp)
  · exact .inr ⟨hp, hr, (Host.Outcome.next.inj h).symm⟩

/-- What an accepted, ignored or overlapping start of uart_resync_matcher answers. -/
theorem startRs_cases (s accepted : State) :
    (s.rsPhase ≠ .idle ∧ startRs s accepted = .next s) ∨
      (s.rsPhase = .idle ∧ s.pfPhase ≠ .idle ∧ startRs s accepted = .refused .overlap) ∨
      (s.rsPhase = .idle ∧ s.pfPhase = .idle ∧ startRs s accepted = .next accepted) := by
  unfold startRs
  by_cases h1 : s.rsPhase = .idle <;> by_cases h2 : s.pfPhase = .idle <;> simp [h1, h2]

/-- If a start of uart_resync_matcher answers a next state, it is the old state or the accepted one. -/
theorem startRs_next {s accepted t : State} (h : startRs s accepted = .next t) :
    (s.rsPhase ≠ .idle ∧ t = s) ∨ (s.rsPhase = .idle ∧ s.pfPhase = .idle ∧ t = accepted) := by
  rcases startRs_cases s accepted with ⟨hp, e⟩ | ⟨hp, hr, e⟩ | ⟨hp, hr, e⟩ <;> rw [e] at h
  · exact .inl ⟨hp, (Host.Outcome.next.inj h).symm⟩
  · exact absurd h (by simp)
  · exact .inr ⟨hp, hr, (Host.Outcome.next.inj h).symm⟩

/-! ### Phases of packet_framer -/

/-- Phase `C_RUN`: hold, add a byte, or finish. -/
theorem cRunStep_cases (s : State) :
    (s.inp = [] ∧ cRunStep s = .next s) ∨
      (∃ b rest, s.inp = .byte b :: rest ∧ cRunStep s = .next (csaAdd b { s with inp := rest })) ∨
      (∃ rest, s.inp = .endMark :: rest ∧ cRunStep s = .next (finishPf .ok { s with inp := rest })) := by
  unfold cRunStep
  rcases h : s.inp with _ | ⟨b | _, rest⟩
  · exact .inl ⟨rfl, by rw [inPop_nil h]⟩
  · exact .inr (.inl ⟨b, rest, rfl, by rw [inPop_cons h]⟩)
  · exact .inr (.inr ⟨rest, rfl, by rw [inPop_cons h]⟩)

/-- Phase `V_RUN`: hold, feed a byte, or write the flag and finish. -/
theorem vRunStep_cases (s : State) :
    (s.inp = [] ∧ vRunStep s = .next s) ∨
      (∃ b rest, s.inp = .byte b :: rest ∧ vRunStep s = .next (csaFeed b { s with inp := rest })) ∨
      (∃ rest, s.inp = .endMark :: rest ∧
        vRunStep s = .next (finishPf .ok (setFlag (csaMatch s) { s with inp := rest }))) := by
  unfold vRunStep
  rcases h : s.inp with _ | ⟨b | _, rest⟩
  · exact .inl ⟨rfl, by rw [inPop_nil h]⟩
  · exact .inr (.inl ⟨b, rest, rfl, by rw [inPop_cons h]⟩)
  · exact .inr (.inr ⟨rest, rfl, by rw [inPop_cons h]; rfl⟩)

/-- Phase `D_RUN`: hold, store a byte, or give the verdict. -/
theorem dRunStep_cases (s : State) :
    (s.inp = [] ∧ dRunStep s = .next s) ∨
      (∃ b rest, s.inp = .byte b :: rest ∧ dRunStep s = .next (decodeByte b { s with inp := rest })) ∨
      (∃ rest, s.inp = .endMark :: rest ∧ dRunStep s = .next (decodeEnd { s with inp := rest })) := by
  unfold dRunStep
  rcases h : s.inp with _ | ⟨b | _, rest⟩
  · exact .inl ⟨rfl, by rw [inPop_nil h]⟩
  · exact .inr (.inl ⟨b, rest, rfl, by rw [inPop_cons h]⟩)
  · exact .inr (.inr ⟨rest, rfl, by rw [inPop_cons h]⟩)

/-- An emission: hold, or push a byte, add it to the sum and change the phase. -/
theorem emitStep_cases (b : Byte) (p : PfPhase) (s : State) :
    (s.txReady = false ∧ emitStep b p s = .next s) ∨
      (s.txReady = true ∧
        emitStep b p s = .next { s with tx := s.tx ++ [b], acc := s.acc + b, pfPhase := p }) := by
  unfold emitStep
  cases h : s.txReady <;> simp [h, csaAdd]

/-- Phase `E_ARGS`: stop on an argument nothing has latched, hold, or push the next argument. -/
theorem eArgsStep_cases (s : State) :
    (Memory.read s.argbuf s.encI.toNat = none ∧ eArgsStep s = .fault .argUnwritten) ∨
      (∃ b, Memory.read s.argbuf s.encI.toNat = some b ∧ s.txReady = false ∧ eArgsStep s = .next s) ∨
      (∃ b, Memory.read s.argbuf s.encI.toNat = some b ∧ s.txReady = true ∧
        eArgsStep s = .next { s with
          tx := s.tx ++ [b]
          acc := s.acc + b
          encI := s.encI + 1
          pfPhase := if s.encI.toNat + 1 < s.encN.toNat then .eArgs else .eCsum }) := by
  unfold eArgsStep
  cases h : Memory.read s.argbuf s.encI.toNat with
  | none => simp
  | some b => cases h2 : s.txReady <;> simp [h2, csaAdd]

/-- Phase `E_CSUM`: hold, or push the sum and finish. -/
theorem eCsumStep_cases (s : State) :
    (s.txReady = false ∧ eCsumStep s = .next s) ∨
      (s.txReady = true ∧ eCsumStep s = .next (finishPf .ok { s with tx := s.tx ++ [s.acc] })) := by
  unfold eCsumStep
  cases h : s.txReady <;> simp [h]

/-- The verdict is never a code that only another operation produces. -/
theorem decodeVerdict_cases (s : State) :
    decodeVerdict s = .lenMismatch ∨ decodeVerdict s = .csumMismatch ∨ decodeVerdict s = .ok := by
  unfold decodeVerdict
  split
  · exact .inl rfl
  · split
    · exact .inl rfl
    · split
      · exact .inr (.inl rfl)
      · exact .inr (.inr rfl)

/-- `End` in DECODE: the verdict is the result, and the valid bit is set exactly with `OK`. -/
theorem decodeEnd_eq (s : State) :
    decodeEnd s = { s with
      pfResult := decodeVerdict s
      pfPhase := .idle
      rbufValid := if decodeVerdict s = .ok then true else s.rbufValid } := by
  unfold decodeEnd
  rcases decodeVerdict_cases s with h | h | h <;> simp [h, finishPf]

/-! ### Phases of uart_resync_matcher -/

/-- A pop leaves the detector as it is. -/
theorem pdMatch_rxPop (b : Byte) (s : State) : pdMatch b (rxPop s).2 = pdMatch b s := by
  rw [rxPop_frame]; rfl

/-- Phase `S_HUNT`: time out, match, or note the byte. -/
theorem sHuntStep_cases (s : State) :
    (∃ t, rxPop s = (.exhausted, t) ∧ sHuntStep s = .next (finishRs .syncTimeout t)) ∨
      (∃ b t, rxPop s = (.byte b, t) ∧ pdMatch b s = true ∧ sHuntStep s = .next (resyncMatch t)) ∨
      (∃ b t, rxPop s = (.byte b, t) ∧ pdMatch b s = false ∧ sHuntStep s = .next (pdNote b t)) := by
  unfold sHuntStep
  rcases h : rxPop s with ⟨b | _, t⟩
  · have hm : pdMatch b t = pdMatch b s := by simpa only [h] using pdMatch_rxPop b s
    cases hs : pdMatch b s
    · exact .inr (.inr ⟨b, t, rfl, hs, by simp [hm, hs]⟩)
    · exact .inr (.inl ⟨b, t, rfl, hs, by simp [hm, hs]⟩)
  · exact .inl ⟨t, rfl, rfl⟩

/-- Phase `S_FILL`: time out, store a byte, or stop at an index that does not exist. -/
theorem sFillStep_cases (s : State) :
    (∃ t, rxPop s = (.exhausted, t) ∧ sFillStep s = .next (finishRs .syncTimeout t)) ∨
      (∃ b t, rxPop s = (.byte b, t) ∧ s.rsCnt.toNat < maxFrame ∧
        sFillStep s = .next
          (if s.rsCnt.toNat + 1 = s.rsE.toNat then
            resyncDone { t with fbuf := Memory.write s.fbuf s.rsCnt.toNat b, rsCnt := s.rsCnt + 1 }
           else { t with fbuf := Memory.write s.fbuf s.rsCnt.toNat b, rsCnt := s.rsCnt + 1 })) ∨
      (∃ b t, rxPop s = (.byte b, t) ∧ ¬ s.rsCnt.toNat < maxFrame ∧ sFillStep s = .fault .fbufIndex) := by
  unfold sFillStep
  have hf := rxPop_frame s
  rcases h : rxPop s with ⟨b | _, t⟩ <;> rw [h] at hf <;> dsimp only at hf
  · by_cases hc : s.rsCnt.toNat < maxFrame
    · exact .inr (.inl ⟨b, t, rfl, hc, by rw [hf]; simp [hc]⟩)
    · exact .inr (.inr ⟨b, t, rfl, hc, by simp [hc]⟩)
  · exact .inl ⟨t, rfl, rfl⟩

/-! ### The step -/

@[simp] theorem step_nil {s : State} (h : s.script = []) : step s = blockStep s := by
  unfold step; rw [h]

@[simp] theorem step_request {s : State} {r : Request} {rest : List Move} (h : s.script = .request r :: rest) :
    step s = runRequest r { s with script := rest } := by
  unfold step; rw [h]

@[simp] theorem step_env {s : State} {m : EnvMove} {rest : List Move} (h : s.script = .env m :: rest) :
    step s = hostMove m s { s with script := rest } := by
  unfold step; rw [h]

theorem blockStep_pf {s : State} (hr : s.rsPhase = .idle) : blockStep s = pfStep s := by
  unfold blockStep
  by_cases hp : s.pfPhase = .idle
  · simp [hp, hr, rsStep, pfStep]
  · simp [hp, hr]

theorem blockStep_rs {s : State} (hp : s.pfPhase = .idle) : blockStep s = rsStep s := by
  simp [blockStep, hp]

theorem blockStep_both {s : State} (hp : s.pfPhase ≠ .idle) (hr : s.rsPhase ≠ .idle) :
    blockStep s = .refused .overlap := by
  simp [blockStep, hp, hr]

@[simp] theorem withFetchWord_script (s : State) (nbits w : Nat) :
    (s.withFetchWord nbits w).script = .request (tableRequest nbits w) :: s.script := rfl

/-! ### Host reads -/

theorem rbufReadable_iff {s : State} :
    rbufReadable s = true ↔ s.pfPhase = .idle ∧ s.pfResult = .ok ∧ s.rbufValid = true := by
  simp [rbufReadable, and_assoc]

theorem fbufReadable_iff {s : State} :
    fbufReadable s = true ↔ s.rsPhase = .idle ∧ s.rsResult = .ok ∧ s.fbufValid = true := by
  simp [fbufReadable, and_assoc]

@[simp] theorem shownByte_some (b : Byte) (n : Nat) : shownByte (some b) n = b := rfl
@[simp] theorem shownByte_none (n : Nat) : shownByte none n = Config.unspecifiedByte n := rfl
@[simp] theorem shownHalf_some (h : Half) (n : Nat) : shownHalf (some h) n = h := rfl
@[simp] theorem shownHalf_none (n : Nat) : shownHalf none n = Config.unspecifiedHalf n := rfl

/-- A read whose value the spec gives shows the entry. -/
theorem rbufRead_of_readable {s : State} {i : Nat} (h : rbufReadable s = true) (hi : i < s.decE.toNat) :
    rbufRead s i = Memory.read s.rbuf i := by
  simp [rbufRead, h, hi]

theorem fbufRead_of_readable {s : State} {i : Nat} (h : fbufReadable s = true) (hi : i < s.rsE.toNat) :
    fbufRead s i = Memory.read s.fbuf i := by
  simp [fbufRead, h, hi]

theorem measField_of_readable {s : State} {i : Nat} {lo hi : Byte} (h : rbufReadable s = true)
    (he : 8 ≤ s.decE.toNat) (hi8 : i + 1 < 8) (hlo : Memory.read s.rbuf i = some lo)
    (hhi : Memory.read s.rbuf (i + 1) = some hi) : measField s i = some (le16 lo hi) := by
  simp [measField, he, rbufRead_of_readable h (show i < _ by omega), rbufRead_of_readable h (show i + 1 < _ by omega),
    hlo, hhi]

theorem measField_of_not_readable {s : State} {i : Nat} (h : ¬ (rbufReadable s = true ∧ 8 ≤ s.decE.toNat)) :
    measField s i = none := by
  unfold measField
  split
  · rename_i he
    have hr : rbufReadable s = false := by simpa [he] using h
    simp [rbufRead, hr]
  · rfl

/-- The result of operation `op` is there to be read. -/
theorem hasValueOf_iff {op : PfOp} {s : State} :
    hasValueOf op s = true ↔ s.pfPhase = .idle ∧ s.pfResult = .ok ∧ s.pfOp = some op := by
  simp [hasValueOf, and_assoc]

@[simp] theorem shownFrame_length (s : State) : (shownFrame s).length = s.rsE.toNat := by simp [shownFrame]

/-- A readable frame is presented as it stands in `FBUF`. -/
theorem shownFrame_eq {s : State} {bs : List Byte} (h : fbufReadable s = true) (hl : bs.length = s.rsE.toNat)
    (hb : ∀ j, j < s.rsE.toNat → Memory.read s.fbuf j = bs[j]?) : shownFrame s = bs := by
  refine List.ext_getElem (by simp [hl]) fun j h₁ h₂ => ?_
  have hj : j < s.rsE.toNat := by simpa using h₁
  have := hb j hj
  rw [List.getElem?_eq_getElem h₂] at this
  simp [shownFrame, fbufRead_of_readable h hj, this]

/-- A frame that may not be read is presented as free values. -/
theorem shownFrame_of_not_readable {s : State} (h : ¬ fbufReadable s = true) :
    shownFrame s = (List.range s.rsE.toNat).map fun j => Config.unspecifiedByte (s.readTurn + j) := by
  simp [shownFrame, fbufRead, h]

/-- The end mark of an operation is on `IN` only while one that reads `IN` runs. -/
theorem endSupplied_iff {s : State} :
    endSupplied s = true ↔
      (s.pfPhase = .cRun ∨ s.pfPhase = .vRun ∨ s.pfPhase = .dRun) ∧ .endMark ∈ s.inp := by
  unfold endSupplied
  cases s.pfPhase <;> simp

@[simp] theorem endSupplied_idle {s : State} (h : s.pfPhase = .idle) : endSupplied s = false := by
  simp [endSupplied, h]

end Sys2Proof.Machine
end

