-- ==== Sys2Proof/Laws/PerInstr.lean ====
section
/-! SUPPORT. Families of statements about the instruction as syntax, one lemma per constructor. -/

theorem Sys2Proof.Machine.argsFit_le {args : List Sys2Proof.Byte} (h : Sys2Proof.Machine.argsFit args = true) :
    args.length ≤ 251 := of_decide_eq_true h

namespace Sys2Proof.Laws.EncodedSize

/-- The request of a well-formed instruction is never empty, and no longer than a select code, a command code, an
argument count and 255 argument bytes. -/
def Statement (i : Instr) : Prop :=
  ∀ m, i.wf m = true → 1 ≤ (encode m i).bytes.length ∧ (encode m i).bytes.length ≤ 258

theorem nop : Statement .nop := by
  intro m _; simp [Sys2Proof.encode, Request.bytes]
theorem csumCompute : Statement .csumCompute := by
  intro m _; simp [Sys2Proof.encode, Request.bytes]
theorem csumVerify : Statement .csumVerify := by
  intro m _; simp [Sys2Proof.encode, Request.bytes]

theorem encode (code : Byte) (args : List Byte) : Statement (.encode code args) := by
  intro m h
  simp only [Instr.wf, Machine.encodeOperandsFit, decide_eq_true_eq] at h
  simp only [Sys2Proof.encode, Request.bytes, List.length_cons]
  omega

theorem decode (e : Byte) (hasLen hasCsum : Bool) : Statement (.decode e hasLen hasCsum) := by
  intro m _; simp [Sys2Proof.encode, Request.bytes]

theorem resync (e : Byte) : Statement (.resync e) := by
  intro m _; simp [Sys2Proof.encode, Request.bytes]

theorem reserved6 : Statement .reserved6 := by
  intro m _; simp [Sys2Proof.encode, Request.bytes]
theorem reserved7 : Statement .reserved7 := by
  intro m _; simp [Sys2Proof.encode, Request.bytes]

theorem decodeEcho (e : Byte) : Statement (.decodeEcho e) := by
  intro m _; simp [Sys2Proof.encode, Request.bytes]

theorem decodeMeas : Statement .decodeMeas := by
  intro m _; simp [Sys2Proof.encode, Request.bytes]

theorem frameCommand (code : Byte) (args : List Byte) : Statement (.frameCommand code args) := by
  intro m h
  have hn := Machine.argsFit_le ((Bool.and_eq_true _ _ ▸ (Bool.and_eq_true _ _ ▸ h).1).1)
  simp only [Sys2Proof.encode, Request.bytes, Machine.encodeFrame, Machine.frameBody, List.length_append,
    List.length_cons, List.length_nil]
  omega

theorem frameEchoResponse (length code : Byte) (payload : List Byte) (checksum : Byte) :
    Statement (.frameEchoResponse length code payload checksum) := by
  intro m h
  have hn := Machine.argsFit_le (Bool.and_eq_true _ _ ▸ h).1
  simp only [Sys2Proof.encode, Request.bytes, Machine.echoFrame, List.length_append,
    List.length_cons, List.length_nil]
  omega

theorem frameMeasurement (distance strength temperature : Half) (tail : List Byte) :
    Statement (.frameMeasurement distance strength temperature tail) := by
  intro m h
  simp only [Instr.wf, decide_eq_true_eq] at h
  simp only [Sys2Proof.encode, Request.bytes, Machine.measurementFrame, List.length_cons, h]
  cases m <;> decide

theorem cmdSetFrameRate10Hz : Statement .cmdSetFrameRate10Hz := by
  intro m _; simp [Sys2Proof.encode, Request.bytes]
theorem rspGetVersion321 : Statement .rspGetVersion321 := by
  intro m _; simp [Sys2Proof.encode, Request.bytes, version321Bytes]
theorem cmdGetVersion : Statement .cmdGetVersion := by
  intro m _; simp [Sys2Proof.encode, Request.bytes]

end Sys2Proof.Laws.EncodedSize
end

