-- ==== Sys2Proof/Laws/Run.lean ====
section
/-! SUPPORT. Runs of several steps. -/

namespace Sys2Proof.Machine

@[simp] theorem run_zero (s : State) : run 0 s = .next s := rfl

theorem run_succ (n : Nat) (s : State) :
    run (n + 1) s = match step s with
      | .next t => run n t
      | .fault r => .fault r
      | .refused r => .refused r := by
  have h : ∀ k : Host.Core, ∀ u : k.State, k.run (n + 1) u = match k.step u with
      | .next t => k.run n t
      | .fault r => .fault r
      | .refused r => .refused r := fun _ _ => rfl
  refine (h Sys2Proof.core s).trans ?_
  cases hs : step s with
  | next t => rw [show Sys2Proof.core.step s = .next t from hs]; rfl
  | fault r => rw [show Sys2Proof.core.step s = .fault r from hs]; rfl
  | refused r => rw [show Sys2Proof.core.step s = .refused r from hs]; rfl

theorem run_succ_next {n : Nat} {s t : State} (h : step s = .next t) : run (n + 1) s = run n t := by
  rw [run_succ, h]

theorem run_add {m : Nat} (n : Nat) {s t : State} (h : run m s = .next t) : run (m + n) s = run n t := by
  induction m generalizing s with
  | zero => rw [run_zero] at h; obtain rfl := Host.Outcome.next.inj h; rw [Nat.zero_add]
  | succ m ih =>
    rw [run_succ] at h
    rw [Nat.add_right_comm, run_succ]
    split at h
    · exact ih h
    · exact absurd h (by simp)
    · exact absurd h (by simp)

/-- An induction along a run: what holds at its start and is kept by every step holds at its end. -/
theorem run_induction {P : State → Prop} (hstep : ∀ s t, P s → step s = .next t → P t) {n : Nat} {s t : State}
    (hs : P s) (h : run n s = .next t) : P t := by
  induction n generalizing s with
  | zero => rw [run_zero] at h; obtain rfl := Host.Outcome.next.inj h; exact hs
  | succ n ih =>
    rw [run_succ] at h
    split at h
    · rename_i u hu; exact ih (hstep _ _ hs hu) h
    · exact absurd h (by simp)
    · exact absurd h (by simp)

/-- A state that steps to itself stays there for ever. -/
theorem run_of_step_self {s : State} (h : step s = .next s) (n : Nat) : run n s = .next s := by
  induction n with
  | zero => rfl
  | succ n ih => rw [run_succ_next h, ih]

end Sys2Proof.Machine
end

