-- ==== Sys2Proof/Tests/Slice0.lean ====
section
/-! SUPPORT. The model's own tests. Expected results come from the spec: its encodings, its vectors (95_test_vectors,
named in each comment) and its rules. The last part shows, for every statement with hypotheses, a state and operands
that meet them. -/

namespace Sys2Proof.Tests

open Machine Config Claims

/-! ### Helpers -/

/-- The state an outcome leads to. -/
def after : Outcome → Option State
  | .next t => some t
  | _ => none

/-- Is the outcome this refusal? -/
def refuses (r : Refusal) : Outcome → Bool
  | .refused r' => decide (r' = r)
  | _ => false

/-- Start an instruction and take n more steps. -/
def started (i : Instr) (n : Nat) (s : State) : Option State :=
  (after (exec i s)).bind fun t => after (run n t)

/-- After reset, with a sequence on `IN`. -/
def withIn (bs : List Byte) : State := { State.reset with inp := inStream bs [] }

/-- After reset, with bytes in the receive channel. -/
def withRx (bs : List Byte) : State := { State.reset with rx := rxStream bs [] }

/-- After reset, with one move to come. -/
def withMove (m : EnvMove) (s : State) : State := { s with script := [.env m] }

/-- The outcome of DECODE on a buffer: its result and valid bit. -/
def decoded (e : Byte) (hasLen hasCsum : Bool) (raw : List Byte) : Option (ResultCode × Bool) :=
  (started (.decode e hasLen hasCsum) (raw.length + 1) (withIn raw)).map fun t => (t.pfResult, t.rbufValid)

/-- The measurement payload M of 95 section 2.5 behind its header. -/
def measM : List Byte := [0x59, 0x59, 0xE8, 0x03, 0x64, 0x00, 0xD0, 0x07]

/-! ### WellFormed: one ill-formed term for each check -/

theorem test_wf_refuses_256_arguments : (Instr.encode 0 (List.replicate 256 0)).wf .plain = false := by decide +kernel
theorem test_wf_refuses_decode_in_echo_mode : (Instr.decode 7 true true).wf .plain = false := by decide
theorem test_wf_refuses_decode_in_meas_mode : (Instr.decode 8 false false).wf .plain = false := by decide
theorem test_wf_refuses_decode_in_meas_mode_checksummed :
    (Instr.decode 9 false true).wf .checksummed = false := by decide
theorem test_wf_refuses_long_command_frame :
    (Instr.frameCommand 0 (List.replicate 252 0)).wf .plain = false := by decide +kernel
theorem test_wf_refuses_general_row_for_set_frame_rate :
    (Instr.frameCommand 0x03 [0x0A, 0x00]).wf .plain = false := by decide
theorem test_wf_refuses_general_row_for_get_version : (Instr.frameCommand 0x01 []).wf .plain = false := by decide
theorem test_wf_refuses_long_response :
    (Instr.frameEchoResponse 0 0 (List.replicate 252 0) 0).wf .plain = false := by decide +kernel
theorem test_wf_refuses_general_row_for_version_response :
    (Instr.frameEchoResponse 0x07 0x01 [0x03, 0x02, 0x01] 0x68).wf .plain = false := by decide
theorem test_wf_refuses_tail_in_plain_layout : (Instr.frameMeasurement 0 0 0 [0]).wf .plain = false := by decide
theorem test_wf_refuses_missing_checksum_in_checksummed_layout :
    (Instr.frameMeasurement 0 0 0 []).wf .checksummed = false := by decide

/-! ### Decode: a word of every constructor, bit by bit (30_encoding R80 to R83, R95, R101; 44 R215) -/

theorem test_decode_nop : decode .plain (.command [0b000]) = .instr .nop := by decide
theorem test_decode_csumCompute : decode .plain (.command [0b001]) = .instr .csumCompute := by decide
theorem test_decode_csumVerify : decode .plain (.command [0b010]) = .instr .csumVerify := by decide
theorem test_decode_encode :
    decode .plain (.command [0b011, 0x03, 0x02, 0x0A, 0x00]) = .instr (.encode 0x03 [0x0A, 0x00]) := by decide
theorem test_decode_decode :
    decode .plain (.command [0b100, 0x06, 0b01]) = .instr (.decode 6 true false) := by decide
theorem test_decode_decode_checksum_only :
    decode .plain (.command [0b100, 0x06, 0b10]) = .instr (.decode 6 false true) := by decide
theorem test_decode_resync : decode .plain (.command [0b101, 0x08]) = .instr (.resync 8) := by decide
theorem test_decode_reserved6 : decode .plain (.command [0b110]) = .instr .reserved6 := by decide
theorem test_decode_reserved7 : decode .plain (.command [0b111]) = .instr .reserved7 := by decide
theorem test_decode_decodeEcho : decode .plain (.command [0b100, 0x07, 0b11]) = .instr (.decodeEcho 7) := by decide
theorem test_decode_decodeMeas : decode .plain (.command [0b100, 0x08, 0b00]) = .instr .decodeMeas := by decide
theorem test_decode_frameCommand :
    decode .plain (.toDevice [0x5A, 0x06, 0x03, 0xE8, 0x03, 0x4E]) = .instr (.frameCommand 0x03 [0xE8, 0x03]) := by
  decide
theorem test_decode_frameEchoResponse :
    decode .plain (.fromDevice [0x5A, 0x05, 0x11, 0x00, 0x70]) = .instr (.frameEchoResponse 5 0x11 [0x00] 0x70) := by
  decide
theorem test_decode_frameMeasurement :
    decode .plain (.fromDevice measM) = .instr (.frameMeasurement 0x03E8 0x0064 0x07D0 []) := by decide
theorem test_decode_cmdSetFrameRate10Hz :
    decode .plain (.toDevice [0x5A, 0x06, 0x03, 0x0A, 0x00, 0x6D]) = .instr .cmdSetFrameRate10Hz := by decide
theorem test_decode_rspGetVersion321 :
    decode .plain (.fromDevice [0x5A, 0x07, 0x01, 0x03, 0x02, 0x01, 0x68]) = .instr .rspGetVersion321 := by decide
theorem test_decode_cmdGetVersion :
    decode .plain (.toDevice [0x5A, 0x04, 0x01, 0x5F]) = .instr .cmdGetVersion := by decide

/-! Rejections, by name. -/

theorem test_reject_empty : decode .plain (.command []) = .rejected .empty := by decide
theorem test_reject_not_an_op : decode .plain (.command [0x08]) = .rejected .notAnOpSelect := by decide
theorem test_reject_missing_argument :
    decode .plain (.command [3, 1, 2, 0]) = .rejected .truncated := by decide
theorem test_reject_trailing_operand : decode .plain (.command [0, 0]) = .rejected .trailing := by decide
theorem test_reject_mode_bits : decode .plain (.command [4, 7, 4]) = .rejected .badModeBits := by decide
theorem test_reject_frame_start : decode .plain (.toDevice [0x59, 0x04, 0x01, 0x5E]) = .rejected .notAFrame := by
  decide
theorem test_reject_length_byte :
    decode .plain (.toDevice [0x5A, 0x05, 0x01, 0x60]) = .rejected .frameLength := by decide
theorem test_reject_checksum_byte :
    decode .plain (.toDevice [0x5A, 0x04, 0x01, 0x5E]) = .rejected .frameChecksum := by decide
theorem test_reject_long_response :
    decode .plain (.fromDevice (0x5A :: List.replicate 255 0)) = .rejected .frameTooLong := by decide +kernel

/-! ### The first step after reset runs the word it was given -/

theorem test_fetch_reserved7 :
    ((after (step (State.reset.withFetchWord 8 7))).map fun t => (t.pfResult.code, t.rsResult.code)) = some (7, 7) := by
  decide
theorem test_fetch_command_frame :
    ((after (step (State.reset.withFetchWord 32 0x5A04015F))).map fun t => (t.encCode, t.pfPhase)) =
      some (0x01, .eHdr) := by decide

/-! ### NOP and reserved codes (95 OP1, OP2) -/

theorem test_nop_OP1 : after (exec .nop State.reset) = some State.reset := by decide
theorem test_reserved6_OP2 :
    ((after (exec .reserved6 State.reset)).map fun t => (t.pfResult, t.rsResult, t.pfPhase, t.rsPhase)) =
      some (.refused, .refused, .idle, .idle) := by decide
theorem test_reserved7_leaves_busy_block :
    ((after (exec .reserved7 { State.reset with pfPhase := .dRun })).map fun t => (t.pfResult, t.rsResult)) =
      some (.none, .refused) := by decide

/-! ### checksum_accumulator (95 CS4, CS7, CV1, CV5) -/

theorem test_csumCompute_CS4 : (started .csumCompute 3 (withIn [0xFF, 0x01])).map (·.acc) = some 0 := by decide
theorem test_csumCompute_CS7 :
    ((started .csumCompute 6 (withIn [0x5A, 0x06, 0x03, 0x0A, 0x00])).map fun t => (t.acc, t.pfResult)) =
      some (0x6D, .ok) := by decide
theorem test_csumVerify_CV1 :
    ((started .csumVerify 1 (withIn [])).map fun t => (t.pfFlag, t.pfResult)) = some (false, .ok) := by decide
theorem test_csumVerify_CV5 :
    ((started .csumVerify 5 (withIn [0x5A, 0x04, 0x01, 0x5E])).map fun t => (t.pfFlag, t.acc, t.csaLast)) =
      some (false, 0x5F, 0x5E) := by decide

/-! ### frame_encoder (95 EN2, EN3, EN7, EN13, P3) -/

theorem test_encode_EN3 :
    (started (.encode 0x03 [0xE8, 0x03]) 6 State.reset).map (·.tx) = some [0x5A, 0x06, 0x03, 0xE8, 0x03, 0x4E] := by
  decide
theorem test_encode_EN13 :
    ((after (exec (.encode 0x03 (List.replicate 252 0)) State.reset)).map fun t => (t.pfResult, t.pfPhase, t.tx)) =
      some (.refused, .idle, []) := by decide +kernel
theorem test_frameCommand_EN7 :
    (started (.frameCommand 0x06 [0x00, 0xC2, 0x01, 0x00]) 8 State.reset).map (·.tx) =
      some [0x5A, 0x08, 0x06, 0x00, 0xC2, 0x01, 0x00, 0x2B] := by decide
theorem test_cmdSetFrameRate10Hz_EN2 :
    ((started .cmdSetFrameRate10Hz 6 State.reset).map fun t => (t.tx, t.pfResult)) =
      some ([0x5A, 0x06, 0x03, 0x0A, 0x00, 0x6D], .ok) := by decide
theorem test_cmdGetVersion_P3 :
    ((started .cmdGetVersion 4 State.reset).map fun t => (t.tx, t.pfResult)) =
      some ([0x5A, 0x04, 0x01, 0x5F], .ok) := by decide

/-! ### frame_decoder (95 DE1, DE5, DE6, DE17, DE20, DE25, DE27) -/

theorem test_decode_DE5 : decoded 7 true true [0x5A, 0x08, 0x01, 0x03, 0x02, 0x01, 0x68] =
    some (.lenMismatch, false) := by decide
theorem test_decode_DE27 : decoded 0 false true [] = some (.csumMismatch, false) := by decide
theorem test_decodeEcho_DE6 :
    ((started (.decodeEcho 7) 8 (withIn [0x5A, 0x07, 0x01, 0x03, 0x02, 0x01, 0x69])).map fun t =>
      (t.pfResult, t.rbufValid, t.csaLast)) = some (.csumMismatch, false, 0x69) := by decide
theorem test_decodeEcho_DE25 :
    ((started (.decodeEcho 2) 3 (withIn [0x02, 0x02])).map fun t => (t.pfResult, t.rbufValid)) = some (.ok, true) := by
  decide
theorem test_decodeMeas_DE17 :
    ((started .decodeMeas 9 (withIn measM)).map fun t => hostRead t .measTemperature) = some (.half 2000) := by decide
theorem test_decodeMeas_checksummed_DE22 :
    ((started .decodeMeas 10 { withIn (measM ++ [0xD9]) with meas := .checksummed }).map (·.pfResult)) =
      some .csumMismatch := by decide
theorem test_frameEchoResponse_DE4 :
    ((started (.frameEchoResponse 0x08 0x01 [0x03, 0x02, 0x01] 0x69) 8 State.reset).map (·.pfResult)) =
      some .lenMismatch := by decide
theorem test_frameEchoResponse_DE23 :
    ((started (.frameEchoResponse 0x05 0x11 [0x00] 0x70) 6 State.reset).map fun t => (t.pfResult, t.decE)) =
      some (.ok, 5) := by decide
theorem test_rspGetVersion321_DE1 :
    ((started .rspGetVersion321 8 State.reset).map fun t => (t.pfResult, t.acc, [3, 4, 5].map (Memory.read t.rbuf))) =
      some (.ok, 0x68, [some 0x03, some 0x02, some 0x01]) := by decide

/-! ### uart_resync_matcher (95 RS8, RS11, RS15, RS19) -/

theorem test_resync_RS8 :
    ((started (.resync 8) 10 (withRx ([0x59, 0x00] ++ measM))).map fun t => (t.rsResult, shownFrame t)) =
      some (.ok, measM) := by decide
theorem test_resync_RS11 :
    ((started (.resync 8) 8 (withRx measM.dropLast)).map fun t => (t.rsResult, t.fbufValid, t.rsCnt)) =
      some (.syncTimeout, false, 7) := by decide
theorem test_frameMeasurement_RS5 :
    ((started (.frameMeasurement 0x03E8 0x0064 0x07D0 []) 9 (withRx [0x01, 0x59])).map fun t => (t.rsResult, t.rx)) =
      some (.ok, [.byte 0x07]) := by decide
theorem test_resync_RS19 :
    ((after (exec (.resync 1) (withRx [0x59, 0x59]))).map fun t => (t.rsResult, t.rx.length)) = some (.refused, 2) := by
  decide

/-! ### Busy, holds, reset, host reads (95 OP3, OP7; 93 U5, U7) -/

theorem test_start_while_busy_OP3 :
    after (exec (.decode 7 true true) { State.reset with pfPhase := .eArgs }) =
      some { State.reset with pfPhase := .eArgs } := by decide
theorem test_overlap_is_refused : refuses .overlap (exec (.resync 8) { State.reset with pfPhase := .cRun }) = true := by
  decide
theorem test_stalled_sink_holds :
    ((started .cmdGetVersion 5 { State.reset with txReady := false }).map fun t => (t.tx, t.pfPhase)) =
      some ([], .eHdr) := by decide
theorem test_reset_aborts_OP7 :
    ((after (step (withMove .reset { State.reset with pfPhase := .dRun, rx := [.byte 1] }))).map fun t =>
      (t.pfPhase, t.pfResult, t.rbufValid, t.rx.length)) = some (.idle, .none, false, 1) := by decide
theorem test_read_of_invalid_buffer_is_unspecified :
    (after (step (withMove (.read (.rbuf 0)) State.reset))).map (·.lastRead) =
      some (some (.byte (unspecifiedByte 0))) := rfl
theorem test_read_of_flag_after_reset :
    (after (step (withMove (.read .pfFlag) State.reset))).map (·.lastRead) = some (some (.bit false)) := by decide
theorem test_csum_shown_after_verify_CV5 :
    ((started .csumVerify 5 (withIn [0x5A, 0x04, 0x01, 0x5E])).map fun t =>
      (hostRead t .pfCsum, readValid t .pfCsum, hostRead t .pfFlag, readValid t .pfFlag)) =
      some (.byte 0x5F, false, .bit false, true) := by decide
theorem test_status_read_has_no_side_effect :
    (after (step (withMove (.read .pfBusy) State.reset))) = some { State.reset with lastRead := some (.bit false), readTurn := 1 } := by
  decide
theorem test_readExact_takes_what_there_is :
    ((after (step (withMove (.readExact 4) (withRx [1, 2])))).map fun t => (t.rx, t.inp)) =
      some ([], [.byte 1, .byte 2, .endMark]) := by decide

theorem test_read_of_frame_during_encode_is_unspecified :
    (after (step (withMove (.read (.rbuf 0))
      { State.reset with rbufValid := true, decE := 1, rbuf := [(0, 0x5A)], pfPhase := .eHdr }))).map (·.lastRead) =
      some (some (.byte (unspecifiedByte 0))) := rfl
theorem test_length_is_read_without_a_frame :
    ((after (step (withMove (.read .rbufLen) { State.reset with decE := 7 }))).map (·.lastRead)) =
      some (some (.byte 7)) := by decide
theorem test_supply_after_end_is_refused :
    refuses .supplyAfterEnd (step (withMove (.supply (.byte 1)) { withIn [] with pfPhase := .dRun })) = true := by decide
theorem test_supply_ahead_of_an_operation :
    ((after (step (withMove (.supply (.byte 1)) (withIn [])))).map (·.inp)) = some [.endMark, .byte 1] := by decide
theorem test_failed_call_ends :
    ((after (step { State.reset with script := readMeasUart .plain |>.drop 2, rsResult := .syncTimeout })).map (·.script)) =
      some [] := by decide
theorem test_good_call_goes_on :
    ((after (step { State.reset with script := readMeasUart .plain |>.drop 2, rsResult := .ok })).map (·.script)) =
      some [.env .presentFbuf, .request (.command [4, 8, 0]), .env .await] := by decide
theorem test_endless_channel_is_popped :
    ((after (step { State.reset with rsPhase := .sHunt, rxTail := .cycle (.byte 0x59) [.byte 0x00], rxTurn := 2 })).map
      fun t => (t.pdSeen1, t.rxTurn, t.rsPhase)) = some (true, 3, .sHunt) := by decide

/-! ### The host's functions (95 S5, S6; 30 R87, R89; 44 R213) -/

theorem test_version_S5 : versionInfo [0x5A, 0x07, 0x01, 0x03, 0x02, 0x01, 0x68] =
    some { revision := 3, minor := 2, major := 1 } := by decide
theorem test_address_echo_S6 :
    (afterSetAddress [0x20] [0x5A, 0x05, 0x0B, 0x21, 0x8B] 0x20 ⟨.uart, 0x10⟩).busAddress = 0x10 := by decide
theorem test_frame_rate_10Hz : frameRateArgs 10 = [0x0A, 0x00] := by decide
theorem test_baud_rate_EN7 : baudRateArgs 115200 = [0x00, 0xC2, 0x01, 0x00] := by decide

/-! ### States that meet the invariant -/

/-- ENCODE of two arguments, the first one sent, on a stalled sink. -/
def encoding : State :=
  { State.reset with
    pfPhase := .eArgs, encN := 2, encI := 1, argbuf := [(0, 0x0A), (1, 0x00)], txReady := false }

/-- DECODE after one byte, with nothing on `IN`. -/
def decoding : State := { State.reset with pfPhase := .dRun, decE := 7, decCnt := 1, rbuf := [(0, 0x5A)] }

/-- RESYNC for 8 bytes, filling after three. -/
def filling : State :=
  { State.reset with
    rsPhase := .sFill, rsE := 8, rsCnt := 3, fbuf := [(0, 0x59), (1, 0x59), (2, 0xE8)], rx := [.byte 0x03] }

/-- Both buffers valid, with frames of two bytes. -/
def valid : State :=
  { State.reset with
    rbufValid := true, decE := 2, rbuf := [(0, 0x02), (1, 0x02)], pfResult := .ok, pfOp := some .decode
    fbufValid := true, rsE := 2, rsCnt := 2, fbuf := [(0, 0x59), (1, 0x59)], rsResult := .ok }

theorem encoding_inv : encoding.Inv :=
  ⟨⟨by decide, by decide, by decide⟩, by decide, ⟨by decide, by decide, by decide, by decide⟩,
    ⟨by decide, by decide, by decide, by decide⟩, ⟨by decide, by decide, by decide, by decide⟩,
    ⟨by decide, by decide, by decide, by decide⟩⟩

theorem decoding_inv : decoding.Inv :=
  ⟨⟨by decide, by decide, by decide⟩, by decide, ⟨by decide, by decide, by decide, by decide⟩,
    ⟨by decide, by decide, by decide, by decide⟩, ⟨by decide, by decide, by decide, by decide⟩,
    ⟨by decide, by decide, by decide, by decide⟩⟩

theorem filling_inv : filling.Inv :=
  ⟨⟨by decide, by decide, by decide⟩, by decide, ⟨by decide, by decide, by decide, by decide⟩,
    ⟨by decide, by decide, by decide, by decide⟩, ⟨by decide, by decide, by decide, by decide⟩,
    ⟨by decide, by decide, by decide, by decide⟩⟩

theorem valid_inv : valid.Inv :=
  ⟨⟨by decide, by decide, by decide⟩, by decide, ⟨by decide, by decide, by decide, by decide⟩,
    ⟨by decide, by decide, by decide, by decide⟩, ⟨by decide, by decide, by decide, by decide⟩,
    ⟨by decide, by decide, by decide, by decide⟩⟩

/-! ### Witnesses: every statement with hypotheses has a state and operands that meet them, clause by clause -/

/-- n zero bytes. -/
def zeros (n : Nat) : List Byte := List.replicate n 0

theorem zeros_length (n : Nat) : (zeros n).length = n := List.length_replicate

theorem idle_reset : State.reset.idle := ⟨rfl, rfl⟩

theorem witness_DecodingAnEncodedInstructionGivesItBack :
    (Instr.encode 0 (zeros 255)).wf .plain = true ∧ (Instr.frameCommand 0 (zeros 251)).wf .plain = true ∧
    (Instr.frameEchoResponse 0 0 (zeros 251) 0).wf .plain = true ∧
    (Instr.frameMeasurement 0 0 0 []).wf .plain = true ∧ (Instr.frameMeasurement 0 0 0 [0]).wf .checksummed = true ∧
    (Instr.decode 8 false false).wf .checksummed = true := by decide +kernel

theorem witness_EncodingADecodedRequestGivesItBack :
    decode .checksummed (.command [4, 9, 2]) = .instr .decodeMeas ∧
    decode .plain (.fromDevice [0x5A, 0, 0, 0]) = .instr (.frameEchoResponse 0 0 [] 0) := by decide

theorem witness_StepRunsTheDecodedInstruction :
    (∃ (s : State) (r : Request) (rest : List Move) (i : Instr),
      s.script = .request r :: rest ∧ decode s.meas r = .instr i) ∧
    (∃ (s : State) (r : Request) (rest : List Move) (e : DecodeError),
      s.script = .request r :: rest ∧ decode s.meas r = .rejected e) ∧
    (∃ (s : State) (nbits w : Nat) (i : Instr), s.meas = .plain ∧ decodeTableWord nbits w = some i) :=
  ⟨⟨{ State.reset with script := [.request (.command [0])] }, _, _, .nop, rfl, by decide⟩,
    ⟨{ State.reset with script := [.request (.command [8])] }, _, _, .notAnOpSelect, rfl, by decide⟩,
    ⟨State.reset, 8, 0, .nop, rfl, by decide⟩⟩

theorem witness_ResetPutsEveryElementAtItsResetValue :
    ∃ (s : State) (rest : List Move), s.script = .env .reset :: rest ∧ s.pfPhase ≠ .idle :=
  ⟨{ decoding with script := [.env .reset] }, _, rfl, by decide⟩

theorem witness_StepKeepsTheInvariant :
    (∃ s t : State, s.Inv ∧ s.pfPhase = .eArgs ∧ step s = .next t) ∧
    (∃ s t : State, s.Inv ∧ s.pfPhase = .dRun ∧ step s = .next t) ∧
    (∃ s t : State, s.Inv ∧ s.rsPhase = .sFill ∧ step s = .next t) ∧
    (∃ s t : State, s.Inv ∧ s.rbufValid = true ∧ s.fbufValid = true ∧ step s = .next t) :=
  ⟨⟨encoding, _, encoding_inv, rfl, rfl⟩, ⟨decoding, _, decoding_inv, rfl, rfl⟩, ⟨filling, _, filling_inv, rfl, rfl⟩,
    ⟨valid, _, valid_inv, rfl, rfl, rfl⟩⟩

theorem witness_RunsFromTheInvariantAreSafe : ∃ s : State, s.Inv ∧ ¬ s.idle :=
  ⟨filling, filling_inv, by intro h; exact absurd h.2 (by decide)⟩

theorem witness_BusyBlockIgnoresAStart :
    (∃ (i : Instr) (s : State), packetFramerOp i = true ∧ s.pfPhase ≠ .idle) ∧
    (∃ s : State, s.rsPhase ≠ .idle) :=
  ⟨⟨.decode 7 true true, encoding, rfl, by decide⟩, ⟨filling, by decide⟩⟩

theorem witness_OverlappingStartIsRefused :
    (∃ (i : Instr) (s : State), packetFramerOp i = true ∧ s.pfPhase = .idle ∧ s.rsPhase ≠ .idle) ∧
    (∃ (i : Instr) (s : State), resyncOp i = true ∧ s.rsPhase = .idle ∧ s.pfPhase ≠ .idle) :=
  ⟨⟨.cmdGetVersion, filling, rfl, rfl, by decide⟩, ⟨.frameMeasurement 0 0 0 [], decoding, rfl, rfl, by decide⟩⟩

theorem witness_ReservedCodesWriteRefused :
    ((Instr.reserved6 = .reserved6 ∨ Instr.reserved6 = .reserved7) ∧ (Instr.reserved7 = .reserved6 ∨ Instr.reserved7 = .reserved7)) ∧
    (∃ s : State, s.pfPhase ≠ .idle ∧ s.rsPhase = .idle) ∧ (∃ s : State, s.pfPhase = .idle ∧ s.rsPhase ≠ .idle) :=
  ⟨by decide, ⟨decoding, by decide, rfl⟩, ⟨filling, rfl, by decide⟩⟩

theorem witness_ChecksumOperationsStart : ∃ s : State, s.idle ∧ s.rbufValid = true := ⟨valid, ⟨rfl, rfl⟩, rfl⟩

theorem witness_EncodeStartLatchesItsOperands :
    (zeros 0).length ≤ 251 ∧ (zeros 251).length ≤ 251 ∧ valid.idle :=
  ⟨by rw [zeros_length]; decide, by rw [zeros_length], ⟨rfl, rfl⟩⟩

theorem witness_CommandFramesStartEncode :
    (commandFrame (.frameCommand 0xFF (zeros 251)) = some (0xFF, zeros 251) ∧ (zeros 251).length ≤ 251) ∧
    commandFrame (.frameCommand 0 []) = some (0, []) ∧ (zeros 0).length ≤ 251 ∧
    commandFrame .cmdSetFrameRate10Hz = some (0x03, [0x0A, 0x00]) ∧ commandFrame .cmdGetVersion = some (0x01, []) ∧
    valid.idle :=
  ⟨⟨rfl, by rw [zeros_length]⟩, rfl, by rw [zeros_length]; decide, rfl, rfl, ⟨rfl, rfl⟩⟩

theorem witness_EncodeRefusesTooManyArguments : 251 < (zeros 252).length ∧ valid.idle :=
  ⟨by rw [zeros_length]; decide, ⟨rfl, rfl⟩⟩

theorem witness_DecodeStartLatchesItsOperands :
    decodeOperands .plain (.decode 0 true false) = some (0, true, false) ∧
    decodeOperands .plain (.decodeEcho 255) = some (255, true, true) ∧
    decodeOperands .plain .decodeMeas = some (8, false, false) ∧
    decodeOperands .checksummed .decodeMeas = some (9, false, true) ∧ valid.idle :=
  ⟨rfl, rfl, rfl, rfl, ⟨rfl, rfl⟩⟩

theorem witness_EchoResponseIsPresentedToDecode :
    (∃ raw, echoBuffer (.frameEchoResponse 0xFF 0 (zeros 251) 0) = some raw) ∧
    (∃ raw, echoBuffer .rspGetVersion321 = some raw) ∧ valid.idle := ⟨⟨_, rfl⟩, ⟨_, rfl⟩, ⟨rfl, rfl⟩⟩

theorem witness_ResyncStartsHunting :
    2 ≤ (2 : Byte).toNat ∧ 2 ≤ (255 : Byte).toNat ∧ valid.idle := ⟨by decide, by decide, ⟨rfl, rfl⟩⟩

theorem witness_ResyncRefusesAFrameWithoutRoomForTheHeader :
    (0 : Byte).toNat < 2 ∧ (1 : Byte).toNat < 2 ∧ valid.idle := ⟨by decide, by decide, ⟨rfl, rfl⟩⟩

theorem witness_MeasurementFrameArrivesAndIsHunted :
    ∃ s : State, s.idle ∧ s.meas = .checksummed := ⟨{ valid with meas := .checksummed }, ⟨rfl, rfl⟩, rfl⟩

theorem witness_ChecksumRows :
    (∃ s : State, s.script = [] ∧ s.rsPhase = .idle ∧ s.pfPhase = .cRun ∧ s.inp = []) ∧
    (∃ (s : State) (b : Byte) (rest : List InElem),
      s.script = [] ∧ s.rsPhase = .idle ∧ s.pfPhase = .cRun ∧ s.inp = .byte b :: rest ∧ s.acc = 0xFF) ∧
    (∃ (s : State) (rest : List InElem),
      s.script = [] ∧ s.rsPhase = .idle ∧ s.pfPhase = .cRun ∧ s.inp = .endMark :: rest) ∧
    (∃ s : State, s.script = [] ∧ s.rsPhase = .idle ∧ s.pfPhase = .vRun ∧ s.inp = []) ∧
    (∃ (s : State) (b : Byte) (rest : List InElem),
      s.script = [] ∧ s.rsPhase = .idle ∧ s.pfPhase = .vRun ∧ s.inp = .byte b :: rest ∧ s.csaHave = true) ∧
    (∃ (s : State) (rest : List InElem),
      s.script = [] ∧ s.rsPhase = .idle ∧ s.pfPhase = .vRun ∧ s.inp = .endMark :: rest) :=
  ⟨⟨{ State.reset with pfPhase := .cRun }, rfl, rfl, rfl, rfl⟩,
    ⟨{ State.reset with pfPhase := .cRun, acc := 0xFF, inp := [.byte 1] }, _, _, rfl, rfl, rfl, rfl, rfl⟩,
    ⟨{ State.reset with pfPhase := .cRun, inp := [.endMark] }, _, rfl, rfl, rfl, rfl⟩,
    ⟨{ State.reset with pfPhase := .vRun }, rfl, rfl, rfl, rfl⟩,
    ⟨{ State.reset with pfPhase := .vRun, csaHave := true, inp := [.byte 1] }, _, _, rfl, rfl, rfl, rfl, rfl⟩,
    ⟨{ State.reset with pfPhase := .vRun, inp := [.endMark] }, _, rfl, rfl, rfl, rfl⟩⟩

theorem witness_EncoderRows :
    (∃ (s : State) (b : Byte), s.script = [] ∧ s.rsPhase = .idle ∧ s.pfPhase.encoding = true ∧ s.txReady = false ∧
      s.pfPhase = .eArgs ∧ Memory.read s.argbuf s.encI.toNat = some b) ∧
    (∃ s : State, s.script = [] ∧ s.rsPhase = .idle ∧ s.pfPhase = .eHdr ∧ s.txReady = true) ∧
    (∃ s : State, s.script = [] ∧ s.rsPhase = .idle ∧ s.pfPhase = .eLen ∧ s.txReady = true ∧ s.encN = 251) ∧
    (∃ s : State, s.script = [] ∧ s.rsPhase = .idle ∧ s.pfPhase = .eCode ∧ s.txReady = true ∧ s.encN = 0) ∧
    (∃ (s : State) (b : Byte), s.script = [] ∧ s.rsPhase = .idle ∧ s.pfPhase = .eArgs ∧ s.txReady = true ∧
      Memory.read s.argbuf s.encI.toNat = some b ∧ s.encI.toNat + 1 = s.encN.toNat) ∧
    (∃ s : State, s.script = [] ∧ s.rsPhase = .idle ∧ s.pfPhase = .eCsum ∧ s.txReady = true) :=
  ⟨⟨encoding, 0x00, rfl, rfl, rfl, rfl, rfl, rfl⟩,
    ⟨{ State.reset with pfPhase := .eHdr }, rfl, rfl, rfl, rfl⟩,
    ⟨{ State.reset with pfPhase := .eLen, encN := 251 }, rfl, rfl, rfl, rfl, rfl⟩,
    ⟨{ State.reset with pfPhase := .eCode }, rfl, rfl, rfl, rfl, rfl⟩,
    ⟨{ encoding with txReady := true }, 0x00, rfl, rfl, rfl, rfl, rfl, rfl⟩,
    ⟨{ State.reset with pfPhase := .eCsum }, rfl, rfl, rfl, rfl⟩⟩

theorem witness_DecoderRows :
    (∃ s : State, s.script = [] ∧ s.rsPhase = .idle ∧ s.pfPhase = .dRun ∧ s.inp = []) ∧
    (∃ (s : State) (b : Byte) (rest : List InElem), s.script = [] ∧ s.rsPhase = .idle ∧ s.pfPhase = .dRun ∧
      s.inp = .byte b :: rest ∧ s.decCnt.toNat < 255 ∧ s.decCnt = 1) ∧
    (∃ (s : State) (b : Byte) (rest : List InElem), s.script = [] ∧ s.rsPhase = .idle ∧ s.pfPhase = .dRun ∧
      s.inp = .byte b :: rest ∧ s.decCnt.toNat < 255 ∧ s.decCnt = 254) ∧
    (∃ (s : State) (b : Byte) (rest : List InElem), s.script = [] ∧ s.rsPhase = .idle ∧ s.pfPhase = .dRun ∧
      s.inp = .byte b :: rest ∧ s.decCnt = 255) ∧
    (∃ (s : State) (rest : List InElem), s.script = [] ∧ s.rsPhase = .idle ∧ s.pfPhase = .dRun ∧
      s.inp = .endMark :: rest) :=
  ⟨⟨decoding, rfl, rfl, rfl, rfl⟩,
    ⟨{ decoding with inp := [.byte 0x07] }, _, _, rfl, rfl, rfl, rfl, by decide, rfl⟩,
    ⟨{ decoding with decCnt := 254, inp := [.byte 0x07] }, _, _, rfl, rfl, rfl, rfl, by decide, rfl⟩,
    ⟨{ decoding with decCnt := 255, inp := [.byte 0x07] }, _, _, rfl, rfl, rfl, rfl, rfl⟩,
    ⟨{ decoding with inp := [.endMark] }, _, rfl, rfl, rfl, rfl⟩⟩

/-- RESYNC hunting on an endless channel of zeros. -/
def hunting : State := { State.reset with rsPhase := .sHunt, rsE := 8, rxTail := .cycle (.byte 0x00) [] }

theorem witness_ResyncRows :
    (∃ (s : State) (rx : List RxAnswer) (turn : Nat), s.script = [] ∧ s.pfPhase = .idle ∧ s.rsPhase ≠ .idle ∧ s.rx ≠ [] ∧
      channelAnswers s .exhausted rx turn) ∧
    (∃ (s : State) (rx : List RxAnswer) (turn : Nat), s.script = [] ∧ s.pfPhase = .idle ∧ s.rsPhase ≠ .idle ∧ s.rx = [] ∧
      channelAnswers s .exhausted rx turn) ∧
    (∃ (s : State) (rx : List RxAnswer) (turn : Nat), s.script = [] ∧ s.pfPhase = .idle ∧ s.rsPhase = .sHunt ∧
      channelAnswers s (.byte 0x59) rx turn ∧ s.pdSeen1 = true ∧ s.rsE = 2) ∧
    (∃ (s : State) (b : Byte) (rx : List RxAnswer) (turn : Nat), s.script = [] ∧ s.pfPhase = .idle ∧ s.rsPhase = .sHunt ∧
      channelAnswers s (.byte b) rx turn ∧ ¬ (s.pdSeen1 = true ∧ b = 0x59) ∧ turn ≠ s.rxTurn) ∧
    (∃ (s : State) (b : Byte) (rx : List RxAnswer) (turn : Nat), s.script = [] ∧ s.pfPhase = .idle ∧ s.rsPhase = .sFill ∧
      channelAnswers s (.byte b) rx turn ∧ s.rsCnt.toNat < 255 ∧ s.rsCnt = 254) :=
  ⟨⟨{ filling with rx := [.exhausted] }, [], 0, rfl, rfl, by decide, by decide, .inl ⟨rfl, rfl⟩⟩,
    ⟨{ filling with rx := [] }, [], 0, rfl, rfl, by decide, rfl, .inr (.inl ⟨rfl, rfl, rfl, rfl, rfl⟩)⟩,
    ⟨{ withRx [0x59] with rsPhase := .sHunt, pdSeen1 := true, rsE := 2 }, [], 0, rfl, rfl, rfl, .inl ⟨rfl, rfl⟩, rfl, rfl⟩,
    ⟨hunting, 0x00, [], 1, rfl, rfl, rfl, .inr (.inr ⟨rfl, by decide, by decide, rfl, rfl⟩), by decide, by decide⟩,
    ⟨{ filling with rsCnt := 254 }, 0x03, [], 0, rfl, rfl, rfl, .inl ⟨rfl, rfl⟩, by decide, rfl⟩⟩

theorem witness_CsumComputeGivesTheSum :
    (∃ (s : State) (rest : List InElem), s.idle ∧ s.script = [] ∧ s.inp = inStream [0xFF, 0x01] rest) ∧
    (∃ (s : State) (rest : List InElem), s.idle ∧ s.script = [] ∧ s.inp = inStream [] rest ∧ rest ≠ []) :=
  ⟨⟨withIn [0xFF, 0x01], [], ⟨rfl, rfl⟩, rfl, rfl⟩,
    ⟨{ State.reset with inp := inStream [] [.byte 1] }, [.byte 1], ⟨rfl, rfl⟩, rfl, rfl, by decide⟩⟩

theorem witness_CsumVerifyGivesTheVerdict :
    (∃ (s : State) (rest : List InElem), s.idle ∧ s.script = [] ∧ s.inp = inStream [0x00] rest) ∧
    (∃ (s : State) (rest : List InElem), s.idle ∧ s.script = [] ∧ s.inp = inStream [] rest) :=
  ⟨⟨withIn [0x00], [], ⟨rfl, rfl⟩, rfl, rfl⟩, ⟨withIn [], [], ⟨rfl, rfl⟩, rfl, rfl⟩⟩

theorem witness_EncodeSendsItsFrame :
    ∃ s : State, s.idle ∧ s.script = [] ∧ s.txReady = true ∧ (zeros 251).length ≤ 251 ∧ (zeros 0).length ≤ 251 ∧ 0 < 0 + 4 :=
  ⟨valid, ⟨rfl, rfl⟩, rfl, rfl, by rw [zeros_length], by rw [zeros_length]; decide, by decide⟩

theorem witness_DecodeGivesTheVerdict :
    (∃ (s : State) (rest : List InElem), decodeOperands s.meas (.decodeEcho 7) = some (7, true, true) ∧ s.idle ∧
      s.script = [] ∧ s.inp = inStream [0x5A, 0x07, 0x01, 0x03, 0x02, 0x01, 0x68] rest ∧
      decodeFrame [0x5A, 0x07, 0x01, 0x03, 0x02, 0x01, 0x68] 7 true true =
        .ok [0x5A, 0x07, 0x01, 0x03, 0x02, 0x01, 0x68]) ∧
    (∃ (s : State) (rest : List InElem), decodeOperands s.meas (.decode 0 true false) = some (0, true, false) ∧ s.idle ∧
      s.script = [] ∧ s.inp = inStream (zeros 256) rest) ∧
    (∃ (s : State) (rest : List InElem), decodeOperands s.meas .decodeMeas = some (9, false, true) ∧ s.idle ∧
      s.script = [] ∧ s.inp = inStream (zeros 8 ++ [1]) rest ∧
      decodeFrame (zeros 8 ++ [1]) 9 false true = .checksumMismatch) :=
  ⟨⟨withIn [0x5A, 0x07, 0x01, 0x03, 0x02, 0x01, 0x68], [], rfl, ⟨rfl, rfl⟩, rfl, rfl, by decide⟩,
    ⟨withIn (zeros 256), [], rfl, ⟨rfl, rfl⟩, rfl, rfl⟩,
    ⟨{ withIn (zeros 8 ++ [1]) with meas := .checksummed }, [], rfl, ⟨rfl, rfl⟩, rfl, rfl, by decide⟩⟩

theorem witness_EchoResponseIsValidated :
    (∃ raw, echoBuffer (.frameEchoResponse 0x08 0x01 [0x03, 0x02, 0x01] 0x69) = some raw ∧ raw.length ≤ 255 ∧
      raw[1]? ≠ some (BitVec.ofNat 8 raw.length)) ∧
    (∃ raw, echoBuffer (.frameEchoResponse 0x07 0x01 [0x03, 0x02, 0x01] 0x69) = some raw ∧ raw.length ≤ 255 ∧
      raw[1]? = some (BitVec.ofNat 8 raw.length) ∧ raw.getLast? ≠ some (sum8 raw.dropLast)) ∧
    (∃ raw, echoBuffer .rspGetVersion321 = some raw ∧ raw.length ≤ 255 ∧
      raw[1]? = some (BitVec.ofNat 8 raw.length) ∧ raw.getLast? = some (sum8 raw.dropLast)) ∧
    (∃ raw, echoBuffer (.frameEchoResponse 0xFF 0x01 (zeros 251) 0) = some raw ∧ raw.length = 255) ∧
    (∃ s : State, s.idle ∧ s.script = [] ∧ s.inp = []) :=
  ⟨⟨_, rfl, by decide, by decide⟩, ⟨_, rfl, by decide, by decide, by decide⟩, ⟨_, rfl, by decide, by decide, by decide⟩,
    ⟨_, rfl, by decide +kernel⟩, ⟨valid, ⟨rfl, rfl⟩, rfl, rfl⟩⟩

theorem witness_ResyncFindsTheFirstFrame :
    (∃ (s : State) (rest after : List RxAnswer), 2 ≤ (2 : Byte).toNat ∧ s.idle ∧ s.script = [] ∧
      s.rx = rxStream [0x59, 0x59] rest ∧ answersExhausted s.rxTail rest after ∧ after ≠ [] ∧
      resyncFrame [0x59, 0x59] 2 = .ok 0 [0x59, 0x59] []) ∧
    (∃ (s : State) (rest after : List RxAnswer), 2 ≤ (255 : Byte).toNat ∧ s.idle ∧ s.script = [] ∧
      s.rx = rxStream [0x59, 0x59, 0x00] rest ∧ answersExhausted s.rxTail rest after ∧
      resyncFrame [0x59, 0x59, 0x00] 255 = .timeout) :=
  ⟨⟨{ State.reset with rx := rxStream [0x59, 0x59] [.exhausted, .byte 0] }, [.exhausted, .byte 0], [.byte 0],
      by decide, ⟨rfl, rfl⟩, rfl, rfl, .inl rfl, by decide, by decide⟩,
    ⟨withRx [0x59, 0x59, 0x00], [], [], by decide, ⟨rfl, rfl⟩, rfl, rfl, .inr ⟨rfl, rfl, rfl⟩, by decide⟩⟩

theorem witness_MeasurementFrameIsLocated :
    (∃ s : State, s.idle ∧ s.script = [] ∧ s.rx = rxStream [0x59, 0x00] [] ∧ (zeros 0).length = s.meas.tailBytes ∧
      firstHeader ([0x59, 0x00] ++ [0x59]) = none) ∧
    (∃ s : State, s.idle ∧ s.script = [] ∧ s.rx = rxStream [] [] ∧ (zeros 1).length = s.meas.tailBytes ∧
      firstHeader ([] ++ [0x59]) = none) :=
  ⟨⟨withRx [0x59, 0x00], ⟨rfl, rfl⟩, rfl, rfl, rfl, by decide⟩,
    ⟨{ State.reset with meas := .checksummed }, ⟨rfl, rfl⟩, rfl, rfl, rfl, by decide⟩⟩

/-- `valid` after reset's registers have been used differently: no frame, other counters and buffers. -/
def otherHistory : State := { State.reset with acc := 0x68, pdSeen1 := true, decLen := 3, rbuf := [(5, 1)], pfFlag := true }

theorem otherHistory_inv : otherHistory.Inv :=
  ⟨⟨by decide, by decide, by decide⟩, by decide, ⟨by decide, by decide, by decide, by decide⟩,
    ⟨by decide, by decide, by decide, by decide⟩, ⟨by decide, by decide, by decide, by decide⟩,
    ⟨by decide, by decide, by decide, by decide⟩⟩

/-- A state with these moves to come. -/
def withScript (ms : List Move) (s : State) : State := { s with script := ms }

theorem withScript_inv {ms : List Move} {s : State} (h : s.Inv) : (withScript ms s).Inv :=
  ⟨⟨h.1.1, h.1.2, h.1.3⟩, h.2, ⟨h.3.1, h.3.2, h.3.3, h.3.4⟩, ⟨h.4.1, h.4.2, h.4.3, h.4.4⟩,
    ⟨h.5.1, h.5.2, h.5.3, h.5.4⟩, ⟨h.6.1, h.6.2, h.6.3, h.6.4⟩⟩

/-- Moves of every kind that takes part in a running operation. -/
def moves : List Move :=
  [.env (.supply (.byte 0x00)), .env .run, .env (.supply .endMark), .env (.arrive 0x59), .env (.sink true), .env .await]

theorem witness_OperationsDoNotDependOnHistory :
    (∃ (s₁ s₂ t₁ t₂ u₁ : State), s₁.Inv ∧ s₂.Inv ∧ s₁.idle ∧ s₂.idle ∧ sameEnvironment s₁ s₂ ∧
      (∀ m ∈ s₁.script, duringOperation m = true) ∧ s₁.script ≠ [] ∧ s₁ ≠ s₂ ∧ packetFramerOp (.decodeEcho 1) = true ∧
      exec (.decodeEcho 1) s₁ = .next t₁ ∧ exec (.decodeEcho 1) s₂ = .next t₂ ∧ run 7 t₁ = .next u₁) ∧
    (∃ (s₁ s₂ t₁ t₂ u₁ : State), s₁.Inv ∧ s₂.Inv ∧ s₁.idle ∧ s₂.idle ∧ sameEnvironment s₁ s₂ ∧
      (∀ m ∈ s₁.script, duringOperation m = true) ∧ s₁ ≠ s₂ ∧ resyncOp (.resync 2) = true ∧
      exec (.resync 2) s₁ = .next t₁ ∧ exec (.resync 2) s₂ = .next t₂ ∧ run 1 t₁ = .next u₁) :=
  ⟨⟨withScript moves valid, withScript moves otherHistory, _, _, _, withScript_inv valid_inv,
      withScript_inv otherHistory_inv, ⟨rfl, rfl⟩, ⟨rfl, rfl⟩, ⟨rfl, rfl, rfl, rfl, rfl, rfl, rfl, rfl⟩, by decide,
      by decide, by decide, rfl, rfl, rfl, rfl⟩,
    ⟨valid, otherHistory, _, _, _, valid_inv, otherHistory_inv, ⟨rfl, rfl⟩, ⟨rfl, rfl⟩,
      ⟨rfl, rfl, rfl, rfl, rfl, rfl, rfl, rfl⟩, by decide, by decide, rfl, rfl, rfl, rfl⟩⟩

theorem witness_BlockedOperationsHoldForEver :
    (∃ s : State, s.Inv ∧ s.script = [] ∧ s.pfPhase.encoding = true ∧ s.txReady = false) ∧
    (∃ s : State, s.Inv ∧ s.script = [] ∧ (s.pfPhase = .cRun ∨ s.pfPhase = .vRun ∨ s.pfPhase = .dRun) ∧ s.inp = []) :=
  ⟨⟨encoding, encoding_inv, rfl, rfl, rfl⟩, ⟨decoding, decoding_inv, rfl, .inr (.inr rfl), rfl⟩⟩

theorem witness_IdleBlocksTakeNoStep : ∃ s : State, s.idle ∧ s.script = [] := ⟨valid, ⟨rfl, rfl⟩, rfl⟩

theorem witness_ResyncEnds :
    ∃ s : State, s.Inv ∧ s.script = [] ∧ s.rsPhase ≠ .idle ∧ s.rxTail = .exhausted ∧ s.rx ≠ [] :=
  ⟨filling, filling_inv, rfl, by decide, rfl, by decide⟩

theorem hunting_answer (k : Nat) : hunting.rxTail.answer k = .byte 0x00 := by
  show ([RxAnswer.byte 0x00][k % 1]?).getD (.byte 0x00) = .byte 0x00
  rw [Nat.mod_one]; rfl

theorem witness_ResyncHuntsForEverOnAnEndlessChannel :
    ∃ s : State, s.script = [] ∧ s.pfPhase = .idle ∧ s.rsPhase = .sHunt ∧ s.pdSeen1 = false ∧ s.rx = [] ∧
      (∀ k, ∃ b, s.rxTail.answer k = .byte b) ∧
      (∀ k, ¬ (s.rxTail.answer k = .byte 0x59 ∧ s.rxTail.answer (k + 1) = .byte 0x59)) :=
  ⟨hunting, rfl, rfl, rfl, rfl, rfl, fun k => ⟨0x00, hunting_answer k⟩,
    fun k h => absurd ((hunting_answer k).symm.trans h.1) (by decide)⟩

theorem witness_ListedAnswersStandForAnyChannel :
    ∃ (s u : State) (n k : Nat), s.script = [] ∧ k ≤ n ∧ run k s = .next u ∧ u.rxTurn ≠ s.rxTurn :=
  ⟨hunting, _, 3, 2, rfl, by decide, rfl, by decide⟩

theorem witness_FrameOfARunningOperation :
    (∃ s t : State, blockStep s = .next t ∧ s.pfPhase = .cRun ∧ t.inp ≠ s.inp) ∧
    (∃ s t : State, blockStep s = .next t ∧ s.pfPhase = .vRun ∧ t.inp ≠ s.inp) ∧
    (∃ s t : State, blockStep s = .next t ∧ s.pfPhase.encoding = true ∧ t.tx ≠ s.tx) ∧
    (∃ s t : State, blockStep s = .next t ∧ s.pfPhase = .dRun ∧ t.rbuf ≠ s.rbuf) ∧
    (∃ s t : State, blockStep s = .next t ∧ s.rsPhase = .sHunt ∧ t.fbuf ≠ s.fbuf) ∧
    (∃ s t : State, blockStep s = .next t ∧ s.rsPhase = .sFill ∧ t.fbuf ≠ s.fbuf) :=
  ⟨⟨{ withIn [1] with pfPhase := .cRun }, _, rfl, rfl, by decide⟩,
    ⟨{ withIn [1] with pfPhase := .vRun }, _, rfl, rfl, by decide⟩,
    ⟨{ encoding with txReady := true }, _, rfl, rfl, by decide⟩,
    ⟨{ decoding with inp := [.byte 7] }, _, rfl, rfl, by decide⟩,
    ⟨{ withRx [0x59] with rsPhase := .sHunt, pdSeen1 := true }, _, rfl, rfl, by decide⟩,
    ⟨filling, _, rfl, rfl, by decide⟩⟩

theorem witness_OnlyCsumVerifyAndResetWriteTheFlag :
    (∃ s t : State, step s = .next t ∧ s.pfPhase = .vRun ∧ t.pfFlag ≠ s.pfFlag) ∧
    (∃ s t : State, step s = .next t ∧ resetNext s ∧ t.pfFlag ≠ s.pfFlag) :=
  ⟨⟨{ withIn [] with pfPhase := .vRun, csaHave := true }, _, rfl, rfl, by decide⟩,
    ⟨withMove .reset { State.reset with pfFlag := true }, _, rfl, ⟨_, rfl⟩, by decide⟩⟩

theorem filled_inv : ({ filling with rsE := 4 } : State).Inv :=
  ⟨⟨by decide, by decide, by decide⟩, by decide, ⟨by decide, by decide, by decide, by decide⟩,
    ⟨by decide, by decide, by decide, by decide⟩, ⟨by decide, by decide, by decide, by decide⟩,
    ⟨by decide, by decide, by decide, by decide⟩⟩

theorem decoded_inv : ({ decoding with decE := 1, inp := [.endMark] } : State).Inv :=
  ⟨⟨by decide, by decide, by decide⟩, by decide, ⟨by decide, by decide, by decide, by decide⟩,
    ⟨by decide, by decide, by decide, by decide⟩, ⟨by decide, by decide, by decide, by decide⟩,
    ⟨by decide, by decide, by decide, by decide⟩⟩

theorem witness_ValidBitsFollowTheirOperations :
    (∃ s t : State, s.Inv ∧ step s = .next t ∧ s.rbufValid = false ∧ t.rbufValid = true) ∧
    (∃ s t : State, s.Inv ∧ step s = .next t ∧ s.rbufValid = true ∧ t.rbufValid = false) ∧
    (∃ s t : State, s.Inv ∧ step s = .next t ∧ s.fbufValid = false ∧ t.fbufValid = true) ∧
    (∃ s t : State, s.Inv ∧ step s = .next t ∧ s.fbufValid = true ∧ t.fbufValid = false) :=
  ⟨⟨{ decoding with decE := 1, inp := [.endMark] }, _, decoded_inv, rfl, rfl, rfl⟩,
    ⟨withScript [.request (.command [4, 7, 3])] valid, _, withScript_inv valid_inv, rfl, rfl, rfl⟩,
    ⟨{ filling with rsE := 4 }, _, filled_inv, rfl, rfl, rfl⟩,
    ⟨withScript [.request (.command [5, 8])] valid, _, withScript_inv valid_inv, rfl, rfl, rfl⟩⟩

theorem witness_APhaseReturnsToIdleExactlyWithItsResult :
    (∃ s t : State, s.Inv ∧ step s = .next t ∧ ¬ resetNext s ∧ s.pfPhase ≠ .idle ∧ t.pfPhase = .idle) ∧
    (∃ s t : State, s.Inv ∧ step s = .next t ∧ ¬ resetNext s ∧ s.rsPhase ≠ .idle ∧ t.rsPhase = .idle) ∧
    (∃ s t : State, s.Inv ∧ step s = .next t ∧ ¬ resetNext s ∧ s.rsPhase ≠ .idle ∧ t.rsPhase ≠ .idle) :=
  ⟨⟨{ decoding with decE := 1, inp := [.endMark] }, _, decoded_inv, rfl, by rintro ⟨r, h⟩; simp [decoding, State.reset] at h,
      by decide, rfl⟩,
    ⟨{ filling with rsE := 4 }, _, filled_inv, rfl, by rintro ⟨r, h⟩; simp [filling, State.reset] at h, by decide, rfl⟩,
    ⟨filling, _, filling_inv, rfl, by rintro ⟨r, h⟩; simp [filling, State.reset] at h, by decide, by decide⟩⟩

theorem witness_TransmitStreamOnlyGrows : ∃ s t : State, step s = .next t ∧ t.tx ≠ s.tx :=
  ⟨{ encoding with txReady := true }, _, rfl, by decide⟩

theorem witness_ReceiveChannelIsFirstInFirstOut :
    (∃ s t : State, step s = .next t ∧ s.rsPhase ≠ .idle ∧ t.rx ≠ s.rx) ∧
    (∃ s t : State, step s = .next t ∧ s.pfPhase ≠ .idle ∧ t.rx ≠ s.rx) :=
  ⟨⟨filling, _, rfl, by decide, by decide⟩, ⟨withMove (.arrive 1) decoding, _, rfl, by decide, by decide⟩⟩

/-- `valid`, with a read of the host to come. -/
def asked (p : ReadPort) : State := withScript [.env (.read p)] valid

theorem witness_BufferReadsHaveAValueExactlyInAValidFrame :
    (∃ (s : State) (rest : List Move), s.Inv ∧ s.script = .env (.read (.rbuf 1)) :: rest ∧ s.pfPhase = .idle ∧
      s.pfResult = .ok ∧ s.rbufValid = true ∧ (1 : Byte).toNat < s.decE.toNat) ∧
    (∃ (s : State) (rest : List Move), s.Inv ∧ s.script = .env (.read (.rbuf 2)) :: rest ∧ s.pfPhase = .idle ∧
      s.pfResult = .ok ∧ s.rbufValid = true ∧ ¬ (2 : Byte).toNat < s.decE.toNat) ∧
    (∃ (s : State) (rest : List Move), s.Inv ∧ s.script = .env (.read (.fbuf 1)) :: rest ∧ s.rsPhase = .idle ∧
      s.rsResult = .ok ∧ s.fbufValid = true ∧ (1 : Byte).toNat < s.rsE.toNat) ∧
    (∃ (s : State) (rest : List Move), s.Inv ∧ s.script = .env (.read (.fbuf 2)) :: rest ∧ s.rsPhase = .idle ∧
      s.rsResult = .ok ∧ s.fbufValid = true ∧ ¬ (2 : Byte).toNat < s.rsE.toNat) :=
  ⟨⟨asked (.rbuf 1), _, withScript_inv valid_inv, rfl, rfl, rfl, rfl, by decide⟩,
    ⟨asked (.rbuf 2), _, withScript_inv valid_inv, rfl, rfl, rfl, rfl, by decide⟩,
    ⟨asked (.fbuf 1), _, withScript_inv valid_inv, rfl, rfl, rfl, rfl, by decide⟩,
    ⟨asked (.fbuf 2), _, withScript_inv valid_inv, rfl, rfl, rfl, rfl, by decide⟩⟩

theorem witness_StatusReadsShowTheFieldsWithoutEffect :
    (∀ p : ReadPort, ∃ (s : State) (rest : List Move), s.script = .env (.read p) :: rest) ∧
    (∃ (s : State) (rest : List Move), s.script = .env (.read .pfFlag) :: rest ∧
      s.pfPhase = .idle ∧ s.pfResult = .ok ∧ s.pfOp = some .csumVerify) ∧
    (∃ (s : State) (rest : List Move), s.script = .env (.read .pfCsum) :: rest ∧
      s.pfPhase = .idle ∧ s.pfResult = .ok ∧ s.pfOp = some .csumCompute) ∧
    (∃ (s : State) (rest : List Move) (lo hi : Byte), s.script = .env (.read .measTemperature) :: rest ∧
      viewOffset .measTemperature = some 6 ∧ s.pfPhase = .idle ∧ s.pfResult = .ok ∧ s.rbufValid = true ∧
      8 ≤ s.decE.toNat ∧ s.decE = 8 ∧ Memory.read s.rbuf 6 = some lo ∧ Memory.read s.rbuf (6 + 1) = some hi) ∧
    (∃ (s : State) (rest : List Move), s.script = .env (.read .measTemperature) :: rest ∧ s.decE = 7 ∧
      ¬ (s.pfPhase = .idle ∧ s.pfResult = .ok ∧ s.rbufValid = true ∧ 8 ≤ s.decE.toNat)) :=
  ⟨fun p => ⟨asked p, _, rfl⟩,
    ⟨withMove (.read .pfFlag) { valid with pfOp := some .csumVerify }, _, rfl, rfl, rfl, rfl⟩,
    ⟨withMove (.read .pfCsum) { valid with pfOp := some .csumCompute }, _, rfl, rfl, rfl, rfl⟩,
    ⟨{ asked .measTemperature with decE := 8, rbuf := [(6, 0xD0), (7, 0x07)] }, _, 0xD0, 0x07, rfl, rfl, rfl, rfl, rfl,
      by decide, rfl, by decide, by decide⟩,
    ⟨{ asked .measTemperature with decE := 7 }, _, rfl, rfl, by decide⟩⟩

/-- An endless channel that answers 01, 02, `Exhausted`, over and over, with one listed byte ahead. -/
def endless : State :=
  { withMove (.readExact 3) (withRx [7]) with rxTail := .cycle (.byte 1) [.byte 2, .exhausted], rxTurn := 3 }

theorem endless_answers : ∀ k, k < ([1, 2] : List Byte).length →
    ([1, 2] : List Byte)[k]?.map .byte = some (endless.rxTail.answer (endless.rxTurn + k)) := by decide

theorem witness_EnvironmentMovesChangeOnlyTheirStreams :
    (∃ (s : State) (rest : List Move) (x : InElem), s.script = .env (.supply x) :: rest ∧ behindEndMark s) ∧
    (∃ (s : State) (rest : List Move) (x : InElem), s.script = .env (.supply x) :: rest ∧ ¬ behindEndMark s) ∧
    (∃ (s : State) (rest : List Move) (b : Byte), s.script = .env (.arrive b) :: rest) ∧
    (∃ (s : State) (rest : List Move) (r : Bool), s.script = .env (.sink r) :: rest) ∧
    (∃ (s : State) (rest : List Move) (more : List RxAnswer), s.script = .env (.readExact 2) :: rest ∧ s.idle ∧
      s.rx = rxStream [1, 2] more ∧ [1, 2].length = (2 : Byte).toNat ∧ more ≠ []) ∧
    (∃ (s : State) (rest : List Move) (more after : List RxAnswer), s.script = .env (.readExact 3) :: rest ∧ s.idle ∧
      s.rx = rxStream [1, 2] more ∧ [1, 2].length < (3 : Byte).toNat ∧ answersExhausted s.rxTail more after) ∧
    (∃ (s : State) (rest : List Move) (bs cs : List Byte) (n : Byte), s.script = .env (.readExact n) :: rest ∧ s.idle ∧
      s.rxTail ≠ .exhausted ∧ s.rx = rxStream bs [] ∧
      (∀ k, k < cs.length → cs[k]?.map .byte = some (s.rxTail.answer (s.rxTurn + k))) ∧
      bs.length + cs.length = n.toNat) ∧
    (∃ (s : State) (rest : List Move) (bs cs : List Byte) (n : Byte), s.script = .env (.readExact n) :: rest ∧ s.idle ∧
      s.rxTail ≠ .exhausted ∧ s.rx = rxStream bs [] ∧
      (∀ k, k < cs.length → cs[k]?.map .byte = some (s.rxTail.answer (s.rxTurn + k))) ∧
      bs.length + cs.length < n.toNat ∧ s.rxTail.answer (s.rxTurn + cs.length) = .exhausted) ∧
    (∃ (s : State) (rest : List Move), s.script = .env (.readExact 3) :: rest ∧ ¬ s.idle) ∧
    (∃ (s : State) (rest : List Move), s.script = .env .presentFbuf :: rest ∧ behindEndMark s) ∧
    (∃ (s : State) (rest : List Move) (bs : List Byte), s.script = .env .presentFbuf :: rest ∧ ¬ behindEndMark s ∧
      s.rsPhase = .idle ∧ s.rsResult = .ok ∧ s.fbufValid = true ∧ bs.length = s.rsE.toNat ∧
      ∀ j, j < s.rsE.toNat → Memory.read s.fbuf j = bs[j]?) ∧
    (∃ (s : State) (rest : List Move), s.script = .env .presentFbuf :: rest ∧ ¬ behindEndMark s ∧
      ¬ (s.rsPhase = .idle ∧ s.rsResult = .ok ∧ s.fbufValid = true)) ∧
    (∃ (s : State) (rest : List Move) (b : Block) (n : Nat), s.script = .env (.unlessOk b n) :: rest ∧ s.result b = .ok) ∧
    (∃ (s : State) (rest : List Move), s.script = .env .await :: rest ∧ s.idle) ∧
    (∃ (s : State) (rest : List Move), s.script = .env .await :: rest ∧ ¬ s.idle) ∧
    (∃ (s : State) (rest : List Move), s.script = .env .run :: rest) :=
  ⟨⟨withMove (.supply .endMark) { withIn [] with pfPhase := .dRun }, _, _, rfl, .inr (.inr rfl), by decide⟩,
    ⟨withMove (.supply .endMark) decoding, _, _, rfl, fun h => absurd h.2 (by decide)⟩,
    ⟨withMove (.arrive 1) valid, _, _, rfl⟩, ⟨withMove (.sink false) valid, _, _, rfl⟩,
    ⟨withMove (.readExact 2) (withRx [1, 2, 3]), _, [.byte 3], rfl, ⟨rfl, rfl⟩, rfl, by decide, by decide⟩,
    ⟨withMove (.readExact 3) (withRx [1, 2]), _, [], [], rfl, ⟨rfl, rfl⟩, rfl, by decide, .inr ⟨rfl, rfl, rfl⟩⟩,
    ⟨endless, _, [7], [1, 2], 3, rfl, ⟨rfl, rfl⟩, by decide, rfl, endless_answers, by decide⟩,
    ⟨withMove (.readExact 4) endless, _, [7], [1, 2], 4, rfl, ⟨rfl, rfl⟩, by decide, rfl, endless_answers, by decide,
      by decide⟩,
    ⟨withMove (.readExact 3) filling, _, rfl, by intro h; exact absurd h.2 (by decide)⟩,
    ⟨withMove .presentFbuf { withIn [] with pfPhase := .dRun }, _, rfl, .inr (.inr rfl), by decide⟩,
    ⟨withMove .presentFbuf { valid with pfPhase := .dRun }, _, [0x59, 0x59], rfl, fun h => absurd h.2 (by decide), rfl,
      rfl, rfl, rfl, by decide⟩,
    ⟨withMove .presentFbuf State.reset, _, rfl, fun h => absurd h.2 (by decide), by decide⟩,
    ⟨withMove (.unlessOk .uartResyncMatcher 1) valid, _, _, _, rfl, rfl⟩,
    ⟨withMove .await valid, _, rfl, ⟨rfl, rfl⟩⟩,
    ⟨withMove .await filling, _, rfl, by intro h; exact absurd h.2 (by decide)⟩,
    ⟨withMove .run filling, _, rfl⟩⟩

theorem witness_MeasurementViewShowsTheFields :
    (∃ s : State, s.idle ∧ s.script = [] ∧ s.meas = .plain ∧
      s.inp = inStream (goodMeasurement s.meas 0x03E8 0x0064 0x07D0) []) ∧
    (∃ s : State, s.idle ∧ s.script = [] ∧ s.meas = .checksummed ∧
      s.inp = inStream (goodMeasurement s.meas 0x03E8 0x0064 0x07D0) []) :=
  ⟨⟨withIn measM, ⟨rfl, rfl⟩, rfl, rfl, by decide⟩,
    ⟨{ withIn (measM ++ [0xD8]) with meas := .checksummed }, ⟨rfl, rfl⟩, rfl, rfl, by decide⟩⟩

theorem witness_ReadMeasUartShowsTheFields :
    (∃ s : State, s.idle ∧ s.inp = [] ∧ s.script = readMeasUart s.meas ∧ s.meas = .plain ∧
      s.rx = rxStream ([0x59, 0x00] ++ goodMeasurement s.meas 0x03E8 0x0064 0x07D0) [.exhausted] ∧
      firstHeader ([0x59, 0x00] ++ [0x59]) = none) ∧
    (∃ s : State, s.idle ∧ s.inp = [] ∧ s.script = readMeasUart s.meas ∧ s.meas = .checksummed ∧
      s.rx = rxStream ([] ++ goodMeasurement s.meas 0x03E8 0x0064 0x07D0) [] ∧
      firstHeader ([] ++ [0x59]) = none) :=
  ⟨⟨{ State.reset with
        script := readMeasUart .plain
        rx := rxStream ([0x59, 0x00] ++ goodMeasurement .plain 0x03E8 0x0064 0x07D0) [.exhausted] },
      ⟨rfl, rfl⟩, rfl, rfl, rfl, rfl, by decide⟩,
    ⟨{ State.reset with
        script := readMeasUart .checksummed
        rx := rxStream ([] ++ goodMeasurement .checksummed 0x03E8 0x0064 0x07D0) []
        meas := .checksummed },
      ⟨rfl, rfl⟩, rfl, rfl, rfl, rfl, by decide⟩⟩

theorem witness_ReadMeasUartEndsWithoutDecodeOnTimeout :
    (∃ (s : State) (rest after : List RxAnswer), s.idle ∧ s.script = readMeasUart s.meas ∧
      s.rx = rxStream [0x59, 0x59, 0x00] rest ∧ answersExhausted s.rxTail rest after ∧ after ≠ [] ∧
      resyncFrame [0x59, 0x59, 0x00] s.meas.size = .timeout) ∧
    (∃ (s : State) (rest after : List RxAnswer), s.idle ∧ s.script = readMeasUart s.meas ∧ s.meas = .checksummed ∧
      s.rx = rxStream [] rest ∧ answersExhausted s.rxTail rest after ∧ resyncFrame [] s.meas.size = .timeout) :=
  ⟨⟨{ State.reset with
        script := readMeasUart .plain, rx := rxStream [0x59, 0x59, 0x00] [.exhausted, .byte 0] },
      _, [.byte 0], ⟨rfl, rfl⟩, rfl, rfl, .inl rfl, by decide, by decide⟩,
    ⟨{ State.reset with script := readMeasUart .checksummed, meas := .checksummed }, [], [], ⟨rfl, rfl⟩, rfl, rfl, rfl,
      .inr ⟨rfl, rfl, rfl⟩, by decide⟩⟩

theorem witness_FeedingHoldsBackTheLastByte : ([1, 2] : List Byte).getLast? = some 2 ∧ ([] : List Byte) = [] := by decide

theorem witness_ChecksumDetectsEverySingleBitError :
    verify [0x5A, 0x04, 0x01, 0x5F] = true ∧ ([0x5A, 0x04, 0x01, 0x5F] : List Byte)[3]? = some 0x5F ∧ 7 < 8 := by decide

theorem witness_EncodedFrameByteByByte : (zeros 0).length ≤ 251 ∧ (zeros 251).length ≤ 251 ∧ 250 < (zeros 251).length := by
  rw [zeros_length, zeros_length]; decide

theorem witness_EncodedFrameDecodesAndDeterminesItsOperands :
    (zeros 251).length ≤ 251 ∧ encodeFrame 0x03 (zeros 251) = encodeFrame 0x03 (zeros 251) := ⟨by rw [zeros_length], rfl⟩

theorem witness_DecodeRejectsEverySingleBitError :
    (([0x5A, 0x08, 0x01, 0x03, 0x02, 0x01, 0x69] : List Byte).length = (7 : Byte).toNat ∧
      ([0x5A, 0x08, 0x01, 0x03, 0x02, 0x01, 0x69] : List Byte)[1]? = some 0x08 ∧ (0x08 : Byte) ≠ 7) ∧
    (decodeFrame [0x02, 0x02] 2 true true = .ok [0x02, 0x02] ∧ ([0x02, 0x02] : List Byte)[0]? = some 0x02 ∧ 0 < 8) ∧
    (decodeFrame [0x02, 0x02] 2 true true = .ok [0x02, 0x02] ∧ ([0x02, 0x02] : List Byte)[1]? = some 0x02 ∧ 7 < 8) ∧
    ([0x0A, 0x00] : List Byte).length ≤ 251 ∧ decodeFrame [] 0 false false = .ok [] := by
  decide

theorem witness_ResyncReturnsAStretchOfTheStream :
    (2 ≤ 2 ∧ resyncFrame [0x59, 0x59] 2 = .ok 0 [0x59, 0x59] []) ∧
    (2 ≤ 4 ∧ 4 ≤ ([1, 2] : List Byte).length + 2 ∧ firstHeader ([0x59, 0x00] ++ [0x59]) = none) ∧
    (∀ k, ¬ (([0x59] : List Byte)[k]? = some hdr0 ∧ ([0x59] : List Byte)[k + 1]? = some hdr1)) :=
  ⟨by decide, by decide, by intro k h; simp at h⟩

theorem witness_QuantitiesAreLittleEndian : (leBytes 4 115200)[3]? = some 0x00 ∧ 3 < 4 := by decide

end Sys2Proof.Tests
end

section
/-! PROOF. The state after reset (10_state R37). -/

namespace Sys2Proof.Machine

/-- R33, R37: the result field of either block is 0. -/
theorem reset_result_code (b : Block) : (State.reset.result b).code = 0 := by
  cases b with
  | packetFramer => rfl
  | uartResyncMatcher => rfl

/-- R37, R39: no index of a buffer has a value before something is stored in it. -/
theorem reset_buffers_unwritten (j : Nat) :
    Memory.read State.reset.argbuf j = none ∧ Memory.read State.reset.rbuf j = none ∧
      Memory.read State.reset.fbuf j = none :=
  ⟨Memory.read_nil j, Memory.read_nil j, Memory.read_nil j⟩

/-- Settles O6: the phases, the results and the buffers each by their fact; every flag, valid bit and scalar is the
value `State.reset` names. -/
theorem machineAfterReset : Obligations.MachineAfterReset := by
  unfold Obligations.MachineAfterReset
  have phases_idle : State.reset.idle := ⟨rfl, rfl⟩
  have pfResult_code : State.reset.pfResult.code = 0 := reset_result_code .packetFramer
  have rsResult_code : State.reset.rsResult.code = 0 := reset_result_code .uartResyncMatcher
  exact ⟨phases_idle, pfResult_code, rsResult_code, rfl, rfl, rfl, rfl, rfl, rfl, rfl, rfl, rfl, rfl, rfl, rfl, rfl, rfl, rfl,
    rfl, rfl, rfl, reset_buffers_unwritten⟩

end Sys2Proof.Machine
end

section
/-! PROOF. The operation-select code NOP (30_encoding R100). -/

namespace Sys2Proof.Machine

/-- The operation that a start with code 0 selects. -/
theorem exec_nop (s : State) : exec .nop s = execNop s := rfl

/-- The effect of NOP does not depend on the phase of either block: R100 speaks of an idle block, R29 of a busy one. -/
@[simp] theorem execNop_eq_next (s : State) : execNop s = .next s := rfl

/-- Settles O10: code 0 selects NOP, whose effect is to keep the state. -/
theorem nopChangesNothing : Obligations.NopChangesNothing := by
  unfold Obligations.NopChangesNothing
  intro s
  calc exec .nop s = execNop s := exec_nop s
    _ = .next s := execNop_eq_next s

end Sys2Proof.Machine
end

section
/-! PROOF. The functions of the checksum (40_checksum_accumulator R110, R111, R118, R119). -/

namespace Sys2Proof.Machine

@[simp] theorem sum8_nil : sum8 [] = 0 := rfl

@[simp] theorem sum8_cons (b : Byte) (bs : List Byte) : sum8 (b :: bs) = b + sum8 bs := rfl

/-- R118: the sum of a concatenation is the sum of the parts'. -/
@[simp] theorem sum8_append (a b : List Byte) : sum8 (a ++ b) = sum8 a + sum8 b := by
  induction a with
  | nil => simp
  | cons x xs ih => rw [List.cons_append, sum8_cons, sum8_cons, ih, BitVec.add_assoc]

/-- R110: `sum8` as a number. -/
theorem sum8_toNat (bs : List Byte) : (sum8 bs).toNat = (bs.map BitVec.toNat).sum % 256 := by
  induction bs with
  | nil => rfl
  | cons b bs ih => simp [BitVec.toNat_add, ih]

/-- The last byte added to the sum of the bytes before it completes the sum; of the empty sequence, both are 0. -/
theorem sum8_dropLast_add_getLastD (bs : List Byte) : sum8 bs.dropLast + bs.getLastD 0 = sum8 bs := by
  cases bs using List.reverseRecOn with
  | nil => rfl
  | append_singleton p k => simp

/-- A sum tells apart two sequences that differ in one byte only (R119). -/
theorem sum8_set_ne {bs : List Byte} {i : Nat} {b c : Byte} (hi : bs[i]? = some b) (hc : c ≠ b) :
    sum8 (bs.set i c) ≠ sum8 bs := by
  induction bs generalizing i with
  | nil => simp at hi
  | cons x xs ih =>
    cases i with
    | zero =>
      obtain rfl : x = b := by simpa using hi
      simpa using hc
    | succ i =>
      have hxs : sum8 (xs.set i c) ≠ sum8 xs := ih (by simpa using hi)
      simpa using hxs

/-- R111, D9: the empty sequence does not verify. -/
@[simp] theorem verify_nil : verify [] = false := rfl

/-- R111: a nonempty sequence verifies when the sum of the bytes before its last is the last. -/
@[simp] theorem verify_concat (p : List Byte) (k : Byte) : verify (p ++ [k]) = (sum8 p == k) := by
  simp [verify]

/-- R111 in the terms of the checksum unit (R113): a last byte is held, and it equals the sum of those before it. -/
theorem verify_eq (bs : List Byte) : verify bs = (!bs.isEmpty && sum8 bs.dropLast == bs.getLastD 0) := by
  cases bs using List.reverseRecOn with
  | nil => rfl
  | append_singleton p k => simp

/-- A verified sequence does not verify once one of its bytes is another (R119): a change before the last byte changes
the sum alone, a change of the last byte leaves the sum as it was. -/
theorem verify_set_of_ne {bs : List Byte} {i : Nat} {b c : Byte} (hv : verify bs = true) (hi : bs[i]? = some b)
    (hc : c ≠ b) : verify (bs.set i c) = false := by
  cases bs using List.reverseRecOn with
  | nil => simp at hv
  | append_singleton p k =>
    have hk : sum8 p = k := by simpa using hv
    by_cases hip : i < p.length
    · rw [List.getElem?_append_left hip] at hi
      have hp : sum8 (p.set i c) ≠ sum8 p := sum8_set_ne hi hc
      rw [List.set_append_left _ _ hip, verify_concat]
      simpa [hk] using hp
    · obtain rfl : i = p.length := by
        have hlt : i < p.length + 1 := by simpa using (List.getElem?_eq_some_iff.1 hi).1
        omega
      obtain rfl : k = b := by simpa using hi
      rw [List.set_append_right _ _ le_rfl]
      simpa [hk] using hc.symm

/-- Flipping one bit of a byte gives another byte: the mask is not zero. -/
theorem xor_one_shiftLeft_ne (b : Byte) {k : Nat} (hk : k < 8) : b ^^^ (1 <<< k) ≠ b := by
  have hmask : ∀ j < 8, ((1 <<< j : Nat) : Byte) ≠ 0 := by decide
  intro h
  exact hmask k hk ((BitVec.xor_right_inj b).1 (h.trans BitVec.xor_zero.symm))

/-- Settles O52: the sum as a number by induction on the sequence, the rest by the law of concatenation. -/
theorem sumIsTheSumModulo256 : Obligations.SumIsTheSumModulo256 := by
  unfold Obligations.SumIsTheSumModulo256
  refine ⟨sum8_toNat, fun a b => ⟨sum8_append a b, ?_⟩⟩
  rw [sum8_append, sum8_append, BitVec.add_comm]

/-- Settles O54: a flipped bit is a changed byte, and every change of one byte is detected. -/
theorem checksumDetectsEverySingleBitError : Obligations.ChecksumDetectsEverySingleBitError := by
  unfold Obligations.ChecksumDetectsEverySingleBitError
  refine ⟨fun p => ?_, fun bs i k b hv hi hk => ?_⟩
  · rw [verify_concat, beq_self_eq_true]
  · exact verify_set_of_ne hv hi (xor_one_shiftLeft_ne b hk)

end Sys2Proof.Machine
end

section
/-! PROOF. The checksum unit after any number of adds or feeds (40_checksum_accumulator R112 to R114). -/

namespace Sys2Proof.Machine

/-- R112: adds put the sum of the sequence on top of `acc` and change nothing else. -/
theorem foldl_csaAdd (bs : List Byte) (s : State) :
    bs.foldl (fun t b => csaAdd b t) s = { s with acc := s.acc + sum8 bs } := by
  induction bs generalizing s with
  | nil => simp
  | cons b bs ih => rw [List.foldl_cons, ih]; simp [csaAdd, BitVec.add_assoc]

/-- R114: after a clear, feeds hold the last byte back and put the sum of the others in `acc`. -/
theorem foldl_csaFeed_csaClear (bs : List Byte) (s : State) :
    bs.foldl (fun t b => csaFeed b t) (csaClear s) =
      { s with acc := sum8 bs.dropLast, csaHave := !bs.isEmpty, csaLast := bs.getLastD 0 } := by
  induction bs using List.reverseRecOn with
  | nil => rfl
  | append_singleton p k ih =>
    have hsum := sum8_dropLast_add_getLastD p
    rw [List.foldl_append, ih, List.foldl_cons, List.foldl_nil]
    cases p with
    | nil => rfl
    | cons x xs =>
      rw [List.dropLast_concat, List.getLastD_concat, ← hsum]
      rfl

/-- R114: after a clear and the feeds of a sequence `CSA.match` is its verification. -/
theorem csaMatch_foldl_csaFeed (bs : List Byte) (s : State) :
    csaMatch (bs.foldl (fun t b => csaFeed b t) (csaClear s)) = verify bs := by
  rw [foldl_csaFeed_csaClear, verify_eq]; rfl

/-- Settles O53, by what the registers hold after adds and after feeds. -/
theorem feedingHoldsBackTheLastByte : Obligations.FeedingHoldsBackTheLastByte := by
  unfold Obligations.FeedingHoldsBackTheLastByte
  intro bs s
  refine ⟨?_, ?_, ?_, csaMatch_foldl_csaFeed bs s⟩
  · rw [foldl_csaAdd]; simp
  · rintro rfl; exact ⟨rfl, rfl⟩
  · intro k hk
    obtain ⟨p, rfl⟩ := List.getLast?_eq_some_iff.1 hk
    rw [foldl_csaFeed_csaClear]
    simp

end Sys2Proof.Machine
end

section
/-! PROOF. CSUM_COMPUTE and CSUM_VERIFY of a whole sequence (40_checksum_accumulator R115 to R117). -/

namespace Sys2Proof.Machine

/-- The same state with `rest` on `IN`. -/
def State.withInp (s : State) (rest : List InElem) : State := { s with inp := rest }

/-- packet_framer is in phase p, the other block is idle and the environment makes no move: every step is one of p. -/
structure State.RunsIn (s : State) (p : PfPhase) : Prop where
  script_nil : s.script = []
  rs_idle : s.rsPhase = .idle
  phase : s.pfPhase = p

theorem State.RunsIn.step_eq {s : State} {p : PfPhase} (h : s.RunsIn p) : step s = pfStep s := by
  rw [step_nil h.script_nil, blockStep_pf h.rs_idle]

theorem State.RunsIn.withInp {s : State} {p : PfPhase} (h : s.RunsIn p) (rest : List InElem) :
    (s.withInp rest).RunsIn p := ⟨h.script_nil, h.rs_idle, h.phase⟩

/-- Phase p takes one element off `IN` in one step: with a byte it does `f`, with the end mark `g`, and neither looks at
what stands behind that element. -/
structure ReadsSequence (p : PfPhase) (f : Byte → State → State) (g : State → State) : Prop where
  step_byte : ∀ {s : State} {b : Byte} {rest : List InElem}, s.RunsIn p → s.inp = .byte b :: rest →
    step s = .next (f b (s.withInp rest))
  step_endMark : ∀ {s : State} {rest : List InElem}, s.RunsIn p → s.inp = .endMark :: rest →
    step s = .next (g (s.withInp rest))
  keeps_runsIn : ∀ {s : State} (b : Byte), s.RunsIn p → (f b s).RunsIn p
  comm_withInp : ∀ (s : State) (b : Byte) (rest : List InElem), f b (s.withInp rest) = (f b s).withInp rest

/-- Such a phase folds `f` over a sequence of any length, one step per byte, and does `g` in one more (R117). -/
theorem ReadsSequence.run_inStream {p : PfPhase} {f : Byte → State → State} {g : State → State}
    (hp : ReadsSequence p f g) {bs : List Byte} {rest : List InElem} {s : State} (hs : s.RunsIn p)
    (hin : s.inp = Claims.inStream bs rest) :
    run (bs.length + 1) s = .next (g (bs.foldl (fun t b => f b t) (s.withInp rest))) := by
  induction bs generalizing s with
  | nil => exact run_succ_next (hp.step_endMark hs hin)
  | cons b bs ih =>
    have hstep : step s = .next ((f b s).withInp (Claims.inStream bs rest)) := by
      rw [hp.step_byte hs hin, hp.comm_withInp]; rfl
    calc run (bs.length + 1 + 1) s
        = run (bs.length + 1) ((f b s).withInp (Claims.inStream bs rest)) := run_succ_next hstep
      _ = .next (g (bs.foldl (fun t b => f b t) ((f b s).withInp rest))) := ih ((hp.keeps_runsIn b hs).withInp _) rfl
      _ = .next (g (bs.foldl (fun t b => f b t) (f b (s.withInp rest)))) := by rw [hp.comm_withInp]

/-! ### One step of each phase -/

theorem State.RunsIn.step_cRun {s : State} (h : s.RunsIn .cRun) : step s = cRunStep s := by
  rw [h.step_eq, pfStep, h.phase]

theorem State.RunsIn.step_vRun {s : State} (h : s.RunsIn .vRun) : step s = vRunStep s := by
  rw [h.step_eq, pfStep, h.phase]

theorem cRunStep_byte {s : State} {b : Byte} {rest : List InElem} (h : s.inp = .byte b :: rest) :
    cRunStep s = .next (csaAdd b (s.withInp rest)) := by
  unfold cRunStep; rw [inPop_cons h]; rfl

theorem cRunStep_endMark {s : State} {rest : List InElem} (h : s.inp = .endMark :: rest) :
    cRunStep s = .next (finishPf .ok (s.withInp rest)) := by
  unfold cRunStep; rw [inPop_cons h]; rfl

theorem vRunStep_byte {s : State} {b : Byte} {rest : List InElem} (h : s.inp = .byte b :: rest) :
    vRunStep s = .next (csaFeed b (s.withInp rest)) := by
  unfold vRunStep; rw [inPop_cons h]; rfl

/-- The end of CSUM_VERIFY: the flag, then `finish` (R117). -/
def csumVerifyEnd (s : State) : State := finishPf .ok (setFlag (csaMatch s) s)

theorem vRunStep_endMark {s : State} {rest : List InElem} (h : s.inp = .endMark :: rest) :
    vRunStep s = .next (csumVerifyEnd (s.withInp rest)) := by
  unfold vRunStep; rw [inPop_cons h]; rfl

/-- R117: phase `C_RUN` adds each byte and finishes. -/
theorem readsSequence_cRun : ReadsSequence .cRun csaAdd (finishPf .ok) where
  step_byte hs hin := hs.step_cRun.trans (cRunStep_byte hin)
  step_endMark hs hin := hs.step_cRun.trans (cRunStep_endMark hin)
  keeps_runsIn _ hs := ⟨hs.script_nil, hs.rs_idle, hs.phase⟩
  comm_withInp _ _ _ := rfl

/-- R117: phase `V_RUN` feeds each byte and writes the flag at the end mark. -/
theorem readsSequence_vRun : ReadsSequence .vRun csaFeed csumVerifyEnd where
  step_byte hs hin := hs.step_vRun.trans (vRunStep_byte hin)
  step_endMark hs hin := hs.step_vRun.trans (vRunStep_endMark hin)
  keeps_runsIn _ hs := ⟨hs.script_nil, hs.rs_idle, hs.phase⟩
  comm_withInp _ _ _ := rfl

/-! ### The whole operations -/

/-- A start of packet_framer with both blocks idle is accepted. -/
theorem startPf_idle {s : State} (h : s.idle) (accepted : State) : startPf s accepted = .next accepted := by
  obtain ⟨hp, hr⟩ := h
  simp [startPf, hp, hr]

/-- The operation that a start with code 1 selects, accepted (R115). -/
theorem exec_csumCompute_idle {s : State} (h : s.idle) : exec .csumCompute s = .next (csumComputeStart s) :=
  startPf_idle h _

/-- The operation that a start with code 2 selects, accepted (R116). -/
theorem exec_csumVerify_idle {s : State} (h : s.idle) : exec .csumVerify s = .next (csumVerifyStart s) :=
  startPf_idle h _

/-- R115, R117: from its starting step CSUM_COMPUTE adds every byte and finishes at the end mark. -/
theorem run_csumCompute {s : State} {bs : List Byte} {rest : List InElem} (hidle : s.idle) (hscript : s.script = [])
    (hin : s.inp = Claims.inStream bs rest) :
    run (bs.length + 1) (csumComputeStart s) = .next
      { s with
        acc := sum8 bs, csaHave := false, csaLast := 0
        pfResult := .ok, pfOp := some .csumCompute, inp := rest } := by
  obtain ⟨hp, hr⟩ := hidle
  have hruns : (csumComputeStart s).RunsIn .cRun := ⟨hscript, hr, rfl⟩
  rw [readsSequence_cRun.run_inStream hruns hin, foldl_csaAdd]
  simp [State.withInp, csumComputeStart, csaClear, finishPf, hp]

/-- R116, R117: from its starting step CSUM_VERIFY feeds every byte and writes `CSA.match` to the flag at the end mark. -/
theorem run_csumVerify {s : State} {bs : List Byte} {rest : List InElem} (hidle : s.idle) (hscript : s.script = [])
    (hin : s.inp = Claims.inStream bs rest) :
    run (bs.length + 1) (csumVerifyStart s) = .next
      { s with
        acc := sum8 bs.dropLast, csaHave := !bs.isEmpty, csaLast := bs.getLastD 0
        pfFlag := verify bs, pfResult := .ok, pfOp := some .csumVerify, inp := rest } := by
  obtain ⟨hp, hr⟩ := hidle
  have hruns : (csumVerifyStart s).RunsIn .vRun := ⟨hscript, hr, rfl⟩
  have hcleared : (csumVerifyStart s).withInp rest = csaClear ((csumVerifyStart s).withInp rest) := rfl
  rw [readsSequence_vRun.run_inStream hruns hin, hcleared, csumVerifyEnd, csaMatch_foldl_csaFeed, foldl_csaFeed_csaClear]
  simp only [State.withInp, csumVerifyStart, csaClear, setFlag, finishPf, hp]

/-- Settles O27: the accepted start, the run, and the host's read of `acc` in a state that has ended `OK`. -/
theorem csumComputeGivesTheSum : Obligations.CsumComputeGivesTheSum := by
  unfold Obligations.CsumComputeGivesTheSum
  intro s bs rest hidle hscript hin
  exact ⟨_, _, exec_csumCompute_idle hidle, run_csumCompute hidle hscript hin,
    ⟨hasValueOf_iff.2 ⟨hidle.1, rfl, rfl⟩, rfl⟩, rfl⟩

/-- Settles O28: the accepted start, the run, and the host's read of the flag in a state that has ended `OK`. -/
theorem csumVerifyGivesTheVerdict : Obligations.CsumVerifyGivesTheVerdict := by
  unfold Obligations.CsumVerifyGivesTheVerdict
  intro s bs rest hidle hscript hin
  exact ⟨_, _, exec_csumVerify_idle hidle, run_csumVerify hidle hscript hin,
    ⟨hasValueOf_iff.2 ⟨hidle.1, rfl, rfl⟩, rfl⟩, rfl⟩

end Sys2Proof.Machine
end

section
/-! PROOF. The bytes of a command frame (41_frame_encoder R131). -/

namespace Sys2Proof.Machine

@[simp] theorem frameBody_length (code : Byte) (args : List Byte) : (frameBody code args).length = args.length + 3 := rfl

@[simp] theorem encodeFrame_length (code : Byte) (args : List Byte) :
    (encodeFrame code args).length = args.length + 4 := by
  simp [encodeFrame]

theorem frameBody_take_all (code : Byte) (args : List Byte) :
    (frameBody code args).take (args.length + 3) = frameBody code args :=
  List.take_of_length_le le_rfl

/-- A frame up to its checksum is its body. -/
theorem encodeFrame_take {code : Byte} {args : List Byte} {k : Nat} (hk : k ≤ args.length + 3) :
    (encodeFrame code args).take k = (frameBody code args).take k :=
  List.take_append_of_le_length hk

/-- A byte of a frame before its checksum is that of its body. -/
theorem encodeFrame_getElem? {code : Byte} {args : List Byte} {k : Nat} (hk : k < args.length + 3) :
    (encodeFrame code args)[k]? = (frameBody code args)[k]? :=
  List.getElem?_append_left hk

/-- The arguments stand behind the start, length and code bytes. -/
@[simp] theorem frameBody_getElem?_arg (code : Byte) (args : List Byte) (i : Nat) :
    (frameBody code args)[i + 3]? = args[i]? := rfl

/-- The last byte of a frame is the sum of its body. -/
theorem encodeFrame_getElem?_last (code : Byte) (args : List Byte) :
    (encodeFrame code args)[args.length + 3]? = some (sum8 (frameBody code args)) :=
  List.getElem?_concat_length

/-- Settles O55: the first bytes by definition, the arguments and the checksum by their places in the body. -/
theorem encodedFrameByteByByte : Obligations.EncodedFrameByteByByte := by
  unfold Obligations.EncodedFrameByteByByte
  intro code args _
  have harg : ∀ i, i < args.length → (encodeFrame code args)[3 + i]? = args[i]? := fun i hi => by
    rw [Nat.add_comm, encodeFrame_getElem? (by omega), frameBody_getElem?_arg]
  have hlength : (encodeFrame code args)[1]? = some (BitVec.ofNat 8 (encodeFrame code args).length) := by
    rw [encodeFrame_length]; rfl
  have hlast : (encodeFrame code args)[args.length + 3]? =
      some (sum8 ((encodeFrame code args).take (args.length + 3))) := by
    rw [encodeFrame_getElem?_last, encodeFrame_take le_rfl, frameBody_take_all]
  exact ⟨encodeFrame_length code args, rfl, hlength, rfl, harg, hlast⟩

end Sys2Proof.Machine
end

section
/-! PROOF. The starting step of ENCODE (41_frame_encoder R132, R133). -/

namespace Sys2Proof.Machine

/-- The operation that a start with code 3 selects, accepted. -/
theorem exec_encode_idle {s : State} (h : s.idle) (code : Byte) (args : List Byte) :
    exec (.encode code args) s = .next (encodeAccepted code args s) :=
  startPf_idle h _

theorem encodeAccepted_of_le {args : List Byte} (h : args.length ≤ 251) (code : Byte) (s : State) :
    encodeAccepted code args s = encodeStart code args s :=
  if_neg (Nat.not_lt.2 h)

theorem encodeAccepted_of_lt {args : List Byte} (h : 251 < args.length) (code : Byte) (s : State) :
    encodeAccepted code args s = refusePf s :=
  if_pos h

/-- R133: the arguments are latched at the indices below their number, and no other entry changes. -/
theorem read_encodeStart_argbuf (code : Byte) (args : List Byte) (s : State) (j : Nat) :
    Memory.read (encodeStart code args s).argbuf j = if j < args.length then args[j]? else Memory.read s.argbuf j := by
  simp [Memory.read_store]

/-- Settles O15: an accepted start with room for its arguments is `encodeStart`. -/
theorem encodeStartLatchesItsOperands : Obligations.EncodeStartLatchesItsOperands := by
  unfold Obligations.EncodeStartLatchesItsOperands
  intro code args s hargs hidle
  refine ⟨encodeStart code args s, ?_, rfl, read_encodeStart_argbuf code args s⟩
  rw [exec_encode_idle hidle, encodeAccepted_of_le hargs]

/-- Settles O17: an accepted start with too many arguments is `refusePf`. -/
theorem encodeRefusesTooManyArguments : Obligations.EncodeRefusesTooManyArguments := by
  unfold Obligations.EncodeRefusesTooManyArguments
  intro code args s hargs hidle
  rw [exec_encode_idle hidle, encodeAccepted_of_lt hargs, refusePf]

end Sys2Proof.Machine
end

section
/-! PROOF. ENCODE emits its frame (41_frame_encoder R134 to R136). -/

namespace Sys2Proof.Machine

open Config

/-- packet_framer emits the frame of `code` and `args`: its operands are latched, the sink takes every byte, the other
block is idle and the environment makes no move. -/
structure State.Emits (s : State) (code : Byte) (args : List Byte) : Prop where
  script_nil : s.script = []
  rs_idle : s.rsPhase = .idle
  sink_ready : s.txReady = true
  encCode_eq : s.encCode = code
  encN_toNat : s.encN.toNat = args.length
  latched : ∀ i, i < args.length → Memory.read s.argbuf i = args[i]?

/-- The phase of ENCODE when it has pushed k bytes of a frame with n arguments, before the last (R134). -/
def emitPhase (n : Nat) : Nat → PfPhase
  | 0 => .eHdr
  | 1 => .eLen
  | 2 => .eCode
  | i + 3 => if i < n then .eArgs else .eCsum

theorem emitPhase_ne_idle (n : Nat) : ∀ k, emitPhase n k ≠ .idle
  | 0 => by simp [emitPhase]
  | 1 => by simp [emitPhase]
  | 2 => by simp [emitPhase]
  | i + 3 => by simp only [emitPhase]; split <;> simp

/-- From `s`, with `code` and `args` latched in it, ENCODE has pushed the first k bytes of the body and nothing more. -/
def emitted (code : Byte) (args : List Byte) (s : State) (k : Nat) : State :=
  { s with
    tx := s.tx ++ (frameBody code args).take k
    acc := sum8 ((frameBody code args).take k)
    encI := BitVec.ofNat 8 (k - 3)
    pfPhase := emitPhase args.length k }

theorem State.Emits.keeps_emits {s : State} {code : Byte} {args : List Byte} (h : s.Emits code args) (k : Nat) :
    (emitted code args s k).Emits code args :=
  ⟨h.script_nil, h.rs_idle, h.sink_ready, h.encCode_eq, h.encN_toNat, h.latched⟩

/-- One more byte of the body: it is at the end of `TX` and in the sum. -/
theorem emitted_succ {code : Byte} {args : List Byte} {k : Nat} {b : Byte} (hb : (frameBody code args)[k]? = some b)
    (s : State) :
    emitted code args s (k + 1) = { emitted code args s k with
      tx := (emitted code args s k).tx ++ [b], acc := (emitted code args s k).acc + b
      encI := BitVec.ofNat 8 (k + 1 - 3), pfPhase := emitPhase args.length (k + 1) } := by
  have htake : (frameBody code args).take (k + 1) = (frameBody code args).take k ++ [b] := by
    rw [List.take_add_one, hb]; rfl
  simp [emitted, htake]

/-! ### One step of each phase, with a sink that takes every byte -/

theorem emitStep_ready {s : State} (h : s.txReady = true) (b : Byte) (p : PfPhase) :
    emitStep b p s = .next { s with tx := s.tx ++ [b], acc := s.acc + b, pfPhase := p } :=
  ((emitStep_cases b p s).resolve_left (by simp [h])).2

theorem eArgsStep_ready {s : State} {b : Byte} (h : s.txReady = true)
    (hb : Memory.read s.argbuf s.encI.toNat = some b) :
    eArgsStep s = .next { s with
      tx := s.tx ++ [b], acc := s.acc + b, encI := s.encI + 1
      pfPhase := if s.encI.toNat + 1 < s.encN.toNat then .eArgs else .eCsum } := by
  simp [eArgsStep, hb, h, csaAdd]

theorem eCsumStep_ready {s : State} (h : s.txReady = true) :
    eCsumStep s = .next (finishPf .ok { s with tx := s.tx ++ [s.acc] }) :=
  ((eCsumStep_cases s).resolve_left (by simp [h])).2

theorem State.Emits.step_eq {s : State} {code : Byte} {args : List Byte} (h : s.Emits code args) : step s = pfStep s := by
  rw [step_nil h.script_nil, blockStep_pf h.rs_idle]

/-- R134: as long as the body is not all sent, a step pushes its next byte and adds it to the sum. -/
theorem State.Emits.step_emitted {s : State} {code : Byte} {args : List Byte} (h : s.Emits code args)
    (hargs : args.length ≤ 251) {k : Nat} (hk : k < args.length + 3) :
    step (emitted code args s k) = .next (emitted code args s (k + 1)) := by
  have hready : (emitted code args s k).txReady = true := h.sink_ready
  rw [(h.keeps_emits k).step_eq]
  match k with
  | 0 =>
    rw [emitted_succ (k := 0) (b := frameStart) rfl]
    exact emitStep_ready hready _ _
  | 1 =>
    rw [emitted_succ (k := 1) (b := lengthByte args.length) rfl]
    calc pfStep (emitted code args s 1)
        = emitStep (lengthByte s.encN.toNat) .eCode (emitted code args s 1) := rfl
      _ = emitStep (lengthByte args.length) .eCode (emitted code args s 1) := by rw [h.encN_toNat]
      _ = .next _ := emitStep_ready hready _ _
  | 2 =>
    rw [emitted_succ (k := 2) (b := code) rfl]
    calc pfStep (emitted code args s 2)
        = emitStep s.encCode (if 0 < s.encN.toNat then .eArgs else .eCsum) (emitted code args s 2) := rfl
      _ = emitStep code (emitPhase args.length 3) (emitted code args s 2) := by
        rw [h.encCode_eq, h.encN_toNat]; rfl
      _ = .next _ := emitStep_ready hready _ _
  | i + 3 =>
    have hi : i < args.length := Nat.lt_of_add_lt_add_right hk
    have hidx : (emitted code args s (i + 3)).encI.toNat = i := Nat.mod_eq_of_lt (by omega)
    have hphase : (emitted code args s (i + 3)).pfPhase = .eArgs := if_pos hi
    have harg : Memory.read s.argbuf i = some args[i] := (h.latched i hi).trans (List.getElem?_eq_getElem hi)
    have hnext : (emitted code args s (i + 3)).encI + 1 = BitVec.ofNat 8 (i + 1) := (BitVec.ofNat_add i 1).symm
    have hencN : (emitted code args s (i + 3)).encN.toNat = args.length := (h.keeps_emits _).encN_toNat
    rw [emitted_succ (k := i + 3) (b := args[i]) (List.getElem?_eq_getElem hi), pfStep, hphase]
    calc eArgsStep (emitted code args s (i + 3))
        = .next _ := eArgsStep_ready hready (by rw [hidx]; exact harg)
      _ = .next _ := by rw [hidx, hnext, hencN]; rfl

/-- From the starting step the first k bytes of the frame, but not the last, take k steps. -/
theorem State.Emits.run_emitted {s : State} {code : Byte} {args : List Byte} (h : s.Emits code args)
    (hargs : args.length ≤ 251) {k : Nat} (hk : k ≤ args.length + 3) :
    run k (emitted code args s 0) = .next (emitted code args s k) := by
  induction k with
  | zero => rfl
  | succ k ih =>
    rw [run_add 1 (ih (by omega)), run_succ_next (h.step_emitted hargs hk), run_zero]

/-- R134: with the body sent, a step pushes its sum and ends with `OK`. -/
theorem State.Emits.step_emitted_last {s : State} {code : Byte} {args : List Byte} (h : s.Emits code args) :
    step (emitted code args s (args.length + 3)) = .next { s with
      tx := s.tx ++ encodeFrame code args, acc := sum8 (frameBody code args)
      encI := BitVec.ofNat 8 args.length, pfResult := .ok, pfPhase := .idle } := by
  have hready : (emitted code args s (args.length + 3)).txReady = true := h.sink_ready
  have hphase : (emitted code args s (args.length + 3)).pfPhase = .eCsum := if_neg (lt_irrefl _)
  rw [(h.keeps_emits _).step_eq, pfStep, hphase]
  calc eCsumStep (emitted code args s (args.length + 3)) = .next _ := eCsumStep_ready hready
    _ = .next _ := by simp [emitted, finishPf, frameBody_take_all, encodeFrame]

/-! ### The whole operation -/

/-- R133: the starting step latches what the emission needs. -/
theorem encodeStart_emits {s : State} {code : Byte} {args : List Byte} (hargs : args.length ≤ 251) (hidle : s.idle)
    (hscript : s.script = []) (hready : s.txReady = true) : (encodeStart code args s).Emits code args where
  script_nil := hscript
  rs_idle := hidle.2
  sink_ready := hready
  encCode_eq := rfl
  encN_toNat := Nat.mod_eq_of_lt (by omega)
  latched i hi := by rw [read_encodeStart_argbuf, if_pos hi]

/-- The starting step has pushed nothing yet. -/
theorem emitted_encodeStart (code : Byte) (args : List Byte) (s : State) :
    emitted code args (encodeStart code args s) 0 = encodeStart code args s := by
  simp [emitted, emitPhase, encodeStart, csaClear]

/-- Settles O29: the accepted start, the emission of the body byte by byte, and the step of the checksum. -/
theorem encodeSendsItsFrame : Obligations.EncodeSendsItsFrame := by
  unfold Obligations.EncodeSendsItsFrame
  intro code args s hargs hidle hscript hready
  have hemits : (encodeStart code args s).Emits code args := encodeStart_emits hargs hidle hscript hready
  have hrun : ∀ {k}, k ≤ args.length + 3 →
      run k (encodeStart code args s) = .next (emitted code args (encodeStart code args s) k) := fun hk => by
    simpa only [emitted_encodeStart] using hemits.run_emitted hargs hk
  refine ⟨encodeStart code args s, ?_, ?_, fun k hk => ?_⟩
  · rw [exec_encode_idle hidle, encodeAccepted_of_le hargs]
  · rw [run_add 1 (hrun le_rfl), run_succ_next hemits.step_emitted_last, run_zero, encodeStart_tx]
  · have hk : k ≤ args.length + 3 := Nat.le_of_lt_succ hk
    rw [encodeFrame_take hk]
    exact ⟨_, hrun hk, emitPhase_ne_idle _ k, rfl, rfl, rfl⟩

end Sys2Proof.Machine
end

section
/-! PROOF. The function `decode` (42_frame_decoder R151, R162). -/

namespace Sys2Proof.Machine

/-- R151, first line: the number of bytes is wrong. -/
theorem decodeFrame_of_length_ne {raw : List Byte} {e : Byte} (h : raw.length ≠ e.toNat) (hasLen hasCsum : Bool) :
    decodeFrame raw e hasLen hasCsum = .lengthMismatch :=
  if_pos h

/-- R151, second line: with `has_len`, byte 1 is missing or another than `E` (R162 (a)). -/
theorem decodeFrame_of_lengthByte_ne {raw : List Byte} {e : Byte} (h : ¬ (2 ≤ e.toNat ∧ raw[1]? = some e))
    (hasCsum : Bool) : decodeFrame raw e true hasCsum = .lengthMismatch := by
  by_cases hn : raw.length = e.toNat
  · have hline : e.toNat < 2 ∨ raw[1]? ≠ some e := by rwa [not_and_or, not_le] at h
    rw [decodeFrame, if_neg (not_not.2 hn), if_pos ⟨rfl, hline⟩]
  · exact decodeFrame_of_length_ne hn _ _

/-- R151, past its length checks: the checksum alone decides. -/
theorem decodeFrame_of_length_eq {raw : List Byte} {e : Byte} {hasLen : Bool} (hn : raw.length = e.toNat)
    (hl : hasLen = true → 2 ≤ e.toNat ∧ raw[1]? = some e) (hasCsum : Bool) :
    decodeFrame raw e hasLen hasCsum = if hasCsum = true ∧ verify raw = false then .checksumMismatch else .ok raw := by
  have hline : ¬ (hasLen = true ∧ (e.toNat < 2 ∨ raw[1]? ≠ some e)) := by
    rwa [not_and, not_or, not_lt, not_not]
  rw [decodeFrame, if_neg (not_not.2 hn), if_neg hline]

/-- R151: `OK` is the buffer itself, and the checks that are asked for hold of it. -/
theorem decodeFrame_eq_ok {raw frame : List Byte} {e : Byte} {hasLen hasCsum : Bool} :
    decodeFrame raw e hasLen hasCsum = .ok frame ↔
      frame = raw ∧ raw.length = e.toNat ∧ (hasLen = true → 2 ≤ e.toNat ∧ raw[1]? = some e) ∧
        (hasCsum = true → verify raw = true) := by
  by_cases hn : raw.length = e.toNat
  · by_cases hl : hasLen = true → 2 ≤ e.toNat ∧ raw[1]? = some e
    · rw [decodeFrame_of_length_eq hn hl]
      split_ifs with hc
      · simp [hc]
      · have hcsum : hasCsum = true → verify raw = true := by rwa [not_and, Bool.not_eq_false] at hc
        simp only [Verdict.ok.injEq, eq_comm (a := raw)]
        exact ⟨fun h => ⟨h, hn, hl, hcsum⟩, fun h => h.1⟩
    · obtain ⟨rfl, hbad⟩ := Classical.not_imp.1 hl
      rw [decodeFrame_of_lengthByte_ne hbad]
      simp [hbad]
  · rw [decodeFrame_of_length_ne hn]
    simp [hn]

/-- R137: a command frame verifies. -/
theorem verify_encodeFrame (code : Byte) (args : List Byte) : verify (encodeFrame code args) = true := by
  rw [encodeFrame, verify_concat, beq_self_eq_true]

/-- R137, R162 (b): a command frame decodes `OK` under its own size. -/
theorem decodeFrame_encodeFrame {args : List Byte} (hargs : args.length ≤ 251) (code : Byte) :
    decodeFrame (encodeFrame code args) (BitVec.ofNat 8 (args.length + 4)) true true = .ok (encodeFrame code args) := by
  have hsize : (BitVec.ofNat 8 (args.length + 4)).toNat = args.length + 4 := Nat.mod_eq_of_lt (by omega)
  rw [decodeFrame_eq_ok, hsize]
  exact ⟨rfl, encodeFrame_length code args, fun _ => ⟨by omega, rfl⟩, fun _ => verify_encodeFrame code args⟩

/-- R162 (d): a buffer that passes both checks, with one byte altered, fails the check of the length byte when it is
that byte and else the check of the checksum. -/
theorem decodeFrame_set_of_ne {raw : List Byte} {e b c : Byte} {i : Nat} (hok : decodeFrame raw e true true = .ok raw)
    (hi : raw[i]? = some b) (hc : c ≠ b) :
    decodeFrame (raw.set i c) e true true = if i = 1 then .lengthMismatch else .checksumMismatch := by
  obtain ⟨-, hn, hlen, hcsum⟩ := decodeFrame_eq_ok.1 hok
  obtain ⟨hsize, hbyte⟩ := hlen rfl
  split_ifs with h
  · subst h
    obtain rfl : e = b := Option.some.inj (hbyte.symm.trans hi)
    have hset : (raw.set 1 c)[1]? = some c := List.getElem?_set_self (hn ▸ hsize)
    exact decodeFrame_of_lengthByte_ne (fun h => hc (Option.some.inj (hset.symm.trans h.2))) true
  · have hn' : (raw.set i c).length = e.toNat := by rw [List.length_set, hn]
    have hbyte' : (raw.set i c)[1]? = some e := by rw [List.getElem?_set_ne h, hbyte]
    have hverify : verify (raw.set i c) = false := verify_set_of_ne (hcsum rfl) hi hc
    rw [decodeFrame_of_length_eq hn' (fun _ => ⟨hsize, hbyte'⟩), if_pos ⟨rfl, hverify⟩]

/-- Settles O57: (a) is the second line of R151, (b) and (c) are read off `OK`, and in (d) a flipped bit is an altered
byte. -/
theorem decodeRejectsEverySingleBitError : Obligations.DecodeRejectsEverySingleBitError := by
  unfold Obligations.DecodeRejectsEverySingleBitError
  refine ⟨fun raw e b hasCsum _ hb hne => ?_, fun code args hargs => ?_, fun raw frame e hasLen hasCsum h => ?_,
    fun raw e b i k hok hi hk => ?_⟩
  · exact decodeFrame_of_lengthByte_ne (fun h => hne (Option.some.inj (hb.symm.trans h.2))) hasCsum
  · exact decodeFrame_encodeFrame hargs code
  · exact (decodeFrame_eq_ok.1 h).1
  · exact decodeFrame_set_of_ne hok hi (xor_one_shiftLeft_ne b hk)

end Sys2Proof.Machine
end

section
/-! PROOF. The starting step of DECODE, DECODE_ECHO and DECODE_MEAS (42_frame_decoder R154). -/

namespace Sys2Proof.Machine

/-- R101: the three spellings of DECODE are one start, with the operands each names. -/
theorem exec_of_decodeOperands {s : State} {i : Instr} {e : Byte} {hasLen hasCsum : Bool}
    (h : Claims.decodeOperands s.meas i = some (e, hasLen, hasCsum)) :
    exec i s = startPf s (decodeStart e hasLen hasCsum s) := by
  unfold Claims.decodeOperands at h
  split at h
  case h_1 => cases h; rfl
  case h_2 => cases h; rfl
  case h_3 => cases h; rfl
  case h_4 => cases h

/-- R154: with both blocks idle that start is accepted. -/
theorem exec_decode_idle {s : State} (hidle : s.idle) {i : Instr} {e : Byte} {hasLen hasCsum : Bool}
    (h : Claims.decodeOperands s.meas i = some (e, hasLen, hasCsum)) :
    exec i s = .next (decodeStart e hasLen hasCsum s) := by
  rw [exec_of_decodeOperands h, startPf_idle hidle]

/-- R154: `decodeStart` changes what the rule names and leaves `IN` as it is. -/
theorem decodeStarted_decodeStart (e : Byte) (hasLen hasCsum : Bool) (s : State) :
    Claims.decodeStarted e hasLen hasCsum s.inp s (decodeStart e hasLen hasCsum s) := rfl

/-- Settles O18: an accepted start is `decodeStart`. -/
theorem decodeStartLatchesItsOperands : Obligations.DecodeStartLatchesItsOperands := by
  unfold Obligations.DecodeStartLatchesItsOperands
  intro i e hasLen hasCsum s h hidle
  exact ⟨_, exec_decode_idle hidle h, decodeStarted_decodeStart e hasLen hasCsum s⟩

end Sys2Proof.Machine
end

section
/-! PROOF. The rows of `D_RUN` (42_frame_decoder R156). -/

namespace Sys2Proof.Machine

theorem State.RunsIn.step_dRun {s : State} (h : s.RunsIn .dRun) : step s = dRunStep s := by
  rw [h.step_eq, pfStep, h.phase]

theorem dRunStep_nil {s : State} (h : s.inp = []) : dRunStep s = .next s := by
  unfold dRunStep; rw [inPop_nil h]

theorem dRunStep_byte {s : State} {b : Byte} {rest : List InElem} (h : s.inp = .byte b :: rest) :
    dRunStep s = .next (decodeByte b (s.withInp rest)) := by
  unfold dRunStep; rw [inPop_cons h]; rfl

theorem dRunStep_endMark {s : State} {rest : List InElem} (h : s.inp = .endMark :: rest) :
    dRunStep s = .next (decodeEnd (s.withInp rest)) := by
  unfold dRunStep; rw [inPop_cons h]; rfl

/-- R155: while there is room a byte is stored, counted and fed. -/
theorem decodeByte_of_lt {s : State} (h : s.decCnt.toNat < 255) (b : Byte) :
    decodeByte b s = { csaFeed b s with
      rbuf := Memory.write s.rbuf s.decCnt.toNat b
      decLen := if s.decCnt = 1 then b else s.decLen
      decCnt := s.decCnt + 1 } :=
  if_pos h

/-- R155: with 255 bytes stored a byte is dropped. -/
theorem decodeByte_of_not_lt {s : State} (h : ¬ s.decCnt.toNat < 255) (b : Byte) :
    decodeByte b s = { s with decOver := true } :=
  if_neg h

theorem csaMatch_eq_false {s : State} : csaMatch s = false ↔ ¬ (s.csaHave = true ∧ s.acc = s.csaLast) := by
  simp [csaMatch]

/-- R156: the end of DECODE by the first line of the verdict that applies. -/
theorem decodeEnd_lines (s : State) :
    decodeEnd s =
      if s.decOver = true ∨ s.decCnt ≠ s.decE then finishPf .lenMismatch s
      else if s.decHasLen = true ∧ (s.decCnt.toNat < 2 ∨ s.decLen ≠ s.decE) then finishPf .lenMismatch s
      else if s.decHasCsum = true ∧ ¬ (s.csaHave = true ∧ s.acc = s.csaLast) then finishPf .csumMismatch s
      else { finishPf .ok s with rbufValid := true } := by
  unfold decodeEnd decodeVerdict
  simp only [csaMatch_eq_false]
  split_ifs <;> rfl

/-- Settles O25, row by row: the hold, a byte with room and without, and the end mark. -/
theorem decoderRows : Obligations.DecoderRows := by
  unfold Obligations.DecoderRows
  intro s hscript hr hp
  have hruns : s.RunsIn .dRun := ⟨hscript, hr, hp⟩
  rw [hruns.step_dRun]
  refine ⟨dRunStep_nil, fun b rest hin hcnt => ⟨_, dRunStep_byte hin, ?_⟩, fun b rest hin hcnt => ?_, fun rest hin => ?_⟩
  · rw [decodeByte_of_lt (s := s.withInp rest) hcnt]
    exact ⟨rfl, fun j => Memory.read_write s.rbuf s.decCnt.toNat j b⟩
  · have hfull : ¬ s.decCnt.toNat < 255 := by rw [hcnt]; decide
    rw [dRunStep_byte hin, decodeByte_of_not_lt (s := s.withInp rest) hfull]
    rfl
  · rw [dRunStep_endMark hin, decodeEnd_lines]
    rfl

end Sys2Proof.Machine
end

section
/-! PROOF. DECODE of a whole sequence (42_frame_decoder R157). -/

namespace Sys2Proof.Machine

/-- R156: phase `D_RUN` collects each byte and gives the verdict at the end mark. -/
theorem readsSequence_dRun : ReadsSequence .dRun decodeByte decodeEnd where
  step_byte hs hin := hs.step_dRun.trans (dRunStep_byte hin)
  step_endMark hs hin := hs.step_dRun.trans (dRunStep_endMark hin)
  keeps_runsIn {s} b hs := by
    by_cases h : s.decCnt.toNat < 255
    · rw [decodeByte_of_lt h]; exact ⟨hs.script_nil, hs.rs_idle, hs.phase⟩
    · rw [decodeByte_of_not_lt h]; exact ⟨hs.script_nil, hs.rs_idle, hs.phase⟩
  comm_withInp s b rest := by
    by_cases h : s.decCnt.toNat < 255
    · rw [decodeByte_of_lt h, decodeByte_of_lt (s := s.withInp rest) h]; rfl
    · rw [decodeByte_of_not_lt h, decodeByte_of_not_lt (s := s.withInp rest) h]; rfl

/-- Storing one more byte behind a block. -/
theorem Memory.store_concat (p : List Byte) (b : Byte) (m : Memory) (start : Nat) :
    Memory.store m start (p ++ [b]) = Memory.write (Memory.store m start p) (start + p.length) b := by
  induction p generalizing m start with
  | nil => rfl
  | cons x p ih =>
    have hlen : start + (x :: p).length = start + 1 + p.length := by rw [List.length_cons]; omega
    rw [hlen]
    exact ih _ _

/-- What DECODE holds once it has taken `raw` off `IN` since its starting step `s` (R155): of the first 255 bytes the
checksum unit has been fed, and they are stored from `RBUF[0]` on. -/
def collected (raw : List Byte) (s : State) : State :=
  { (raw.take 255).foldl (fun t b => csaFeed b t) (csaClear s) with
    rbuf := Memory.store s.rbuf 0 (raw.take 255)
    decLen := raw[1]?.getD 0
    decCnt := BitVec.ofNat 8 (min raw.length 255)
    decOver := decide (255 < raw.length) }

/-- The same with the checksum unit's registers written out (R114). -/
theorem collected_eq (raw : List Byte) (s : State) :
    collected raw s = { s with
      acc := sum8 (raw.take 255).dropLast
      csaHave := !(raw.take 255).isEmpty
      csaLast := (raw.take 255).getLastD 0
      rbuf := Memory.store s.rbuf 0 (raw.take 255)
      decLen := raw[1]?.getD 0
      decCnt := BitVec.ofNat 8 (min raw.length 255)
      decOver := decide (255 < raw.length) } := by
  rw [collected, foldl_csaFeed_csaClear]

@[simp] theorem collected_rbuf (raw : List Byte) (s : State) :
    (collected raw s).rbuf = Memory.store s.rbuf 0 (raw.take 255) := rfl
@[simp] theorem collected_decLen (raw : List Byte) (s : State) : (collected raw s).decLen = raw[1]?.getD 0 := rfl
@[simp] theorem collected_decOver (raw : List Byte) (s : State) :
    (collected raw s).decOver = decide (255 < raw.length) := rfl
@[simp] theorem collected_decE (raw : List Byte) (s : State) : (collected raw s).decE = s.decE := by rw [collected_eq]
@[simp] theorem collected_decHasLen (raw : List Byte) (s : State) : (collected raw s).decHasLen = s.decHasLen := by
  rw [collected_eq]
@[simp] theorem collected_decHasCsum (raw : List Byte) (s : State) : (collected raw s).decHasCsum = s.decHasCsum := by
  rw [collected_eq]

/-- R155: the count does not pass 255, so as a byte it is exact. -/
@[simp] theorem collected_decCnt_toNat (raw : List Byte) (s : State) : (collected raw s).decCnt.toNat = min raw.length 255 :=
  Nat.mod_eq_of_lt (by omega)

/-- R155: byte 1 of a sequence is the byte that finds one byte before it. -/
theorem lengthByte_concat {p : List Byte} (h : p.length < 255) (b : Byte) :
    (p ++ [b])[1]?.getD 0 = if BitVec.ofNat 8 p.length = 1 then b else p[1]?.getD 0 := by
  match p with
  | [] => rfl
  | [_] => rfl
  | x :: y :: q =>
    have hne : BitVec.ofNat 8 (x :: y :: q).length ≠ 1 := by
      intro heq
      have hmod : (x :: y :: q).length % 256 = 1 := congrArg BitVec.toNat heq
      rw [Nat.mod_eq_of_lt (by omega), List.length_cons, List.length_cons] at hmod
      omega
    rw [if_neg hne]; rfl

/-- R155: a byte for which there is room is stored, counted and fed. -/
theorem collected_concat_of_lt {p : List Byte} (h : p.length < 255) (b : Byte) (s : State) :
    collected (p ++ [b]) s = decodeByte b (collected p s) := by
  have hroom : (collected p s).decCnt.toNat < 255 := by rw [collected_decCnt_toNat]; omega
  have htake : p.take 255 = p := List.take_of_length_le (by omega)
  have htake' : (p ++ [b]).take 255 = p ++ [b] := List.take_of_length_le (by rw [List.length_append]; exact h)
  have hmin : min p.length 255 = p.length := by omega
  have hcnt : BitVec.ofNat 8 (min (p ++ [b]).length 255) = BitVec.ofNat 8 p.length + 1 := by
    rw [List.length_append, List.length_singleton, Nat.min_eq_left (by omega), BitVec.ofNat_add]; rfl
  have hlen : (p ++ [b])[1]?.getD 0 = if BitVec.ofNat 8 p.length = 1 then b else p[1]?.getD 0 :=
    lengthByte_concat h b
  have hover : decide (255 < (p ++ [b]).length) = decide (255 < p.length) := by
    rw [List.length_append, List.length_singleton, decide_eq_decide]; omega
  rw [decodeByte_of_lt hroom, collected_decCnt_toNat, hmin]
  simp only [collected, htake, htake', hcnt, hlen, hmin, hover, Memory.store_concat, Nat.zero_add, List.foldl_append,
    List.foldl_cons, List.foldl_nil]
  rfl

/-- R155: behind 255 bytes a byte is dropped. -/
theorem collected_concat_of_not_lt {p : List Byte} (h : ¬ p.length < 255) (b : Byte) (s : State) :
    collected (p ++ [b]) s = decodeByte b (collected p s) := by
  have hfull : ¬ (collected p s).decCnt.toNat < 255 := by rw [collected_decCnt_toNat]; omega
  have htake : (p ++ [b]).take 255 = p.take 255 := List.take_append_of_le_length (by omega)
  have hlen : (p ++ [b])[1]? = p[1]? := List.getElem?_append_left (by omega)
  have hmin : min (p ++ [b]).length 255 = min p.length 255 := by
    rw [List.length_append, List.length_singleton]; omega
  have hover : decide (255 < (p ++ [b]).length) = true := by
    rw [List.length_append, List.length_singleton, decide_eq_true_iff]; omega
  rw [decodeByte_of_not_lt hfull, collected, htake, hlen, hmin, hover]
  rfl

/-- R155: from the starting step, where nothing is collected, the bytes are collected one by one. -/
theorem foldl_decodeByte_decodeStart (e : Byte) (hasLen hasCsum : Bool) (raw : List Byte) (s : State) :
    raw.foldl (fun t b => decodeByte b t) (decodeStart e hasLen hasCsum s) =
      collected raw (decodeStart e hasLen hasCsum s) := by
  induction raw using List.reverseRecOn with
  | nil => rfl
  | append_singleton p b ih =>
    rw [List.foldl_append, ih, List.foldl_cons, List.foldl_nil]
    by_cases h : p.length < 255
    · exact (collected_concat_of_lt h b _).symm
    · exact (collected_concat_of_not_lt h b _).symm

/-- R155: `RBUF` holds the first 255 bytes, and its other entries are as before. -/
theorem read_collected_rbuf (raw : List Byte) (s : State) (j : Nat) :
    Memory.read (collected raw s).rbuf j = if j < raw.length ∧ j < 255 then raw[j]? else Memory.read s.rbuf j := by
  rw [collected_rbuf, Memory.read_store, Nat.sub_zero, Nat.zero_add, List.length_take]
  by_cases h : j < raw.length ∧ j < 255
  · rw [if_pos h, if_pos (by omega), List.getElem?_take_of_lt h.2]
  · rw [if_neg h, if_neg (by omega)]

/-- R157: as long as no byte is dropped `CSA.match` is the verification of the sequence. -/
theorem csaMatch_collected {raw : List Byte} (h : raw.length ≤ 255) (s : State) :
    csaMatch (collected raw s) = verify raw := by
  rw [← csaMatch_foldl_csaFeed raw s, collected, List.take_of_length_le h]
  rfl

/-- R156, R157: the count of the collected bytes is wrong exactly when that of the sequence is. -/
theorem collected_count_ne_iff (raw : List Byte) (s : State) (e : Byte) :
    (collected raw s).decOver = true ∨ (collected raw s).decCnt ≠ e ↔ raw.length ≠ e.toNat := by
  rw [collected_decOver, decide_eq_true_iff, Ne, ← BitVec.toNat_inj, collected_decCnt_toNat]
  omega

/-- R156, R157: with the right count, the length byte is missing or wrong exactly when byte 1 of the sequence is. -/
theorem collected_lengthByte_iff {raw : List Byte} {e : Byte} (s : State) (hn : raw.length = e.toNat) :
    (collected raw s).decCnt.toNat < 2 ∨ (collected raw s).decLen ≠ e ↔ e.toNat < 2 ∨ raw[1]? ≠ some e := by
  have hcnt : (collected raw s).decCnt.toNat = e.toNat := by rw [collected_decCnt_toNat]; omega
  rw [hcnt]
  refine or_congr_right' fun hsize => ?_
  have hget : raw[1]? = some raw[1] := List.getElem?_eq_getElem (by omega)
  rw [collected_decLen, hget, Option.getD_some, Ne, Ne, Option.some.injEq]

/-- The result code in which DECODE reports a verdict of the function `decode` (R157). -/
def Verdict.result : Verdict → ResultCode
  | .ok _ => .ok
  | .lengthMismatch => .lenMismatch
  | .checksumMismatch => .csumMismatch

/-- R157: the verdict on what is collected, whatever the length, is that of `decode(raw, E, has_len, has_csum)`. -/
theorem decodeVerdict_collected (e : Byte) (hasLen hasCsum : Bool) (raw : List Byte) (s : State) :
    decodeVerdict (collected raw (decodeStart e hasLen hasCsum s)) = (decodeFrame raw e hasLen hasCsum).result := by
  unfold decodeVerdict
  simp only [collected_decE, collected_decHasLen, collected_decHasCsum, decodeStart_decE, decodeStart_decHasLen,
    decodeStart_decHasCsum, collected_count_ne_iff]
  by_cases hn : raw.length = e.toNat
  · have hraw : raw.length ≤ 255 := by omega
    have hbyte := collected_lengthByte_iff (decodeStart e hasLen hasCsum s) hn
    simp only [csaMatch_collected hraw, decodeFrame, hbyte]
    split_ifs <;> rfl
  · rw [if_pos hn, decodeFrame_of_length_ne hn]
    rfl

/-- R156, R157: from its starting step DECODE takes the whole sequence and its end mark and ends with the verdict. -/
theorem run_decode {s : State} {raw : List Byte} {rest : List InElem} (hidle : s.idle) (hscript : s.script = [])
    (hin : s.inp = Claims.inStream raw rest) (e : Byte) (hasLen hasCsum : Bool) :
    run (raw.length + 1) (decodeStart e hasLen hasCsum s) = .next
      { collected raw (decodeStart e hasLen hasCsum s) with
        pfResult := (decodeFrame raw e hasLen hasCsum).result, pfPhase := .idle
        rbufValid := decide ((decodeFrame raw e hasLen hasCsum).result = .ok), inp := rest } := by
  have hruns : (decodeStart e hasLen hasCsum s).RunsIn .dRun := ⟨hscript, hidle.2, rfl⟩
  have hstart : (decodeStart e hasLen hasCsum s).withInp rest = decodeStart e hasLen hasCsum (s.withInp rest) := rfl
  rw [readsSequence_dRun.run_inStream hruns hin, hstart, foldl_decodeByte_decodeStart, decodeEnd_eq,
    decodeVerdict_collected]
  simp only [collected_eq]
  cases decodeFrame raw e hasLen hasCsum <;> rfl

/-- Settles O30: the accepted start, the run, and what it has collected. -/
theorem decodeGivesTheVerdict : Obligations.DecodeGivesTheVerdict := by
  unfold Obligations.DecodeGivesTheVerdict
  intro i e hasLen hasCsum s raw rest hops hidle hscript hin
  refine ⟨_, _, exec_decode_idle hidle hops, run_decode hidle hscript hin e hasLen hasCsum, ?_, fun hraw => ?_, fun j => ?_, ?_⟩
  · cases h : decodeFrame raw e hasLen hasCsum with
    | ok frame => exact ⟨rfl, rfl, (decodeFrame_eq_ok.1 h).1⟩
    | lengthMismatch => exact ⟨rfl, rfl⟩
    | checksumMismatch => exact ⟨rfl, rfl⟩
  · exact csaMatch_collected hraw _
  · exact read_collected_rbuf raw _ j
  · rw [collected_eq]
    simp [decodeStart, csaClear, hidle.1]

end Sys2Proof.Machine
end

section
/-! PROOF. The starting step of RESYNC (43_uart_resync_matcher R182, R184). -/

namespace Sys2Proof.Machine

/-- A start of uart_resync_matcher with both blocks idle is accepted. -/
theorem startRs_idle {s : State} (h : s.idle) (accepted : State) : startRs s accepted = .next accepted := by
  obtain ⟨hp, hr⟩ := h
  simp [startRs, hp, hr]

/-- The operation that a start with code 5 selects, accepted. -/
theorem exec_resync_idle {s : State} (h : s.idle) (e : Byte) :
    exec (.resync e) s = .next (resyncAccepted e s) :=
  startRs_idle h _

theorem resyncAccepted_of_le {e : Byte} (h : 2 ≤ e.toNat) (s : State) : resyncAccepted e s = resyncStart e s :=
  if_neg (Nat.not_lt.2 h)

theorem resyncAccepted_of_lt {e : Byte} (h : e.toNat < 2) (s : State) : resyncAccepted e s = refuseRs s :=
  if_pos h

/-- Settles O20: an accepted start with room for the header is `resyncStart`. -/
theorem resyncStartsHunting : Obligations.ResyncStartsHunting := by
  unfold Obligations.ResyncStartsHunting
  intro e s he hidle
  rw [exec_resync_idle hidle, resyncAccepted_of_le he, resyncStart]

/-- Settles O21: an accepted start without room for the header is `refuseRs`. -/
theorem resyncRefusesAFrameWithoutRoomForTheHeader : Obligations.ResyncRefusesAFrameWithoutRoomForTheHeader := by
  unfold Obligations.ResyncRefusesAFrameWithoutRoomForTheHeader
  intro e s he hidle
  rw [exec_resync_idle hidle, resyncAccepted_of_lt he, refuseRs]

end Sys2Proof.Machine
end

section
/-! PROOF. Reset (70_reset_and_hazards R260, R263). -/

namespace Sys2Proof.Machine

/-- R260: a reset move is accepted in every state, whatever the blocks are doing. -/
theorem step_reset {s : State} {rest : List Move} (h : s.script = .env .reset :: rest) :
    step s = .next (resetBlocks { s with script := rest }) :=
  step_env h

/-- R37, R39, R260: after reset no index of a buffer has a value, whatever was stored there. -/
theorem resetBlocks_buffers_unwritten (s : State) (j : Nat) :
    Memory.read (resetBlocks s).argbuf j = none ∧ Memory.read (resetBlocks s).rbuf j = none ∧
      Memory.read (resetBlocks s).fbuf j = none :=
  reset_buffers_unwritten j

/-- Settles O5: the step is `resetBlocks`, which takes every scalar from `State.reset` and every stream from the old state. -/
theorem resetPutsEveryElementAtItsResetValue : Obligations.ResetPutsEveryElementAtItsResetValue := by
  unfold Obligations.ResetPutsEveryElementAtItsResetValue
  intro s rest h
  exact ⟨_, step_reset h, rfl, rfl, rfl, rfl, rfl, rfl, rfl, rfl, rfl, rfl, rfl, rfl, rfl, rfl, rfl, rfl, rfl, rfl, rfl, rfl,
    rfl, rfl, resetBlocks_buffers_unwritten _, rfl, rfl, rfl, rfl, rfl, rfl, rfl⟩

end Sys2Proof.Machine
end

section
/-! PROOF. Host reads of `RBUF` and `FBUF` (10_state R23, R25, R39; 70_reset_and_hazards R272). -/

namespace Sys2Proof.Machine

open Config

/-- What a port shows does not depend on the moves to come. -/
theorem hostRead_withScript (s : State) (rest : List Move) (p : ReadPort) :
    hostRead { s with script := rest } p = hostRead s p := by
  cases p <;> rfl

/-- R28: a read shows its port and leaves the blocks and the streams as they are. -/
theorem step_read {s : State} {p : ReadPort} {rest : List Move} (h : s.script = .env (.read p) :: rest) :
    step s = .next { s with script := rest, lastRead := some (hostRead s p), readTurn := s.readTurn + 1 } := by
  rw [step_env h, ← hostRead_withScript s rest p]
  rfl

/-- A port that shows a buffer entry: the entry, when it has a value to be relied on (R272). -/
theorem read_of_entry_some {s : State} {p : ReadPort} {rest : List Move} {v : Option Byte} {b : Byte}
    (h : s.script = .env (.read p) :: rest) (hvalid : readValid s p = v.isSome)
    (hshown : hostRead s p = .byte (shownByte v s.readTurn)) (hv : v = some b) :
    readValid s p = true ∧
      step s = .next { s with script := rest, lastRead := some (.byte b), readTurn := s.readTurn + 1 } := by
  subst hv
  exact ⟨hvalid, by rw [step_read h, hshown, shownByte_some]⟩

/-- A port that shows a buffer entry: a free value, when the entry has none to be relied on (R39, 93 U5). -/
theorem read_of_entry_none {s : State} {p : ReadPort} {rest : List Move} {v : Option Byte}
    (h : s.script = .env (.read p) :: rest) (hvalid : readValid s p = v.isSome)
    (hshown : hostRead s p = .byte (shownByte v s.readTurn)) (hv : v = none) :
    readValid s p = false ∧
      step s = .next { s with
        script := rest, lastRead := some (.byte (unspecifiedByte s.readTurn)), readTurn := s.readTurn + 1 } := by
  subst hv
  exact ⟨hvalid, by rw [step_read h, hshown, shownByte_none]⟩

/-- When `RBUF[i]` may be read, it has been written: a validated frame is stored whole. -/
theorem State.Inv.exists_read_rbuf {s : State} (hinv : s.Inv) (hr : rbufReadable s = true) {i : Nat}
    (hi : i < s.decE.toNat) : ∃ b, Memory.read s.rbuf i = some b := by
  obtain ⟨-, -, hvalid⟩ := rbufReadable_iff.1 hr
  exact Option.isSome_iff_exists.1 (hinv.decoder.valid hvalid i hi)

/-- When `FBUF[i]` may be read, it has been written: a complete frame is stored whole. -/
theorem State.Inv.exists_read_fbuf {s : State} (hinv : s.Inv) (hr : fbufReadable s = true) {i : Nat}
    (hi : i < s.rsE.toNat) : ∃ b, Memory.read s.fbuf i = some b := by
  obtain ⟨-, -, hvalid⟩ := fbufReadable_iff.1 hr
  obtain ⟨-, -, -, hstored⟩ := hinv.resync.valid hvalid
  exact Option.isSome_iff_exists.1 (hstored i hi)

theorem rbufRead_eq_none {s : State} {i : Nat} (h : ¬ (rbufReadable s = true ∧ i < s.decE.toNat)) :
    rbufRead s i = none :=
  if_neg h

theorem fbufRead_eq_none {s : State} {i : Nat} (h : ¬ (fbufReadable s = true ∧ i < s.rsE.toNat)) :
    fbufRead s i = none :=
  if_neg h

/-- Settles O46: in a readable frame the invariant gives the entry that the read shows; outside of it the read finds none. -/
theorem bufferReadsHaveAValueExactlyInAValidFrame : Obligations.BufferReadsHaveAValueExactlyInAValidFrame := by
  unfold Obligations.BufferReadsHaveAValueExactlyInAValidFrame
  intro s i rest hinv
  refine ⟨fun h => ⟨fun ⟨hidle, hok, hvalid, hi⟩ => ?_, fun hnot => ?_⟩,
    fun h => ⟨fun ⟨hidle, hok, hvalid, hi⟩ => ?_, fun hnot => ?_⟩⟩
  · have hr : rbufReadable s = true := rbufReadable_iff.2 ⟨hidle, hok, hvalid⟩
    obtain ⟨b, hb⟩ := hinv.exists_read_rbuf hr hi
    obtain ⟨hrely, hstep⟩ := read_of_entry_some h rfl rfl ((rbufRead_of_readable hr hi).trans hb)
    exact ⟨hrely, b, hb, hstep⟩
  · have hnone : rbufRead s i.toNat = none := rbufRead_eq_none (by rwa [rbufReadable_iff, and_assoc, and_assoc])
    exact read_of_entry_none h rfl rfl hnone
  · have hr : fbufReadable s = true := fbufReadable_iff.2 ⟨hidle, hok, hvalid⟩
    obtain ⟨b, hb⟩ := hinv.exists_read_fbuf hr hi
    obtain ⟨hrely, hstep⟩ := read_of_entry_some h rfl rfl ((fbufRead_of_readable hr hi).trans hb)
    exact ⟨hrely, b, hb, hstep⟩
  · have hnone : fbufRead s i.toNat = none := fbufRead_eq_none (by rwa [fbufReadable_iff, and_assoc, and_assoc])
    exact read_of_entry_none h rfl rfl hnone

end Sys2Proof.Machine
end

section
/-! PROOF. Little-endian quantities (30_encoding R87, R88; 20_memory R58). -/

namespace Sys2Proof.Machine

@[simp] theorem leBytes_length (k v : Nat) : (leBytes k v).length = k := by
  induction k generalizing v with
  | zero => rfl
  | succ k ih => rw [leBytes, List.length_cons, ih]

/-- R87: byte j of an argument is the j-th digit of its value to the base 256. -/
theorem leBytes_getElem? {k j : Nat} (h : j < k) (v : Nat) :
    (leBytes k v)[j]? = some (BitVec.ofNat 8 (v / 256 ^ j)) := by
  induction k generalizing v j with
  | zero => omega
  | succ k ih =>
    cases j with
    | zero => simp [leBytes]
    | succ j => rw [leBytes, List.getElem?_cons_succ, ih (by omega), Nat.div_div_eq_div_mul, pow_succ']

theorem le16_toNat (lo hi : Byte) : (le16 lo hi).toNat = lo.toNat + 256 * hi.toNat :=
  Nat.mod_eq_of_lt (by omega)

/-- R58: a field put together from its two bytes. -/
@[simp] theorem le16_loByte_hiByte (h : Half) : le16 (loByte h) (hiByte h) = h := by
  apply BitVec.eq_of_toNat_eq
  rw [le16_toNat, loByte, hiByte, BitVec.toNat_ofNat, BitVec.toNat_ofNat]
  omega

@[simp] theorem loByte_le16 (lo hi : Byte) : loByte (le16 lo hi) = lo := by
  apply BitVec.eq_of_toNat_eq
  rw [loByte, BitVec.toNat_ofNat, le16_toNat]
  omega

@[simp] theorem hiByte_le16 (lo hi : Byte) : hiByte (le16 lo hi) = hi := by
  apply BitVec.eq_of_toNat_eq
  rw [hiByte, BitVec.toNat_ofNat, le16_toNat]
  omega

/-- Settles O60: the digits and the length by induction on the number of bytes, the fields as numbers. -/
theorem quantitiesAreLittleEndian : Obligations.QuantitiesAreLittleEndian := by
  unfold Obligations.QuantitiesAreLittleEndian
  exact ⟨fun k v j h => leBytes_getElem? h v, leBytes_length, le16_toNat, le16_loByte_hiByte⟩

end Sys2Proof.Machine
end

section
/-! PROOF. The decoder accepts exactly the encodings of well-formed instructions (30_encoding R80 to R85, R95, R101). -/

namespace Sys2Proof

open Config Machine

/-! ### Operands of a command -/

theorem decodeBare_eq_instr {i j : Instr} {operands : List Byte} :
    decodeBare j operands = .instr i ↔ operands = [] ∧ i = j := by
  cases operands with
  | nil => simp [decodeBare, eq_comm]
  | cons _ _ => simp [decodeBare]

/-- R26, R130: the count byte is the number of argument bytes behind it. -/
theorem decodeEncode_eq_instr {i : Instr} {operands : List Byte} :
    decodeEncode operands = .instr i ↔
      ∃ code args, args.length ≤ 255 ∧ operands = code :: BitVec.ofNat 8 args.length :: args ∧ i = .encode code args := by
  constructor
  · intro h
    unfold decodeEncode at h
    split at h
    · rename_i code nargs args
      split_ifs at h with hlt hgt
      have hn : nargs.toNat = args.length := by omega
      refine ⟨code, args, by omega, ?_, (Decoded.instr.inj h).symm⟩
      rw [← hn, BitVec.ofNat_toNat, BitVec.setWidth_eq]
    · cases h
  · rintro ⟨code, args, hargs, rfl, rfl⟩
    have hn : (BitVec.ofNat 8 args.length).toNat = args.length := Nat.mod_eq_of_lt (by omega)
    simp [decodeEncode, hn]

/-- R26: a mode byte without other bits is that of its two bits. -/
theorem modeByte_getLsbD {mode : Byte} (h : ¬ 3 < mode.toNat) : modeByte (mode.getLsbD 0) (mode.getLsbD 1) = mode := by
  revert mode; decide

theorem modeByte_le (hasLen hasCsum : Bool) : ¬ 3 < (modeByte hasLen hasCsum).toNat := by
  revert hasLen hasCsum; decide

@[simp] theorem modeByte_hasLen (hasLen hasCsum : Bool) : (modeByte hasLen hasCsum).getLsbD 0 = hasLen := by
  revert hasLen hasCsum; decide

@[simp] theorem modeByte_hasCsum (hasLen hasCsum : Bool) : (modeByte hasLen hasCsum).getLsbD 1 = hasCsum := by
  revert hasLen hasCsum; decide

theorem decodeDecode_eq_instr {m : MeasLayout} {i : Instr} {operands : List Byte} :
    decodeDecode m operands = .instr i ↔
      ∃ e hasLen hasCsum, operands = [e, modeByte hasLen hasCsum] ∧ i = pickDecode m e hasLen hasCsum := by
  constructor
  · intro h
    unfold decodeDecode at h
    split at h
    · split_ifs at h with hmode
      exact ⟨_, _, _, by rw [modeByte_getLsbD hmode], (Decoded.instr.inj h).symm⟩
    · cases h
    · cases h
  · rintro ⟨e, hasLen, hasCsum, rfl, rfl⟩
    rw [decodeDecode, if_neg (modeByte_le hasLen hasCsum), modeByte_hasLen, modeByte_hasCsum]

theorem decodeResync_eq_instr {i : Instr} {operands : List Byte} :
    decodeResync operands = .instr i ↔ ∃ e, operands = [e] ∧ i = .resync e := by
  rcases operands with _ | ⟨e, _ | ⟨_, _⟩⟩
  · simp [decodeResync]
  · simp [decodeResync, eq_comm]
  · simp [decodeResync]

/-! ### The rows that name special operands -/

/-- R101: of the rows that name these operands the most special is well-formed, and it is encoded as they are. -/
theorem pickDecode_wf (m : MeasLayout) (e : Byte) (hasLen hasCsum : Bool) :
    (pickDecode m e hasLen hasCsum).wf m = true ∧
      encode m (pickDecode m e hasLen hasCsum) = .command [4, e, modeByte hasLen hasCsum] := by
  unfold pickDecode
  split_ifs with hecho hmeas
  · obtain ⟨rfl, rfl⟩ : hasLen = true ∧ hasCsum = true := by simpa [isEchoMode] using hecho
    exact ⟨rfl, rfl⟩
  · obtain ⟨⟨rfl, rfl⟩, rfl⟩ : (e = m.sizeByte ∧ hasLen = false) ∧ hasCsum = m.hasCsum := by
      simpa [isMeasMode] using hmeas
    exact ⟨rfl, rfl⟩
  · exact ⟨by simp [Instr.wf, hecho, hmeas], rfl⟩

theorem pickDecode_of_wf {m : MeasLayout} {e : Byte} {hasLen hasCsum : Bool}
    (h : (Instr.decode e hasLen hasCsum).wf m = true) : pickDecode m e hasLen hasCsum = .decode e hasLen hasCsum := by
  obtain ⟨hecho, hmeas⟩ : isEchoMode hasLen hasCsum = false ∧ isMeasMode m e hasLen hasCsum = false := by
    simpa [Instr.wf] using h
  simp [pickDecode, hecho, hmeas]

theorem pickDecode_echo (m : MeasLayout) (e : Byte) : pickDecode m e true true = .decodeEcho e := rfl

theorem pickDecode_meas (m : MeasLayout) : pickDecode m m.sizeByte false m.hasCsum = .decodeMeas := by
  simp [pickDecode, isEchoMode, isMeasMode]

theorem pickCommandFrame_wf (m : MeasLayout) {args : List Byte} (hargs : args.length ≤ 251) (code : Byte) :
    (pickCommandFrame code args).wf m = true ∧ encode m (pickCommandFrame code args) = .toDevice (encodeFrame code args) := by
  unfold pickCommandFrame
  split_ifs with hrate hversion
  · obtain ⟨rfl, rfl⟩ : code = 0x03 ∧ args = [0x0A, 0x00] := by simpa [isSetFrameRate10Hz] using hrate
    exact ⟨rfl, rfl⟩
  · obtain ⟨rfl, rfl⟩ : code = 0x01 ∧ args = [] := by simpa [isGetVersion] using hversion
    exact ⟨rfl, rfl⟩
  · have hfit : argsFit args = true := decide_eq_true hargs
    exact ⟨by simp [Instr.wf, hrate, hversion, hfit], rfl⟩

theorem pickCommandFrame_of_wf {m : MeasLayout} {code : Byte} {args : List Byte}
    (h : (Instr.frameCommand code args).wf m = true) :
    args.length ≤ 251 ∧ pickCommandFrame code args = .frameCommand code args := by
  obtain ⟨⟨hfit, hrate⟩, hversion⟩ :
      (argsFit args = true ∧ isSetFrameRate10Hz code args = false) ∧ isGetVersion code args = false := by
    simpa [Instr.wf] using h
  exact ⟨argsFit_le hfit, by simp [pickCommandFrame, hrate, hversion]⟩

theorem pickEchoFrame_wf (m : MeasLayout) {payload : List Byte} (hpayload : payload.length ≤ 251)
    (length code checksum : Byte) :
    (pickEchoFrame length code payload checksum).wf m = true ∧
      encode m (pickEchoFrame length code payload checksum) = .fromDevice (echoFrame length code payload checksum) := by
  unfold pickEchoFrame
  split_ifs with hversion
  · obtain ⟨⟨⟨rfl, rfl⟩, rfl⟩, rfl⟩ :
        ((length = 0x07 ∧ code = 0x01) ∧ payload = [0x03, 0x02, 0x01]) ∧ checksum = 0x68 := by
      simpa [isVersion321] using hversion
    exact ⟨rfl, rfl⟩
  · have hfit : argsFit payload = true := decide_eq_true hpayload
    exact ⟨by simp [Instr.wf, hversion, hfit], rfl⟩

theorem pickEchoFrame_of_wf {m : MeasLayout} {length code checksum : Byte} {payload : List Byte}
    (h : (Instr.frameEchoResponse length code payload checksum).wf m = true) :
    payload.length ≤ 251 ∧
      pickEchoFrame length code payload checksum = .frameEchoResponse length code payload checksum := by
  obtain ⟨hfit, hversion⟩ : argsFit payload = true ∧ isVersion321 length code payload checksum = false := by
    simpa [Instr.wf] using h
  exact ⟨argsFit_le hfit, by simp [pickEchoFrame, hversion]⟩

/-! ### Frames -/

/-- R80, R82, R84: what the decoder asks of a frame to the device that has room for its fields. -/
theorem decodeToDevice_concat (b0 length code k : Byte) (args : List Byte) :
    decodeToDevice (b0 :: length :: code :: (args ++ [k])) =
      if b0 = frameStart then
        if args.length + 4 = length.toNat then
          if sum8 (b0 :: length :: code :: args) = k then .instr (pickCommandFrame code args)
          else .rejected .frameChecksum
        else .rejected .frameLength
      else .rejected .notAFrame := by
  have hverify : verify (b0 :: length :: code :: (args ++ [k])) = (sum8 (b0 :: length :: code :: args) == k) :=
    verify_concat (b0 :: length :: code :: args) k
  unfold decodeToDevice
  split_ifs with hstart hlength hsum <;> simp_all [Nat.add_assoc]

theorem decodeToDevice_of_short {bytes : List Byte} (h : bytes.length ≤ 3) (i : Instr) : decodeToDevice bytes ≠ .instr i := by
  match bytes, h with
  | [], _ => simp [decodeToDevice]
  | [_], _ => simp only [decodeToDevice]; split_ifs <;> simp
  | [_, _], _ => simp only [decodeToDevice]; split_ifs <;> simp
  | [_, _, _], _ => simp only [decodeToDevice]; split_ifs <;> simp

/-- R80, R82, R84: the accepted frames to the device are those that `encode(code, args)` makes. -/
theorem decodeToDevice_eq_instr {i : Instr} {bytes : List Byte} :
    decodeToDevice bytes = .instr i ↔
      ∃ code args, args.length ≤ 251 ∧ bytes = encodeFrame code args ∧ i = pickCommandFrame code args := by
  constructor
  · intro h
    obtain ⟨b0, length, code, args, k, rfl⟩ : ∃ b0 length code args k, bytes = b0 :: length :: code :: (args ++ [k]) := by
      match bytes with
      | [] => exact absurd h (decodeToDevice_of_short (by simp) i)
      | [_] => exact absurd h (decodeToDevice_of_short (by simp) i)
      | [_, _] => exact absurd h (decodeToDevice_of_short (by simp) i)
      | b0 :: length :: code :: more =>
        cases more using List.reverseRecOn with
        | nil => exact absurd h (decodeToDevice_of_short (by simp) i)
        | append_singleton args k => exact ⟨b0, length, code, args, k, rfl⟩
    rw [decodeToDevice_concat] at h
    split_ifs at h with hstart hlength hsum
    have hlength : length = lengthByte args.length :=
      BitVec.eq_of_toNat_eq (by rw [lengthByte, BitVec.toNat_ofNat, overhead]; omega)
    subst hstart hlength hsum
    exact ⟨code, args, by omega, rfl, (Decoded.instr.inj h).symm⟩
  · rintro ⟨code, args, hargs, rfl, rfl⟩
    have hlength : args.length + 4 = (lengthByte args.length).toNat := by
      rw [lengthByte, BitVec.toNat_ofNat, overhead]; omega
    have hframe : encodeFrame code args =
      frameStart :: lengthByte args.length :: code :: (args ++ [sum8 (frameBody code args)]) := rfl
    rw [hframe, decodeToDevice_concat, if_pos rfl, if_pos hlength]
    exact if_pos rfl

/-- R81: what the decoder asks of a response frame that has room for its fields. -/
theorem decodeEchoFrame_concat (length code checksum : Byte) (payload : List Byte) :
    decodeEchoFrame (length :: code :: (payload ++ [checksum])) =
      if payload.length ≤ 251 then .instr (pickEchoFrame length code payload checksum) else .rejected .frameTooLong := by
  have hsize : maxFrame < payload.length + 1 + 3 ↔ ¬ payload.length ≤ 251 := by rw [maxFrame]; omega
  by_cases hfits : payload.length ≤ 251
  · simp [decodeEchoFrame, hsize, hfits]
  · simp [decodeEchoFrame, hsize, hfits]

/-- R81: a response frame has a length byte, a code, a payload and a last byte, of any values, in at most 255 bytes. -/
theorem decodeEchoFrame_eq_instr {i : Instr} {rest : List Byte} :
    decodeEchoFrame rest = .instr i ↔
      ∃ length code payload checksum, payload.length ≤ 251 ∧ rest = length :: code :: (payload ++ [checksum]) ∧
        i = pickEchoFrame length code payload checksum := by
  constructor
  · intro h
    rcases rest with _ | ⟨length, _ | ⟨code, more⟩⟩
    · cases h
    · cases h
    · cases more using List.reverseRecOn with
      | nil => cases h
      | append_singleton payload checksum =>
        rw [decodeEchoFrame_concat] at h
        split_ifs at h with hfits
        exact ⟨length, code, payload, checksum, hfits, rfl, (Decoded.instr.inj h).symm⟩
  · rintro ⟨length, code, payload, checksum, hpayload, rfl, rfl⟩
    rw [decodeEchoFrame_concat, if_pos hpayload]

/-- R83, R164: a measurement frame has three fields and the tail of its layout. -/
theorem decodeMeasFrame_eq_instr {m : MeasLayout} {i : Instr} {fields : List Byte} :
    decodeMeasFrame m fields = .instr i ↔
      ∃ distance strength temperature tail, tail.length = m.tailBytes ∧
        hdr0 :: hdr1 :: fields = measurementFrame distance strength temperature tail ∧
        i = .frameMeasurement distance strength temperature tail := by
  constructor
  · intro h
    unfold decodeMeasFrame at h
    split at h
    · rename_i dl dh sl sh tl th tail
      split_ifs at h with hshort hlong
      refine ⟨le16 dl dh, le16 sl sh, le16 tl th, tail, by omega, ?_, (Decoded.instr.inj h).symm⟩
      simp [measurementFrame]
    · cases h
  · rintro ⟨distance, strength, temperature, tail, htail, hfields, rfl⟩
    obtain rfl := List.tail_eq_of_cons_eq (List.tail_eq_of_cons_eq hfields)
    simp [decodeMeasFrame, htail]

/-- R85: the first byte of a frame from the device says its kind. -/
theorem decodeFromDevice_eq_instr {m : MeasLayout} {i : Instr} {bytes : List Byte} :
    decodeFromDevice m bytes = .instr i ↔
      (∃ length code payload checksum, payload.length ≤ 251 ∧ bytes = echoFrame length code payload checksum ∧
        i = pickEchoFrame length code payload checksum) ∨
      (∃ distance strength temperature tail, tail.length = m.tailBytes ∧
        bytes = measurementFrame distance strength temperature tail ∧
        i = .frameMeasurement distance strength temperature tail) := by
  have hkinds : hdr0 ≠ frameStart := by decide
  constructor
  · intro h
    unfold decodeFromDevice at h
    split at h
    · cases h
    · rename_i b0 rest
      by_cases hstart : b0 = frameStart
      · rw [if_pos hstart, decodeEchoFrame_eq_instr] at h
        obtain ⟨length, code, payload, checksum, hpayload, rfl, rfl⟩ := h
        exact .inl ⟨length, code, payload, checksum, hpayload, by rw [hstart]; rfl, rfl⟩
      · rw [if_neg hstart] at h
        split_ifs at h with hhdr0
        rcases rest with _ | ⟨b1, fields⟩
        · cases h
        · by_cases hhdr1 : b1 = hdr1
          · subst hhdr0 hhdr1
            exact .inr (decodeMeasFrame_eq_instr.1 (by simpa using h))
          · simp [hhdr1] at h
  · rintro (⟨length, code, payload, checksum, hpayload, rfl, rfl⟩ | ⟨distance, strength, temperature, tail, htail, rfl, rfl⟩)
    · exact decodeEchoFrame_eq_instr.2 ⟨length, code, payload, checksum, hpayload, rfl, rfl⟩
    · exact decodeMeasFrame_eq_instr.2 ⟨distance, strength, temperature, tail, htail, rfl, rfl⟩

/-! ### The round trip -/

/-- R95: an accepted command is encoded as it stands. -/
theorem decodeCommand_sound {m : MeasLayout} {i : Instr} {bytes : List Byte} (h : decodeCommand m bytes = .instr i) :
    i.wf m = true ∧ encode m i = .command bytes := by
  unfold decodeCommand at h
  split at h
  · cases h
  · rename_i op operands
    have hop : ∀ n : Byte, op.toNat = n.toNat → op = n := fun _ => BitVec.eq_of_toNat_eq
    split at h <;> rename_i hcode
    · obtain rfl := hop 0 hcode
      obtain ⟨rfl, rfl⟩ := decodeBare_eq_instr.1 h
      exact ⟨rfl, rfl⟩
    · obtain rfl := hop 1 hcode
      obtain ⟨rfl, rfl⟩ := decodeBare_eq_instr.1 h
      exact ⟨rfl, rfl⟩
    · obtain rfl := hop 2 hcode
      obtain ⟨rfl, rfl⟩ := decodeBare_eq_instr.1 h
      exact ⟨rfl, rfl⟩
    · obtain rfl := hop 3 hcode
      obtain ⟨code, args, hargs, rfl, rfl⟩ := decodeEncode_eq_instr.1 h
      exact ⟨decide_eq_true hargs, rfl⟩
    · obtain rfl := hop 4 hcode
      obtain ⟨e, hasLen, hasCsum, rfl, rfl⟩ := decodeDecode_eq_instr.1 h
      exact pickDecode_wf m e hasLen hasCsum
    · obtain rfl := hop 5 hcode
      obtain ⟨e, rfl, rfl⟩ := decodeResync_eq_instr.1 h
      exact ⟨rfl, rfl⟩
    · obtain rfl := hop 6 hcode
      obtain ⟨rfl, rfl⟩ := decodeBare_eq_instr.1 h
      exact ⟨rfl, rfl⟩
    · obtain rfl := hop 7 hcode
      obtain ⟨rfl, rfl⟩ := decodeBare_eq_instr.1 h
      exact ⟨rfl, rfl⟩
    · cases h

/-- Settles O3: each kind of request is accepted only in the form that its row is encoded in. -/
theorem encodingADecodedRequestGivesItBack : Obligations.EncodingADecodedRequestGivesItBack := by
  unfold Obligations.EncodingADecodedRequestGivesItBack
  intro m r i h
  cases r with
  | command bytes => exact decodeCommand_sound h
  | toDevice bytes =>
    obtain ⟨code, args, hargs, rfl, rfl⟩ := decodeToDevice_eq_instr.1 h
    exact pickCommandFrame_wf m hargs code
  | fromDevice bytes =>
    rcases decodeFromDevice_eq_instr.1 h with
      ⟨length, code, payload, checksum, hpayload, rfl, rfl⟩ | ⟨distance, strength, temperature, tail, htail, rfl, rfl⟩
    · exact pickEchoFrame_wf m hpayload length code checksum
    · exact ⟨decide_eq_true htail, rfl⟩

/-- Settles O2: the form in which each row is encoded is accepted, and of the rows that name it the given one is picked. -/
theorem decodingAnEncodedInstructionGivesItBack : Obligations.DecodingAnEncodedInstructionGivesItBack := by
  unfold Obligations.DecodingAnEncodedInstructionGivesItBack
  intro m i h
  cases i with
  | nop => rfl
  | csumCompute => rfl
  | csumVerify => rfl
  | encode code args => exact decodeEncode_eq_instr.2 ⟨code, args, of_decide_eq_true h, rfl, rfl⟩
  | decode e hasLen hasCsum =>
    exact decodeDecode_eq_instr.2 ⟨e, hasLen, hasCsum, rfl, (pickDecode_of_wf h).symm⟩
  | resync e => rfl
  | reserved6 => rfl
  | reserved7 => rfl
  | decodeEcho e => exact decodeDecode_eq_instr.2 ⟨e, true, true, rfl, (pickDecode_echo m e).symm⟩
  | decodeMeas =>
    exact decodeDecode_eq_instr.2 ⟨m.sizeByte, false, m.hasCsum, rfl, (pickDecode_meas m).symm⟩
  | frameCommand code args =>
    obtain ⟨hargs, hpick⟩ := pickCommandFrame_of_wf h
    exact decodeToDevice_eq_instr.2 ⟨code, args, hargs, rfl, hpick.symm⟩
  | frameEchoResponse length code payload checksum =>
    obtain ⟨hpayload, hpick⟩ := pickEchoFrame_of_wf h
    exact (decodeFromDevice_eq_instr (m := m)).2 (.inl ⟨length, code, payload, checksum, hpayload, rfl, hpick.symm⟩)
  | frameMeasurement distance strength temperature tail =>
    exact decodeFromDevice_eq_instr.2 (.inr ⟨distance, strength, temperature, tail, of_decide_eq_true h, rfl, rfl⟩)
  | cmdSetFrameRate10Hz => rfl
  | rspGetVersion321 => rfl
  | cmdGetVersion => rfl

/-- Settles O1: twelve closed words, of at most seven bytes, each read by the decoder. -/
theorem tableWordsDecodeToTheirRows : Obligations.TableWordsDecodeToTheirRows := by
  unfold Obligations.TableWordsDecodeToTheirRows
  decide

end Sys2Proof
end

section
/-! PROOF. Everything a step can do: one case per row of a transition table, per accepted request and per move of the
environment. What holds of every step is read off these cases. -/

namespace Sys2Proof.Machine

open Config

/-- The same state with other moves to come. -/
@[simp] def State.withMoves (s : State) (ms : List Move) : State := { s with script := ms }

/-- The same state with other coming answers of the channel: the list and the turn of the tail. -/
@[simp] def State.withRx (s : State) (rx : List RxAnswer) (turn : Nat) : State := { s with rx := rx, rxTurn := turn }

/-- The steps of packet_framer: the rows of 40 R117, 41 R134 and 42 R156. -/
inductive PfTurn (s : State) : State → Prop where
  /-- The block is idle, or waits for its stream (70_reset R278). -/
  | hold : PfTurn s s
  | sumByte {b : Byte} {rest : List InElem} (phase : s.pfPhase = .cRun) (head : s.inp = .byte b :: rest) :
    PfTurn s (csaAdd b (s.withInp rest))
  | sumEnd {rest : List InElem} (phase : s.pfPhase = .cRun) (head : s.inp = .endMark :: rest) :
    PfTurn s (finishPf .ok (s.withInp rest))
  | verifyByte {b : Byte} {rest : List InElem} (phase : s.pfPhase = .vRun) (head : s.inp = .byte b :: rest) :
    PfTurn s (csaFeed b (s.withInp rest))
  | verifyEnd {rest : List InElem} (phase : s.pfPhase = .vRun) (head : s.inp = .endMark :: rest) :
    PfTurn s (csumVerifyEnd (s.withInp rest))
  | decodeByte {b : Byte} {rest : List InElem} (phase : s.pfPhase = .dRun) (head : s.inp = .byte b :: rest) :
    PfTurn s (decodeByte b (s.withInp rest))
  | decodeEnd {rest : List InElem} (phase : s.pfPhase = .dRun) (head : s.inp = .endMark :: rest) :
    PfTurn s (decodeEnd (s.withInp rest))
  /-- The header, the length byte or the code is sent, and phase p comes next. -/
  | emitFixed (b : Byte) (p : PfPhase) (ready : s.txReady = true)
    (rows : s.pfPhase = .eHdr ∧ p = .eLen ∨ s.pfPhase = .eLen ∧ p = .eCode ∨
      s.pfPhase = .eCode ∧ p = if 0 < s.encN.toNat then .eArgs else .eCsum) :
    PfTurn s { s with tx := s.tx ++ [b], acc := s.acc + b, pfPhase := p }
  | emitArg (b : Byte) (phase : s.pfPhase = .eArgs) (ready : s.txReady = true) :
    PfTurn s { s with
      tx := s.tx ++ [b], acc := s.acc + b, encI := s.encI + 1
      pfPhase := if s.encI.toNat + 1 < s.encN.toNat then .eArgs else .eCsum }
  | emitSum (phase : s.pfPhase = .eCsum) (ready : s.txReady = true) :
    PfTurn s (finishPf .ok { s with tx := s.tx ++ [s.acc] })

/-- `FBUF[rs_cnt] <- b`, counted (43 R185). -/
def storeByte (b : Byte) (s : State) : State :=
  { s with fbuf := Memory.write s.fbuf s.rsCnt.toNat b, rsCnt := s.rsCnt + 1 }

/-- The steps of uart_resync_matcher: the rows of 43 R186, each after a pop of the channel. -/
inductive RsTurn (s : State) : State → Prop where
  /-- The block is idle. -/
  | hold (phase : s.rsPhase = .idle) : RsTurn s s
  | timeout {rx : List RxAnswer} {turn : Nat} (phase : s.rsPhase ≠ .idle)
    (pop : rxPop s = (.exhausted, s.withRx rx turn)) : RsTurn s (finishRs .syncTimeout (s.withRx rx turn))
  | header {b : Byte} {rx : List RxAnswer} {turn : Nat} (phase : s.rsPhase = .sHunt)
    (pop : rxPop s = (.byte b, s.withRx rx turn)) (found : pdMatch b s = true) :
    RsTurn s (resyncMatch (s.withRx rx turn))
  | note {b : Byte} {rx : List RxAnswer} {turn : Nat} (phase : s.rsPhase = .sHunt)
    (pop : rxPop s = (.byte b, s.withRx rx turn)) (found : pdMatch b s = false) : RsTurn s (pdNote b (s.withRx rx turn))
  | store {b : Byte} {rx : List RxAnswer} {turn : Nat} (phase : s.rsPhase = .sFill)
    (pop : rxPop s = (.byte b, s.withRx rx turn)) (room : s.rsCnt.toNat < 255)
    (more : s.rsCnt.toNat + 1 ≠ s.rsE.toNat) : RsTurn s (storeByte b (s.withRx rx turn))
  | complete {b : Byte} {rx : List RxAnswer} {turn : Nat} (phase : s.rsPhase = .sFill)
    (pop : rxPop s = (.byte b, s.withRx rx turn)) (room : s.rsCnt.toNat < 255)
    (last : s.rsCnt.toNat + 1 = s.rsE.toNat) : RsTurn s (resyncDone (storeByte b (s.withRx rx turn)))

/-- What the requests that are answered do. -/
inductive Answered (s : State) : State → Prop where
  /-- NOP, or a start that the busy block ignores. -/
  | ignored : Answered s s
  /-- A measurement frame whose start the busy block ignores (log entry 14). -/
  | arrived (bs : List Byte) : Answered s (deliver bs s)
  | reserved : Answered s (refuseReserved s)
  | refusedPf (idle : s.idle) : Answered s (refusePf s)
  | refusedRs (idle : s.idle) : Answered s (refuseRs s)
  | csumCompute (idle : s.idle) : Answered s (csumComputeStart s)
  | csumVerify (idle : s.idle) : Answered s (csumVerifyStart s)
  | encode (idle : s.idle) (code : Byte) (args : List Byte) (fits : args.length ≤ 251) :
    Answered s (encodeStart code args s)
  | decode (idle : s.idle) (e : Byte) (hasLen hasCsum : Bool) : Answered s (decodeStart e hasLen hasCsum s)
  | echo (idle : s.idle) (raw : List Byte) : Answered s (validateEcho raw s)
  | resync (idle : s.idle) (e : Byte) (room : 2 ≤ e.toNat) : Answered s (resyncStart e s)
  | measurement (idle : s.idle) (e : Byte) (room : 2 ≤ e.toNat) (bs : List Byte) :
    Answered s (resyncStart e (deliver bs s))

/-- The moves of the environment that are no request, no turn of the blocks and no reset. -/
inductive HostMoved (s : State) : State → Prop where
  /-- The host goes on, ends its call, or stops waiting. -/
  | goesOn (ms : List Move) : HostMoved s (s.withMoves ms)
  | supply (x : InElem) : HostMoved s { s with inp := s.inp ++ [x] }
  | present : HostMoved s (presentFrame s)
  | arrive (b : Byte) : HostMoved s (deliver [b] s)
  | sink (ready : Bool) : HostMoved s { s with txReady := ready }
  | readExact (idle : s.idle) (n : Nat) : HostMoved s (supplyAll (takeRx n s).1 (takeRx n s).2)
  | read (p : ReadPort) : HostMoved s (readPort p s)

/-- A step that is no reset. -/
inductive Steps (s : State) : State → Prop where
  | pf {t : State} (idle : s.rsPhase = .idle) (turn : PfTurn s t) : Steps s t
  | rs {t : State} (idle : s.pfPhase = .idle) (turn : RsTurn s t) : Steps s t
  | request {t : State} (answered : Answered s t) : Steps s t
  | host {t : State} (moved : HostMoved s t) : Steps s t

/-! ### Turns of the blocks -/

theorem emitStep_pfTurn {s t : State} {b : Byte} {p : PfPhase}
    (rows : s.pfPhase = .eHdr ∧ p = .eLen ∨ s.pfPhase = .eLen ∧ p = .eCode ∨
      s.pfPhase = .eCode ∧ p = if 0 < s.encN.toNat then .eArgs else .eCsum)
    (h : emitStep b p s = .next t) : PfTurn s t := by
  rcases emitStep_cases b p s with ⟨-, e⟩ | ⟨hready, e⟩ <;> rw [e] at h <;> obtain rfl := Host.Outcome.next.inj h
  · exact .hold
  · exact .emitFixed b p hready rows

theorem pfStep_pfTurn {s t : State} (h : pfStep s = .next t) : PfTurn s t := by
  unfold pfStep at h
  split at h <;> rename_i hphase
  · obtain rfl := Host.Outcome.next.inj h
    exact .hold
  · rcases cRunStep_cases s with ⟨-, e⟩ | ⟨b, rest, hin, e⟩ | ⟨rest, hin, e⟩ <;> rw [e] at h <;>
      obtain rfl := Host.Outcome.next.inj h
    · exact .hold
    · exact .sumByte hphase hin
    · exact .sumEnd hphase hin
  · rcases vRunStep_cases s with ⟨-, e⟩ | ⟨b, rest, hin, e⟩ | ⟨rest, hin, e⟩ <;> rw [e] at h <;>
      obtain rfl := Host.Outcome.next.inj h
    · exact .hold
    · exact .verifyByte hphase hin
    · exact .verifyEnd hphase hin
  · exact emitStep_pfTurn (.inl ⟨hphase, rfl⟩) h
  · exact emitStep_pfTurn (.inr (.inl ⟨hphase, rfl⟩)) h
  · exact emitStep_pfTurn (.inr (.inr ⟨hphase, rfl⟩)) h
  · rcases eArgsStep_cases s with ⟨-, e⟩ | ⟨b, -, -, e⟩ | ⟨b, -, hready, e⟩ <;> rw [e] at h
    · cases h
    · obtain rfl := Host.Outcome.next.inj h
      exact .hold
    · obtain rfl := Host.Outcome.next.inj h
      exact .emitArg b hphase hready
  · rcases eCsumStep_cases s with ⟨-, e⟩ | ⟨hready, e⟩ <;> rw [e] at h <;> obtain rfl := Host.Outcome.next.inj h
    · exact .hold
    · exact .emitSum hphase hready
  · rcases dRunStep_cases s with ⟨-, e⟩ | ⟨b, rest, hin, e⟩ | ⟨rest, hin, e⟩ <;> rw [e] at h <;>
      obtain rfl := Host.Outcome.next.inj h
    · exact .hold
    · exact .decodeByte hphase hin
    · exact .decodeEnd hphase hin

/-- A pop changes the coming answers only. -/
theorem rxPop_eq_withRx {s t : State} {a : RxAnswer} (h : rxPop s = (a, t)) :
    ∃ rx turn, t = s.withRx rx turn := by
  have hframe := rxPop_frame s
  rw [h] at hframe
  exact ⟨_, _, hframe⟩

theorem rsStep_rsTurn {s t : State} (h : rsStep s = .next t) : RsTurn s t := by
  unfold rsStep at h
  split at h <;> rename_i hphase
  · obtain rfl := Host.Outcome.next.inj h
    exact .hold hphase
  · rcases sHuntStep_cases s with ⟨u, hpop, e⟩ | ⟨b, u, hpop, hfound, e⟩ | ⟨b, u, hpop, hfound, e⟩ <;> rw [e] at h <;>
      obtain rfl := Host.Outcome.next.inj h <;> obtain ⟨rx, turn, rfl⟩ := rxPop_eq_withRx hpop
    · exact .timeout (by simp [hphase]) hpop
    · exact .header hphase hpop hfound
    · exact .note hphase hpop hfound
  · rcases sFillStep_cases s with ⟨u, hpop, e⟩ | ⟨b, u, hpop, hroom, e⟩ | ⟨b, u, -, -, e⟩ <;> rw [e] at h
    · obtain rfl := Host.Outcome.next.inj h
      obtain ⟨rx, turn, rfl⟩ := rxPop_eq_withRx hpop
      exact .timeout (by simp [hphase]) hpop
    · obtain rfl := Host.Outcome.next.inj h
      obtain ⟨rx, turn, rfl⟩ := rxPop_eq_withRx hpop
      split_ifs with hlast
      · exact .complete hphase hpop hroom hlast
      · exact .store hphase hpop hroom hlast
    · cases h

/-- A turn of the blocks is one of a block whose other block is idle. -/
theorem blockStep_next {s t : State} (h : blockStep s = .next t) :
    (s.rsPhase = .idle ∧ pfStep s = .next t) ∨ (s.pfPhase = .idle ∧ rsStep s = .next t) := by
  by_cases hr : s.rsPhase = .idle
  · exact .inl ⟨hr, blockStep_pf hr ▸ h⟩
  · by_cases hp : s.pfPhase = .idle
    · exact .inr ⟨hp, blockStep_rs hp ▸ h⟩
    · rw [blockStep_both hp hr] at h
      cases h

theorem blockStep_steps {s t : State} (h : blockStep s = .next t) : Steps s t := by
  rcases blockStep_next h with ⟨hr, hpf⟩ | ⟨hp, hrs⟩
  · exact .pf hr (pfStep_pfTurn hpf)
  · exact .rs hp (rsStep_rsTurn hrs)

/-! ### Requests -/

theorem startPf_answered {s accepted t : State} (h : startPf s accepted = .next t)
    (ha : s.idle → Answered s accepted) : Answered s t := by
  rcases startPf_next h with ⟨-, rfl⟩ | ⟨hp, hr, rfl⟩
  · exact .ignored
  · exact ha ⟨hp, hr⟩

theorem encodeAccepted_answered {s : State} (hidle : s.idle) (code : Byte) (args : List Byte) :
    Answered s (encodeAccepted code args s) := by
  by_cases hargs : args.length ≤ 251
  · rw [encodeAccepted_of_le hargs]
    exact .encode hidle code args hargs
  · rw [encodeAccepted_of_lt (Nat.lt_of_not_le hargs)]
    exact .refusedPf hidle

theorem two_le_sizeByte (m : MeasLayout) : 2 ≤ m.sizeByte.toNat := by cases m <;> decide

/-- What an instruction that is answered does. -/
theorem exec_answered {i : Instr} {s t : State} (h : exec i s = .next t) : Answered s t := by
  cases i with
  | nop => obtain rfl := Host.Outcome.next.inj h; exact .ignored
  | csumCompute => exact startPf_answered h fun hidle => .csumCompute hidle
  | csumVerify => exact startPf_answered h fun hidle => .csumVerify hidle
  | encode code args => exact startPf_answered h fun hidle => encodeAccepted_answered hidle code args
  | decode e hasLen hasCsum => exact startPf_answered h fun hidle => .decode hidle e hasLen hasCsum
  | resync e =>
    rcases startRs_next h with ⟨-, rfl⟩ | ⟨hr, hp, rfl⟩
    · exact .ignored
    · by_cases he : 2 ≤ e.toNat
      · rw [resyncAccepted_of_le he]
        exact .resync ⟨hp, hr⟩ e he
      · rw [resyncAccepted_of_lt (Nat.lt_of_not_le he)]
        exact .refusedRs ⟨hp, hr⟩
  | reserved6 => obtain rfl := Host.Outcome.next.inj h; exact .reserved
  | reserved7 => obtain rfl := Host.Outcome.next.inj h; exact .reserved
  | decodeEcho e => exact startPf_answered h fun hidle => .decode hidle e true true
  | decodeMeas => exact startPf_answered h fun hidle => .decode hidle _ false _
  | frameCommand code args => exact startPf_answered h fun hidle => encodeAccepted_answered hidle code args
  | frameEchoResponse length code payload checksum => exact startPf_answered h fun hidle => .echo hidle _
  | frameMeasurement distance strength temperature tail =>
    rcases startRs_next h with ⟨-, rfl⟩ | ⟨hr, hp, rfl⟩
    · exact .arrived _
    · rw [resyncAccepted_of_le (two_le_sizeByte _)]
      exact .measurement (s := s) ⟨hp, hr⟩ _ (two_le_sizeByte _) _
  | cmdSetFrameRate10Hz => exact startPf_answered h fun hidle => encodeAccepted_answered hidle _ _
  | rspGetVersion321 => exact startPf_answered h fun hidle => .echo hidle _
  | cmdGetVersion => exact startPf_answered h fun hidle => encodeAccepted_answered hidle _ _

/-! ### Moves of the environment -/

theorem hostMove_await (held s : State) :
    hostMove .await held s = if s.pfBusy || s.rsBusy then blockStep held else .next s := rfl

theorem hostMove_supply (x : InElem) (held s : State) :
    hostMove (.supply x) held s =
      if endSupplied s then .refused .supplyAfterEnd else .next { s with inp := s.inp ++ [x] } := rfl

theorem hostMove_presentFbuf (held s : State) :
    hostMove .presentFbuf held s = if endSupplied s then .refused .supplyAfterEnd else .next (presentFrame s) := rfl

theorem hostMove_readExact (n : Byte) (held s : State) :
    hostMove (.readExact n) held s =
      if s.pfBusy || s.rsBusy then .refused .readOverlap
      else .next (supplyAll (takeRx n.toNat s).1 (takeRx n.toNat s).2) := rfl

theorem hostMove_unlessOk (b : Block) (n : Nat) (held s : State) :
    hostMove (.unlessOk b n) held s = .next (s.withMoves (if s.result b = .ok then s.script else s.script.drop n)) := by
  by_cases h : s.result b = .ok <;> simp [hostMove, h]

/-! ### Steps -/

/-- A step is a reset, or, with some moves to come, one of the cases above. -/
theorem step_cases {s t : State} (h : step s = .next t) :
    (∃ ms, Steps (s.withMoves ms) t) ∨ (Claims.resetNext s ∧ ∃ ms, t = resetBlocks (s.withMoves ms)) := by
  rcases hscript : s.script with _ | ⟨r | m, rest⟩
  · refine .inl ⟨[], ?_⟩
    rw [step_nil hscript] at h
    rw [State.withMoves, ← hscript]
    exact blockStep_steps h
  · rw [step_request hscript, runRequest] at h
    split at h
    · exact .inl ⟨rest, .request (exec_answered h)⟩
    · cases h
  · rw [step_env hscript] at h
    cases m with
    | run => exact .inl ⟨rest, blockStep_steps h⟩
    | await =>
      rw [hostMove_await] at h
      split_ifs at h
      · exact .inl ⟨s.script, blockStep_steps h⟩
      · obtain rfl := Host.Outcome.next.inj h
        exact .inl ⟨rest, .host (.goesOn rest)⟩
    | reset =>
      obtain rfl := Host.Outcome.next.inj h
      exact .inr ⟨⟨rest, hscript⟩, rest, rfl⟩
    | supply x =>
      rw [hostMove_supply] at h
      split_ifs at h
      obtain rfl := Host.Outcome.next.inj h
      exact .inl ⟨rest, .host (.supply x)⟩
    | presentFbuf =>
      rw [hostMove_presentFbuf] at h
      split_ifs at h
      obtain rfl := Host.Outcome.next.inj h
      exact .inl ⟨rest, .host .present⟩
    | arrive b =>
      obtain rfl := Host.Outcome.next.inj h
      exact .inl ⟨rest, .host (.arrive b)⟩
    | sink ready =>
      obtain rfl := Host.Outcome.next.inj h
      exact .inl ⟨rest, .host (.sink ready)⟩
    | readExact n =>
      rw [hostMove_readExact] at h
      split_ifs at h with hbusy
      obtain rfl := Host.Outcome.next.inj h
      exact .inl ⟨rest, .host (.readExact (by simpa [State.idle] using hbusy) _)⟩
    | read p =>
      obtain rfl := Host.Outcome.next.inj h
      exact .inl ⟨rest, .host (.read p)⟩
    | unlessOk b n =>
      rw [hostMove_unlessOk] at h
      obtain rfl := Host.Outcome.next.inj h
      exact .inl ⟨rest, .host (.goesOn _)⟩

end Sys2Proof.Machine
end

section
/-! PROOF. The invariant: it holds after reset, every step keeps it, and no run from it stops with a fault. -/

namespace Sys2Proof.Machine

open Config

/-! ### What the parts of the invariant speak of -/

theorem BuffersWf.congr {s t : State} (h : BuffersWf s) (e : (t.argbuf, t.rbuf, t.fbuf) = (s.argbuf, s.rbuf, s.fbuf)) :
    BuffersWf t := by
  simp only [Prod.mk.injEq] at e
  obtain ⟨e1, e2, e3⟩ := e
  exact ⟨e1 ▸ h.argbuf, e2 ▸ h.rbuf, e3 ▸ h.fbuf⟩

/-- What `ResultsLegal` speaks of. -/
def State.resultFields (s : State) : PfPhase × RsPhase × ResultCode × ResultCode :=
  (s.pfPhase, s.rsPhase, s.pfResult, s.rsResult)

theorem ResultsLegal.congr {s t : State} (h : ResultsLegal s) (e : t.resultFields = s.resultFields) : ResultsLegal t := by
  simp only [State.resultFields, Prod.mk.injEq] at e
  obtain ⟨e1, e2, e3, e4⟩ := e
  constructor <;> simp only [e1, e2, e3, e4]
  exacts [h.pfBusyNone, h.rsBusyNone, h.pfCodes, h.rsCodes]

/-- What `EncoderInv` speaks of. -/
def State.encoderFields (s : State) : PfPhase × Byte × Byte × Memory := (s.pfPhase, s.encN, s.encI, s.argbuf)

theorem EncoderInv.congr {s t : State} (h : EncoderInv s) (e : t.encoderFields = s.encoderFields) : EncoderInv t := by
  simp only [State.encoderFields, Prod.mk.injEq] at e
  obtain ⟨e1, e2, e3, e4⟩ := e
  constructor <;> simp only [e1, e2, e3, e4]
  exacts [h.latched, h.before, h.during, h.after]

/-- Outside of ENCODE nothing is asked of its operands. -/
theorem EncoderInv.of_not_encoding {t : State} (h : t.pfPhase.encoding = false) : EncoderInv t := by
  constructor
  · intro h'; rw [h] at h'; cases h'
  · rintro (h' | h' | h') <;> rw [h'] at h <;> cases h
  · intro h'; rw [h'] at h; cases h
  · intro h'; rw [h'] at h; cases h

/-- What `DecoderInv` speaks of. -/
def State.decoderFields (s : State) : PfPhase × Memory × Byte × Bool × Bool × Byte :=
  (s.pfPhase, s.rbuf, s.decCnt, s.rbufValid, s.decOver, s.decE)

theorem DecoderInv.congr {s t : State} (h : DecoderInv s) (e : t.decoderFields = s.decoderFields) : DecoderInv t := by
  simp only [State.decoderFields, Prod.mk.injEq] at e
  obtain ⟨e1, e2, e3, e4, e5, e6⟩ := e
  constructor <;> simp only [e1, e2, e3, e4, e5, e6]
  exacts [h.stored, h.running, h.overflow, h.valid]

/-- Outside of DECODE only a validated frame is spoken of. -/
theorem DecoderInv.of_not_decoding {t : State} (h : t.pfPhase ≠ .dRun)
    (valid : t.rbufValid = true → writtenBelow t.rbuf t.decE.toNat) : DecoderInv t :=
  ⟨fun h' => absurd h' h, fun h' => absurd h' h, fun h' => absurd h' h, valid⟩

/-- What `ResyncInv` speaks of. -/
def State.resyncFields (s : State) : RsPhase × Byte × Byte × Bool × Memory × Bool :=
  (s.rsPhase, s.rsE, s.rsCnt, s.pdSeen1, s.fbuf, s.fbufValid)

theorem ResyncInv.congr {s t : State} (h : ResyncInv s) (e : t.resyncFields = s.resyncFields) : ResyncInv t := by
  simp only [State.resyncFields, Prod.mk.injEq] at e
  obtain ⟨e1, e2, e3, e4, e5, e6⟩ := e
  constructor <;> simp only [e1, e2, e3, e4, e5, e6]
  exacts [h.hunting, h.filling, h.running, h.valid]

/-- The invariant does not speak of the streams, the moves to come, the checksum unit, the flag and the model's own
fields. -/
theorem State.Inv.congr {s t : State} (h : s.Inv) (buffers : (t.argbuf, t.rbuf, t.fbuf) = (s.argbuf, s.rbuf, s.fbuf))
    (results : t.resultFields = s.resultFields) (encoder : t.encoderFields = s.encoderFields)
    (decoder : t.decoderFields = s.decoderFields) (resync : t.resyncFields = s.resyncFields) : t.Inv where
  buffers := h.buffers.congr buffers
  oneBusy := by
    obtain ⟨hpf, hrs, -⟩ := by simpa only [State.resultFields, Prod.mk.injEq] using results
    rw [hpf, hrs]; exact h.oneBusy
  results := h.results.congr results
  encoder := h.encoder.congr encoder
  decoder := h.decoder.congr decoder
  resync := h.resync.congr resync

theorem State.Inv.withMoves {s : State} (h : s.Inv) (ms : List Move) : (s.withMoves ms).Inv := h.congr rfl rfl rfl rfl rfl

theorem State.Inv.withInp {s : State} (h : s.Inv) (rest : List InElem) : (s.withInp rest).Inv := h.congr rfl rfl rfl rfl rfl

theorem State.Inv.withRx {s : State} (h : s.Inv) (rx : List RxAnswer) (turn : Nat) : (s.withRx rx turn).Inv :=
  h.congr rfl rfl rfl rfl rfl

/-! ### The end of an operation -/

theorem State.Inv.finishPf {s : State} (h : s.Inv) (r : ResultCode) (hr : r ≠ .syncTimeout) : (finishPf r s).Inv where
  buffers := h.buffers.congr rfl
  oneBusy := .inl rfl
  results := ⟨fun hne => absurd rfl hne, h.results.rsBusyNone, hr, h.results.rsCodes⟩
  encoder := .of_not_encoding rfl
  decoder := .of_not_decoding (by simp) h.decoder.valid
  resync := h.resync.congr rfl

theorem State.Inv.finishRs {s : State} (h : s.Inv) (r : ResultCode) (hr : r ≠ .lenMismatch ∧ r ≠ .csumMismatch) :
    (finishRs r s).Inv where
  buffers := h.buffers.congr rfl
  oneBusy := .inr rfl
  results := ⟨h.results.pfBusyNone, fun hne => absurd rfl hne, h.results.pfCodes, hr⟩
  encoder := h.encoder.congr rfl
  decoder := h.decoder.congr rfl
  resync := ⟨fun h' => by simp at h', fun h' => by simp at h', fun h' => absurd rfl h', h.resync.valid⟩

/-! ### Steps of packet_framer -/

/-- A count with room for one more does not wrap around. -/
theorem toNat_succ {n : Byte} (h : n.toNat < 255) : (n + 1).toNat = n.toNat + 1 := by
  rw [BitVec.toNat_add]
  exact Nat.mod_eq_of_lt (by rw [show (1 : Byte).toNat = 1 from rfl]; omega)

theorem writtenBelow_write {m : Memory} {n i : Nat} (h : ∀ j, j < n → j ≠ i → (Memory.read m j).isSome = true) (v : Byte) :
    writtenBelow (Memory.write m i v) n := by
  intro j hj
  rw [Memory.read_write]
  split_ifs with hji
  · rfl
  · exact h j hj hji

/-- R155: the byte stored is the next one, so what has been counted stays stored. -/
theorem State.Inv.decodeByte {s : State} (h : s.Inv) (hp : s.pfPhase = .dRun) (b : Byte) : (decodeByte b s).Inv := by
  have hvalid : s.rbufValid = false := h.decoder.running hp
  by_cases hcnt : s.decCnt.toNat < 255
  · rw [decodeByte_of_lt hcnt]
    refine ⟨⟨h.buffers.argbuf, Memory.wf_write _ _ _ _ hcnt h.buffers.rbuf, h.buffers.fbuf⟩, h.oneBusy,
      h.results.congr rfl, h.encoder.congr rfl, ⟨fun _ => ?_, h.decoder.running, fun _ hover => ?_, fun hv => ?_⟩,
      h.resync.congr rfl⟩
    · refine writtenBelow_write (fun j hj hne => h.decoder.stored hp j ?_) b
      have hj : j < (s.decCnt + 1).toNat := hj
      rw [toNat_succ hcnt] at hj
      omega
    · have hfull := h.decoder.overflow hp hover
      rw [hfull] at hcnt
      exact absurd hcnt (by decide)
    · exact absurd (hvalid.symm.trans hv) (by simp)
  · rw [decodeByte_of_not_lt hcnt]
    have hfull : s.decCnt = 255 := BitVec.eq_of_toNat_eq (by rw [show (255 : Byte).toNat = 255 from rfl]; omega)
    exact ⟨h.buffers.congr rfl, h.oneBusy, h.results.congr rfl, h.encoder.congr rfl,
      ⟨h.decoder.stored, h.decoder.running, fun _ _ => hfull, h.decoder.valid⟩, h.resync.congr rfl⟩

theorem decodeVerdict_eq_ok_decCnt {s : State} (h : decodeVerdict s = .ok) : s.decCnt = s.decE := by
  by_contra hne
  rw [decodeVerdict, if_pos (.inr hne)] at h
  cases h

/-- 10_state R31: a frame is validated only when as many bytes are stored as it has. -/
theorem State.Inv.decodeEnd {s : State} (h : s.Inv) (hp : s.pfPhase = .dRun) : (decodeEnd s).Inv := by
  have hverdict : decodeVerdict s ≠ .syncTimeout := by
    rcases decodeVerdict_cases s with e | e | e <;> simp [e]
  have hfinish := h.finishPf _ hverdict
  rw [decodeEnd_eq]
  refine ⟨hfinish.buffers.congr rfl, hfinish.oneBusy, hfinish.results.congr rfl, hfinish.encoder.congr rfl,
    .of_not_decoding (by simp) fun hv => ?_, hfinish.resync.congr rfl⟩
  by_cases hok : decodeVerdict s = .ok
  · have hstored := h.decoder.stored hp
    rwa [decodeVerdict_eq_ok_decCnt hok] at hstored
  · exact h.decoder.valid (by simpa [hok] using hv)

/-- From one emission phase to another, with an index that fits the new one. -/
theorem State.Inv.emit {s t : State} (h : s.Inv) (hp : s.pfPhase.encoding = true)
    (ht : t = { s with tx := t.tx, acc := t.acc, encI := t.encI, pfPhase := t.pfPhase }) (hpt : t.pfPhase.encoding = true)
    (before : t.pfPhase = .eHdr ∨ t.pfPhase = .eLen ∨ t.pfPhase = .eCode → t.encI = 0)
    (during : t.pfPhase = .eArgs → t.encI.toNat < s.encN.toNat) (after : t.pfPhase = .eCsum → t.encI = s.encN) : t.Inv := by
  have hbusy : ∀ p : PfPhase, p.encoding = true → p ≠ .idle ∧ p ≠ .dRun := by
    intro p hp'; constructor <;> rintro rfl <;> cases hp'
  have hresult := h.results.pfBusyNone (hbusy _ hp).1
  have hrs : s.rsPhase = .idle := h.oneBusy.resolve_left (hbusy _ hp).1
  have hlatched := h.encoder.latched hp
  generalize t.pfPhase = p at *
  rw [ht]
  exact ⟨h.buffers.congr rfl, .inr hrs, ⟨fun _ => hresult, h.results.rsBusyNone, h.results.pfCodes, h.results.rsCodes⟩,
    ⟨fun _ => hlatched, before, during, after⟩, .of_not_decoding (hbusy _ hpt).2 h.decoder.valid, h.resync.congr rfl⟩

theorem PfTurn.keeps_inv {s t : State} (turn : PfTurn s t) (h : s.Inv) : t.Inv := by
  cases turn with
  | hold => exact h
  | sumByte => exact h.congr rfl rfl rfl rfl rfl
  | sumEnd => exact (h.withInp _).finishPf .ok (by simp)
  | verifyByte => exact h.congr rfl rfl rfl rfl rfl
  | @verifyEnd rest =>
    have hflag : (setFlag (csaMatch (s.withInp rest)) (s.withInp rest)).Inv := h.congr rfl rfl rfl rfl rfl
    exact hflag.finishPf .ok (by simp)
  | @decodeByte b rest hp => exact (h.withInp rest).decodeByte hp b
  | @decodeEnd rest hp => exact (h.withInp rest).decodeEnd hp
  | emitFixed b p hready hrows =>
    have hbefore : s.encI = 0 := h.encoder.before (by tauto)
    rcases hrows with ⟨hp, rfl⟩ | ⟨hp, rfl⟩ | ⟨hp, rfl⟩
    · exact h.emit (by rw [hp]; rfl) rfl rfl (fun _ => hbefore) (by simp) (by simp)
    · exact h.emit (by rw [hp]; rfl) rfl rfl (fun _ => hbefore) (by simp) (by simp)
    · split_ifs with hn
      · exact h.emit (by rw [hp]; rfl) rfl rfl (by simp) (fun _ => by simpa [hbefore] using hn) (by simp)
      · have hn : s.encN = 0 := BitVec.eq_of_toNat_eq (by simpa using hn)
        exact h.emit (by rw [hp]; rfl) rfl rfl (by simp) (by simp) (fun _ => by simp [hbefore, hn])
  | emitArg b hp hready =>
    have hlt : s.encI.toNat < s.encN.toNat := h.encoder.during hp
    have hnext : (s.encI + 1).toNat = s.encI.toNat + 1 := toNat_succ (by omega)
    split_ifs with hmore
    · exact h.emit (by rw [hp]; rfl) rfl rfl (by simp) (fun _ => hnext ▸ hmore) (by simp)
    · exact h.emit (by rw [hp]; rfl) rfl rfl (by simp) (by simp)
        (fun _ => BitVec.eq_of_toNat_eq (by show (s.encI + 1).toNat = _; omega))
  | emitSum =>
    have hsent : State.Inv { s with tx := s.tx ++ [s.acc] } := h.congr rfl rfl rfl rfl rfl
    exact hsent.finishPf .ok (by simp)

/-! ### Steps of uart_resync_matcher -/

/-- R31, R186: RESYNC may end `OK` with a frame that begins with the header and is stored whole. -/
theorem State.Inv.complete {s t : State} (h : s.Inv)
    (ht : t = { s with
      rsCnt := t.rsCnt, pdSeen1 := t.pdSeen1, fbuf := t.fbuf, fbufValid := true, rsResult := .ok, rsPhase := .idle })
    (hfbuf : Memory.wf maxFrame t.fbuf = true) (hE : 2 ≤ s.rsE.toNat) (header0 : Memory.read t.fbuf 0 = some hdr0)
    (header1 : Memory.read t.fbuf 1 = some hdr1) (stored : writtenBelow t.fbuf s.rsE.toNat) : t.Inv := by
  generalize t.rsCnt = cnt, t.pdSeen1 = seen, t.fbuf = buf at *
  have hfinish := h.finishRs .ok (by simp)
  rw [ht]
  exact ⟨⟨h.buffers.argbuf, h.buffers.rbuf, hfbuf⟩, .inr rfl, hfinish.results.congr rfl, h.encoder.congr rfl,
    h.decoder.congr rfl, ⟨fun h' => by simp at h', fun h' => by simp at h', fun h' => absurd rfl h',
      fun _ => ⟨hE, header0, header1, stored⟩⟩⟩

/-- While RESYNC runs, a state that differs in its count, its detector and `FBUF` and fills is fine if these are. -/
theorem State.Inv.fill {s t : State} (h : s.Inv) (hp : s.rsPhase ≠ .idle)
    (ht : t = { s with rsCnt := t.rsCnt, pdSeen1 := false, fbuf := t.fbuf, rsPhase := .sFill })
    (hfbuf : Memory.wf maxFrame t.fbuf = true) (hcnt : 2 ≤ t.rsCnt.toNat ∧ t.rsCnt.toNat < s.rsE.toNat)
    (header0 : Memory.read t.fbuf 0 = some hdr0) (header1 : Memory.read t.fbuf 1 = some hdr1)
    (stored : writtenBelow t.fbuf t.rsCnt.toNat) : t.Inv := by
  have hresult := h.results.rsBusyNone hp
  have hpf : s.pfPhase = .idle := h.oneBusy.resolve_right hp
  have hvalid := h.resync.running hp
  generalize t.rsCnt = cnt, t.fbuf = buf at *
  rw [ht]
  exact ⟨⟨h.buffers.argbuf, h.buffers.rbuf, hfbuf⟩, .inl hpf,
    ⟨h.results.pfBusyNone, fun _ => hresult, h.results.pfCodes, h.results.rsCodes⟩, h.encoder.congr rfl,
    h.decoder.congr rfl, ⟨fun h' => by simp at h', fun _ => ⟨hcnt.1, hcnt.2, rfl, header0, header1, stored⟩,
      fun _ => hvalid, fun hv => absurd (hvalid.symm.trans hv) (by simp)⟩⟩

/-- The header bytes in `FBUF` (R185). -/
def State.withHeader (s : State) : State :=
  { s with fbuf := Memory.write (Memory.write s.fbuf 0 hdr0) 1 hdr1, rsCnt := 2, pdSeen1 := false }

theorem resyncMatch_eq (s : State) :
    resyncMatch s = if s.rsE = 2 then resyncDone s.withHeader else { s.withHeader with rsPhase := .sFill } := rfl

theorem read_withHeader_fbuf (s : State) (j : Nat) :
    Memory.read s.withHeader.fbuf j = if j < 2 then some 0x59 else Memory.read s.fbuf j := by
  rw [State.withHeader, Memory.read_write, Memory.read_write]
  match j with
  | 0 => rfl
  | 1 => rfl
  | j + 2 => simp

/-- R185: the header has just been found; with an `E` of 2 it is the whole frame. -/
theorem State.Inv.resyncMatch {s : State} (h : s.Inv) (hp : s.rsPhase = .sHunt) : (resyncMatch s).Inv := by
  obtain ⟨hE, -⟩ := h.resync.hunting hp
  have hwf : Memory.wf maxFrame s.withHeader.fbuf = true :=
    Memory.wf_write _ _ _ _ (by decide) (Memory.wf_write _ _ _ _ (by decide) h.buffers.fbuf)
  have hheader : writtenBelow s.withHeader.fbuf 2 := fun j hj => by rw [read_withHeader_fbuf, if_pos hj]; rfl
  have hread : ∀ j < 2, Memory.read s.withHeader.fbuf j = some 0x59 := fun j hj => by rw [read_withHeader_fbuf, if_pos hj]
  rw [resyncMatch_eq]
  split_ifs with h2
  · exact h.complete rfl hwf hE (hread 0 (by decide)) (hread 1 (by decide)) (by rw [h2]; exact hheader)
  · refine h.fill (by simp [hp]) rfl hwf ⟨le_rfl, ?_⟩ (hread 0 (by decide)) (hread 1 (by decide)) hheader
    have hne : s.rsE.toNat ≠ 2 := fun e => h2 (BitVec.eq_of_toNat_eq e)
    show 2 < s.rsE.toNat
    omega

/-- R185: the byte stored is the next one, so what has been counted stays stored, the header with it. -/
theorem State.Inv.storeByte {s : State} (h : s.Inv) (hp : s.rsPhase = .sFill) (hroom : s.rsCnt.toNat < 255) (b : Byte) :
    (s.rsCnt.toNat + 1 ≠ s.rsE.toNat → (Machine.storeByte b s).Inv) ∧
      (s.rsCnt.toNat + 1 = s.rsE.toNat → (resyncDone (Machine.storeByte b s)).Inv) := by
  obtain ⟨hcnt, hlt, hseen, header0, header1, hstored⟩ := h.resync.filling hp
  have hbusy : s.rsPhase ≠ .idle := by simp [hp]
  have hnext : (Machine.storeByte b s).rsCnt.toNat = s.rsCnt.toNat + 1 := toNat_succ hroom
  have hwf : Memory.wf maxFrame (Machine.storeByte b s).fbuf = true := Memory.wf_write _ _ _ _ hroom h.buffers.fbuf
  have hheader : ∀ j < 2, Memory.read (Machine.storeByte b s).fbuf j = Memory.read s.fbuf j := fun j hj =>
    Memory.read_write_other _ _ (by omega)
  have hstored' : writtenBelow (Machine.storeByte b s).fbuf (s.rsCnt.toNat + 1) :=
    writtenBelow_write (fun j hj hne => hstored j (by omega)) b
  refine ⟨fun hmore => ?_, fun hlast => ?_⟩
  · refine h.fill hbusy ?_ hwf (by omega) ((hheader 0 (by decide)).trans header0) ((hheader 1 (by decide)).trans header1)
      (hnext ▸ hstored')
    rw [Machine.storeByte, ← hseen, ← hp]
  · exact h.complete rfl hwf (by omega) ((hheader 0 (by decide)).trans header0) ((hheader 1 (by decide)).trans header1)
      (hlast ▸ hstored')

theorem RsTurn.keeps_inv {s t : State} (turn : RsTurn s t) (h : s.Inv) : t.Inv := by
  cases turn with
  | hold => exact h
  | timeout => exact (h.withRx _ _).finishRs .syncTimeout (by simp)
  | @header b rx turn hp => exact (h.withRx rx turn).resyncMatch hp
  | @note b rx turn hp =>
    have hhunting := h.resync.hunting hp
    exact ⟨h.buffers.congr rfl, h.oneBusy, h.results.congr rfl, h.encoder.congr rfl, h.decoder.congr rfl,
      ⟨fun _ => hhunting, fun h' => absurd (hp.symm.trans h') (by simp), h.resync.running, h.resync.valid⟩⟩
  | @store b rx turn hp _ hroom hmore => exact ((h.withRx rx turn).storeByte hp hroom b).1 hmore
  | @complete b rx turn hp _ hroom hlast => exact ((h.withRx rx turn).storeByte hp hroom b).2 hlast

/-! ### Requests -/

theorem State.Inv.deliver {s : State} (h : s.Inv) (bs : List Byte) : (deliver bs s).Inv := h.congr rfl rfl rfl rfl rfl

theorem State.Inv.supplyAll {s : State} (h : s.Inv) (bs : List Byte) : (supplyAll bs s).Inv := h.congr rfl rfl rfl rfl rfl

/-- A result other than those of R33 that belong to the other block may be written while the block is idle. -/
theorem State.Inv.withResults {s : State} (h : s.Inv) (r q : ResultCode) (hr : r = s.pfResult ∨ s.pfPhase = .idle ∧ r = .refused)
    (hq : q = s.rsResult ∨ s.rsPhase = .idle ∧ q = .refused) : State.Inv { s with pfResult := r, rsResult := q } := by
  refine ⟨h.buffers.congr rfl, h.oneBusy, ⟨fun hne => ?_, fun hne => ?_, ?_, ?_⟩, h.encoder.congr rfl, h.decoder.congr rfl,
    h.resync.congr rfl⟩
  · rcases hr with rfl | ⟨hp, -⟩
    · exact h.results.pfBusyNone hne
    · exact absurd hp hne
  · rcases hq with rfl | ⟨hp, -⟩
    · exact h.results.rsBusyNone hne
    · exact absurd hp hne
  · rcases hr with rfl | ⟨-, rfl⟩
    · exact h.results.pfCodes
    · simp
  · rcases hq with rfl | ⟨-, rfl⟩
    · exact h.results.rsCodes
    · simp

/-- The starts of CSUM_COMPUTE and CSUM_VERIFY. -/
theorem State.Inv.startSum {s t : State} (h : s.Inv) (hidle : s.idle) (hp : t.pfPhase = .cRun ∨ t.pfPhase = .vRun)
    (ht : t = { s with
      acc := t.acc, csaHave := t.csaHave, csaLast := t.csaLast, pfResult := .none, pfPhase := t.pfPhase, pfOp := t.pfOp }) :
    t.Inv := by
  have hne : t.pfPhase.encoding = false ∧ t.pfPhase ≠ .dRun := by rcases hp with e | e <;> rw [e] <;> simp [PfPhase.encoding]
  generalize t.pfPhase = p at *
  rw [ht]
  exact ⟨h.buffers.congr rfl, .inr hidle.2, ⟨fun _ => rfl, h.results.rsBusyNone, by simp, h.results.rsCodes⟩,
    .of_not_encoding hne.1, .of_not_decoding hne.2 h.decoder.valid, h.resync.congr rfl⟩

/-- R133: what ENCODE will read is latched. -/
theorem State.Inv.encodeStart {s : State} (h : s.Inv) (hidle : s.idle) (code : Byte) {args : List Byte}
    (hargs : args.length ≤ 251) : (encodeStart code args s).Inv := by
  have hn : (Machine.encodeStart code args s).encN.toNat = args.length := Nat.mod_eq_of_lt (by omega)
  have hlatched : writtenBelow (Machine.encodeStart code args s).argbuf args.length := fun j hj => by
    rw [read_encodeStart_argbuf, if_pos hj, List.getElem?_eq_getElem hj]; rfl
  exact ⟨⟨Memory.wf_store _ _ _ _ (by simpa [maxArgs] using hargs) h.buffers.argbuf, h.buffers.rbuf, h.buffers.fbuf⟩,
    .inr hidle.2, ⟨fun _ => rfl, h.results.rsBusyNone, by simp, h.results.rsCodes⟩,
    ⟨fun _ => ⟨hn ▸ hargs, hn ▸ hlatched⟩, fun _ => rfl, by simp, by simp⟩, .of_not_decoding (by simp) h.decoder.valid,
    h.resync.congr rfl⟩

/-- R154: nothing is counted yet. -/
theorem State.Inv.decodeStart {s : State} (h : s.Inv) (hidle : s.idle) (e : Byte) (hasLen hasCsum : Bool) :
    (decodeStart e hasLen hasCsum s).Inv :=
  ⟨h.buffers.congr rfl, .inr hidle.2, ⟨fun _ => rfl, h.results.rsBusyNone, by simp, h.results.rsCodes⟩,
    .of_not_encoding rfl, ⟨fun _ j hj => by simp at hj, fun _ => rfl, by simp, by simp⟩, h.resync.congr rfl⟩

/-- R184: nothing is counted yet. -/
theorem State.Inv.resyncStart {s : State} (h : s.Inv) (hidle : s.idle) {e : Byte} (he : 2 ≤ e.toNat) :
    (resyncStart e s).Inv :=
  ⟨h.buffers.congr rfl, .inl hidle.1, ⟨h.results.pfBusyNone, fun _ => rfl, h.results.pfCodes, by simp⟩,
    h.encoder.congr rfl, h.decoder.congr rfl, ⟨fun _ => ⟨he, rfl⟩, by simp, fun _ => rfl, by simp⟩⟩

theorem Answered.keeps_inv {s t : State} (answered : Answered s t) (h : s.Inv) : t.Inv := by
  cases answered with
  | ignored => exact h
  | arrived bs => exact h.deliver bs
  | reserved =>
    refine h.withResults _ _ ?_ ?_
    · by_cases hp : s.pfPhase = .idle <;> simp [hp]
    · by_cases hp : s.rsPhase = .idle <;> simp [hp]
  | refusedPf hidle => exact h.withResults .refused s.rsResult (.inr ⟨hidle.1, rfl⟩) (.inl rfl)
  | refusedRs hidle => exact h.withResults s.pfResult .refused (.inl rfl) (.inr ⟨hidle.2, rfl⟩)
  | csumCompute hidle => exact h.startSum hidle (.inl rfl) rfl
  | csumVerify hidle => exact h.startSum hidle (.inr rfl) rfl
  | encode hidle code args hargs => exact h.encodeStart hidle code hargs
  | decode hidle e hasLen hasCsum => exact h.decodeStart hidle e hasLen hasCsum
  | echo hidle raw => exact (h.supplyAll raw).decodeStart hidle _ true true
  | resync hidle e he => exact h.resyncStart hidle he
  | measurement hidle e he bs => exact (h.deliver bs).resyncStart hidle he

/-! ### Moves of the environment -/

theorem takeRx_eq_withRx (n : Nat) (s : State) : ∃ rx turn, (takeRx n s).2 = s.withRx rx turn :=
  ⟨_, _, takeRx_frame n s⟩

theorem HostMoved.keeps_inv {s t : State} (moved : HostMoved s t) (h : s.Inv) : t.Inv := by
  cases moved with
  | goesOn ms => exact h.withMoves ms
  | supply x => exact h.withInp _
  | present => exact h.congr rfl rfl rfl rfl rfl
  | arrive b => exact h.deliver [b]
  | sink ready => exact h.congr rfl rfl rfl rfl rfl
  | readExact hidle n =>
    obtain ⟨rx, turn, e⟩ := takeRx_eq_withRx n s
    rw [e]
    exact (h.withRx rx turn).supplyAll _
  | read p => exact h.congr rfl rfl rfl rfl rfl

/-! ### The invariant -/

theorem Steps.keeps_inv {s t : State} (steps : Steps s t) (h : s.Inv) : t.Inv := by
  cases steps with
  | pf _ turn => exact turn.keeps_inv h
  | rs _ turn => exact turn.keeps_inv h
  | request answered => exact answered.keeps_inv h
  | host moved => exact moved.keeps_inv h

theorem inv_reset : State.reset.Inv where
  buffers := ⟨reset_buffers_wf.1, reset_buffers_wf.2.1, reset_buffers_wf.2.2⟩
  oneBusy := .inl rfl
  results := ⟨fun h => absurd rfl h, fun h => absurd rfl h, by simp [State.reset], by simp [State.reset]⟩
  encoder := .of_not_encoding rfl
  decoder := .of_not_decoding (by simp [State.reset]) (by simp [State.reset])
  resync := ⟨by simp [State.reset], by simp [State.reset], fun _ => rfl, by simp [State.reset]⟩

/-- A reset gives every element that the invariant speaks of its value in `State.reset`. -/
theorem inv_resetBlocks (s : State) : (resetBlocks s).Inv := inv_reset.congr rfl rfl rfl rfl rfl

theorem step_keeps_inv {s t : State} (h : s.Inv) (hstep : step s = .next t) : t.Inv := by
  rcases step_cases hstep with ⟨ms, hsteps⟩ | ⟨-, ms, rfl⟩
  · exact hsteps.keeps_inv (h.withMoves ms)
  · exact inv_resetBlocks _

/-- Settles O7. -/
theorem resetMeetsTheInvariant : Obligations.ResetMeetsTheInvariant := by
  unfold Obligations.ResetMeetsTheInvariant
  exact inv_reset

/-- Settles O8, by the cases of a step: turns of the blocks, requests, moves of the environment and reset. -/
theorem stepKeepsTheInvariant : Obligations.StepKeepsTheInvariant := by
  unfold Obligations.StepKeepsTheInvariant
  exact fun s t h hstep => step_keeps_inv h hstep

/-! ### No fault -/

theorem startPf_ne_fault (s accepted : State) (r : Fault) : startPf s accepted ≠ .fault r := by
  rcases startPf_cases s accepted with ⟨-, e⟩ | ⟨-, -, e⟩ | ⟨-, -, e⟩ <;> simp [e]

theorem startRs_ne_fault (s accepted : State) (r : Fault) : startRs s accepted ≠ .fault r := by
  rcases startRs_cases s accepted with ⟨-, e⟩ | ⟨-, -, e⟩ | ⟨-, -, e⟩ <;> simp [e]

/-- No instruction raises a fault. -/
theorem exec_ne_fault (i : Instr) (s : State) (r : Fault) : exec i s ≠ .fault r := by
  cases i with
  | nop => simp [exec]
  | csumCompute => exact startPf_ne_fault _ _ r
  | csumVerify => exact startPf_ne_fault _ _ r
  | encode => exact startPf_ne_fault _ _ r
  | decode => exact startPf_ne_fault _ _ r
  | resync => exact startRs_ne_fault _ _ r
  | reserved6 => simp [exec, execReserved6]
  | reserved7 => simp [exec, execReserved7]
  | decodeEcho => exact startPf_ne_fault _ _ r
  | decodeMeas => exact startPf_ne_fault _ _ r
  | frameCommand => exact startPf_ne_fault _ _ r
  | frameEchoResponse => exact startPf_ne_fault _ _ r
  | frameMeasurement => exact startRs_ne_fault _ _ r
  | cmdSetFrameRate10Hz => exact startPf_ne_fault _ _ r
  | rspGetVersion321 => exact startPf_ne_fault _ _ r
  | cmdGetVersion => exact startPf_ne_fault _ _ r

theorem emitStep_ne_fault (b : Byte) (p : PfPhase) (s : State) (r : Fault) : emitStep b p s ≠ .fault r := by
  rcases emitStep_cases b p s with ⟨-, e⟩ | ⟨-, e⟩ <;> simp [e]

/-- R39: the argument that ENCODE reads next has been latched. -/
theorem State.Inv.exists_arg {s : State} (h : s.Inv) (hp : s.pfPhase = .eArgs) :
    ∃ b, Memory.read s.argbuf s.encI.toNat = some b := by
  obtain ⟨-, hwritten⟩ := h.encoder.latched (by rw [hp]; rfl)
  exact Option.isSome_iff_exists.1 (hwritten _ (h.encoder.during hp))

theorem pfStep_ne_fault {s : State} (h : s.Inv) (r : Fault) : pfStep s ≠ .fault r := by
  unfold pfStep
  split <;> rename_i hphase
  · simp
  · rcases cRunStep_cases s with ⟨-, e⟩ | ⟨_, _, -, e⟩ | ⟨_, -, e⟩ <;> simp [e]
  · rcases vRunStep_cases s with ⟨-, e⟩ | ⟨_, _, -, e⟩ | ⟨_, -, e⟩ <;> simp [e]
  · exact emitStep_ne_fault _ _ s r
  · exact emitStep_ne_fault _ _ s r
  · exact emitStep_ne_fault _ _ s r
  · obtain ⟨b, hb⟩ := h.exists_arg hphase
    rcases eArgsStep_cases s with ⟨hnone, -⟩ | ⟨_, -, -, e⟩ | ⟨_, -, -, e⟩
    · rw [hb] at hnone; cases hnone
    · simp [e]
    · simp [e]
  · rcases eCsumStep_cases s with ⟨-, e⟩ | ⟨-, e⟩ <;> simp [e]
  · rcases dRunStep_cases s with ⟨-, e⟩ | ⟨_, _, -, e⟩ | ⟨_, -, e⟩ <;> simp [e]

/-- R24, R27: while RESYNC fills, its count is an index of `FBUF`. -/
theorem rsStep_ne_fault {s : State} (h : s.Inv) (r : Fault) : rsStep s ≠ .fault r := by
  unfold rsStep
  split <;> rename_i hphase
  · simp
  · rcases sHuntStep_cases s with ⟨_, -, e⟩ | ⟨_, _, -, -, e⟩ | ⟨_, _, -, -, e⟩ <;> simp [e]
  · obtain ⟨-, hlt, -⟩ := h.resync.filling hphase
    rcases sFillStep_cases s with ⟨_, -, e⟩ | ⟨_, _, -, -, e⟩ | ⟨_, _, -, hfull, -⟩
    · simp [e]
    · simp [e]
    · exact absurd (show s.rsCnt.toNat < 255 by omega) hfull

theorem blockStep_ne_fault {s : State} (h : s.Inv) (r : Fault) : blockStep s ≠ .fault r := by
  rcases h.oneBusy with hp | hr
  · rw [blockStep_rs hp]; exact rsStep_ne_fault h r
  · rw [blockStep_pf hr]; exact pfStep_ne_fault h r

theorem hostMove_ne_fault (m : EnvMove) {held s : State} (hheld : held.Inv) (h : s.Inv) (r : Fault) :
    hostMove m held s ≠ .fault r := by
  cases m with
  | run => exact blockStep_ne_fault h r
  | await =>
    rw [hostMove_await]
    split_ifs
    · exact blockStep_ne_fault hheld r
    · simp
  | supply x => rw [hostMove_supply]; split_ifs <;> simp
  | presentFbuf => rw [hostMove_presentFbuf]; split_ifs <;> simp
  | readExact n => rw [hostMove_readExact]; split_ifs <;> simp
  | unlessOk b n => rw [hostMove_unlessOk]; simp
  | reset => simp [hostMove]
  | arrive b => simp [hostMove]
  | sink ready => simp [hostMove]
  | read p => simp [hostMove]

theorem step_ne_fault {s : State} (h : s.Inv) (r : Fault) : step s ≠ .fault r := by
  rcases hscript : s.script with _ | ⟨q | m, rest⟩
  · rw [step_nil hscript]
    exact blockStep_ne_fault h r
  · rw [step_request hscript, runRequest]
    split
    · exact exec_ne_fault _ _ r
    · simp
  · rw [step_env hscript]
    exact hostMove_ne_fault m h (h.withMoves rest) r

/-- Settles O9, by induction on the number of steps: each keeps the invariant, from which no step is a fault. -/
theorem runsFromTheInvariantAreSafe : Obligations.RunsFromTheInvariantAreSafe := by
  unfold Obligations.RunsFromTheInvariantAreSafe
  intro s h n r
  induction n generalizing s with
  | zero => simp
  | succ n ih =>
    rw [run_succ]
    cases hstep : step s with
    | next t => exact ih t (step_keeps_inv h hstep)
    | fault r' => exact absurd hstep (step_ne_fault h r')
    | refused r' => simp

end Sys2Proof.Machine
end

section
/-! PROOF. What every step leaves unchanged: the frames of the turns and of the moves of the environment, and what they
say of the flag, the valid bits, the results and the streams (10_state R24, R30, R31; 20_memory R52, R53, R56). -/

namespace Sys2Proof.Machine

open Config

/-! ### Frames -/

/-- R155: what a byte of DECODE may change. -/
theorem decodeByte_frame (b : Byte) (s : State) :
    decodeByte b s = { s with
      acc := (decodeByte b s).acc, csaLast := (decodeByte b s).csaLast, csaHave := (decodeByte b s).csaHave
      rbuf := (decodeByte b s).rbuf, decLen := (decodeByte b s).decLen, decCnt := (decodeByte b s).decCnt
      decOver := (decodeByte b s).decOver } := by
  by_cases h : s.decCnt.toNat < 255
  · rw [decodeByte_of_lt h]; rfl
  · rw [decodeByte_of_not_lt h]

/-- R185, R186: what the match of RESYNC may change. -/
theorem resyncMatch_frame (s : State) :
    resyncMatch s = { s with
      fbuf := (resyncMatch s).fbuf, rsCnt := (resyncMatch s).rsCnt, pdSeen1 := (resyncMatch s).pdSeen1
      fbufValid := (resyncMatch s).fbufValid, rsResult := (resyncMatch s).rsResult
      rsPhase := (resyncMatch s).rsPhase } := by
  rw [resyncMatch_eq]
  split_ifs <;> rfl

/-- A turn of packet_framer leaves the other block, the channel, the sink and the moves to come alone. -/
theorem PfTurn.frame {s t : State} (turn : PfTurn s t) :
    t = { s with
      acc := t.acc, csaLast := t.csaLast, csaHave := t.csaHave, pfPhase := t.pfPhase, encI := t.encI, decCnt := t.decCnt
      decOver := t.decOver, decLen := t.decLen, rbuf := t.rbuf, rbufValid := t.rbufValid, pfResult := t.pfResult
      pfFlag := t.pfFlag, tx := t.tx, inp := t.inp } := by
  cases turn with
  | decodeByte => rw [decodeByte_frame]; rfl
  | decodeEnd => rw [decodeEnd_eq]; rfl
  | _ => rfl

/-- A turn of uart_resync_matcher leaves the other block, `IN`, the transmit path and the moves to come alone. -/
theorem RsTurn.frame {s t : State} (turn : RsTurn s t) :
    t = { s with
      rsPhase := t.rsPhase, rsCnt := t.rsCnt, pdSeen1 := t.pdSeen1, fbuf := t.fbuf, fbufValid := t.fbufValid
      rsResult := t.rsResult, rx := t.rx, rxTurn := t.rxTurn } := by
  cases turn with
  | header => rw [resyncMatch_frame]; rfl
  | _ => rfl

/-- A move of the environment leaves both blocks and the transmit stream alone. -/
theorem HostMoved.frame {s t : State} (moved : HostMoved s t) :
    t = { s with
      rx := t.rx, rxTurn := t.rxTurn, txReady := t.txReady, inp := t.inp, script := t.script, lastRead := t.lastRead
      readTurn := t.readTurn } := by
  cases moved with
  | readExact _ n =>
    obtain ⟨rx, turn, e⟩ := takeRx_eq_withRx n s
    rw [e]; rfl
  | _ => rfl

/-- A request leaves the flag, the transmit path and the tail of the channel alone, and takes nothing off the streams. -/
theorem Answered.frame {s t : State} (answered : Answered s t) :
    t.pfFlag = s.pfFlag ∧ t.tx = s.tx ∧ t.rxTail = s.rxTail ∧ t.rxTurn = s.rxTurn ∧
      ∃ arrived : List Byte, t.rx = s.rx ++ arrived.map .byte := by
  cases answered with
  | arrived bs => exact ⟨rfl, rfl, rfl, rfl, bs, rfl⟩
  | measurement _ _ _ bs => exact ⟨rfl, rfl, rfl, rfl, bs, rfl⟩
  | _ => exact ⟨rfl, rfl, rfl, rfl, [], (List.append_nil _).symm⟩

/-! ### The flag (10_state R30) -/

theorem PfTurn.pfFlag {s t : State} (turn : PfTurn s t) :
    t.pfFlag = s.pfFlag ∨ s.pfPhase = .vRun ∧ t.pfPhase = .idle ∧ t.pfResult = .ok ∧ t.pfFlag = csaMatch s := by
  cases turn with
  | verifyEnd hp => exact .inr ⟨hp, rfl, rfl, rfl⟩
  | decodeByte => rw [decodeByte_frame]; exact .inl rfl
  | decodeEnd => rw [decodeEnd_eq]; exact .inl rfl
  | _ => exact .inl rfl

/-- Settles O41, by the frames of all steps but the last of CSUM_VERIFY and reset. -/
theorem onlyCsumVerifyAndResetWriteTheFlag : Obligations.OnlyCsumVerifyAndResetWriteTheFlag := by
  unfold Obligations.OnlyCsumVerifyAndResetWriteTheFlag
  intro s t hstep
  rcases step_cases hstep with ⟨ms, steps⟩ | ⟨hreset, ms, rfl⟩
  · cases steps with
    | pf _ turn => exact turn.pfFlag.imp_right .inl
    | rs _ turn => rw [turn.frame]; exact .inl rfl
    | request answered => exact .inl answered.frame.1
    | host moved => rw [moved.frame]; exact .inl rfl
  · exact .inr (.inr ⟨hreset, rfl⟩)

/-! ### The valid bits (10_state R31) -/

theorem Steps.rbufValid {s t : State} (steps : Steps s t) :
    t.rbufValid = s.rbufValid ∨
      (t.rbufValid = true ∧ s.pfPhase = .dRun ∧ t.pfPhase = .idle ∧ t.pfResult = .ok) ∨
      (t.rbufValid = false ∧ s.pfPhase = .idle ∧ t.pfPhase = .dRun) := by
  cases steps with
  | pf _ turn =>
    cases turn with
    | decodeByte => rw [decodeByte_frame]; exact .inl rfl
    | @decodeEnd rest hp =>
      by_cases hok : decodeVerdict (s.withInp rest) = .ok
      · rw [decodeEnd_eq, hok]; exact .inr (.inl ⟨rfl, hp, rfl, rfl⟩)
      · rw [decodeEnd_eq, if_neg hok]; exact .inl rfl
    | _ => exact .inl rfl
  | rs _ turn => rw [turn.frame]; exact .inl rfl
  | request answered =>
    cases answered with
    | decode hidle => exact .inr (.inr ⟨rfl, hidle.1, rfl⟩)
    | echo hidle => exact .inr (.inr ⟨rfl, hidle.1, rfl⟩)
    | _ => exact .inl rfl
  | host moved => rw [moved.frame]; exact .inl rfl

theorem resyncMatch_fbufValid (s : State) :
    (resyncMatch s).fbufValid = s.fbufValid ∨
      (resyncMatch s).fbufValid = true ∧ (resyncMatch s).rsPhase = .idle ∧ (resyncMatch s).rsResult = .ok := by
  rw [resyncMatch_eq]
  split_ifs
  · exact .inr ⟨rfl, rfl, rfl⟩
  · exact .inl rfl

theorem Steps.fbufValid {s t : State} (steps : Steps s t) :
    t.fbufValid = s.fbufValid ∨
      (t.fbufValid = true ∧ s.rsPhase ≠ .idle ∧ t.rsPhase = .idle ∧ t.rsResult = .ok) ∨
      (t.fbufValid = false ∧ s.rsPhase = .idle ∧ t.rsPhase = .sHunt) := by
  cases steps with
  | pf _ turn => rw [turn.frame]; exact .inl rfl
  | rs _ turn =>
    cases turn with
    | @header b rx turn hp =>
      have hbusy : s.rsPhase ≠ .idle := by simp [hp]
      exact (resyncMatch_fbufValid (s.withRx rx turn)).imp_right fun ⟨hv, hend⟩ => .inl ⟨hv, hbusy, hend⟩
    | complete hp => exact .inr (.inl ⟨rfl, by simp [hp], rfl, rfl⟩)
    | _ => exact .inl rfl
  | request answered =>
    cases answered with
    | resync hidle => exact .inr (.inr ⟨rfl, hidle.2, rfl⟩)
    | measurement hidle => exact .inr (.inr ⟨rfl, hidle.2, rfl⟩)
    | _ => exact .inl rfl
  | host moved => rw [moved.frame]; exact .inl rfl

/-- Settles O42: a step that is no reset keeps a valid bit, ends its operation with `OK` or starts it. -/
theorem validBitsFollowTheirOperations : Obligations.ValidBitsFollowTheirOperations := by
  unfold Obligations.ValidBitsFollowTheirOperations
  intro s t _ hstep
  rcases step_cases hstep with ⟨ms, steps⟩ | ⟨hreset, ms, rfl⟩
  · have hr := steps.rbufValid
    have hf := steps.fbufValid
    simp only [State.withMoves] at hr hf
    refine ⟨fun h1 h2 => ?_, fun h1 h2 => ?_, fun h1 h2 => ?_, fun h1 h2 => ?_⟩
    · simpa [h1, h2] using hr
    · exact .inl (by simpa [h1, h2] using hr)
    · simpa [h1, h2] using hf
    · exact .inl (by simpa [h1, h2] using hf)
  · exact ⟨fun _ h => Bool.noConfusion h, fun _ _ => .inr hreset, fun _ h => Bool.noConfusion h, fun _ _ => .inr hreset⟩

/-! ### Results and phases (10_state R24) -/

theorem PfTurn.pfResult_of_ends {s t : State} (turn : PfTurn s t) (hs : s.pfPhase ≠ .idle) (ht : t.pfPhase = .idle) :
    t.pfResult ≠ .none := by
  cases turn with
  | hold => exact absurd ht hs
  | sumByte => exact absurd ht hs
  | sumEnd => simp
  | verifyByte => exact absurd ht hs
  | verifyEnd => simp [csumVerifyEnd]
  | decodeByte => rw [decodeByte_frame] at ht; exact absurd ht hs
  | @decodeEnd rest =>
    rw [decodeEnd_eq]
    rcases decodeVerdict_cases (s.withInp rest) with e | e | e <;> simp [e]
  | emitFixed b p _ hrows =>
    have hp : p ≠ .idle := by
      rcases hrows with ⟨-, rfl⟩ | ⟨-, rfl⟩ | ⟨-, rfl⟩
      · simp
      · simp
      · split_ifs <;> simp
    exact absurd ht hp
  | emitArg =>
    have hp : (if s.encI.toNat + 1 < s.encN.toNat then PfPhase.eArgs else .eCsum) ≠ .idle := by split_ifs <;> simp
    exact absurd ht hp
  | emitSum => simp

theorem RsTurn.rsResult_of_ends {s t : State} (turn : RsTurn s t) (hs : s.rsPhase ≠ .idle) (ht : t.rsPhase = .idle) :
    t.rsResult ≠ .none := by
  cases turn with
  | hold => exact absurd ht hs
  | timeout => simp
  | header =>
    rw [resyncMatch_eq] at ht ⊢
    split_ifs at ht ⊢
    simp
  | note => exact absurd ht hs
  | store => exact absurd ht hs
  | complete => simp

/-- A request does not end an operation. -/
theorem Answered.keeps_busy {s t : State} (answered : Answered s t) :
    (s.pfPhase ≠ .idle → t.pfPhase ≠ .idle) ∧ (s.rsPhase ≠ .idle → t.rsPhase ≠ .idle) := by
  cases answered with
  | ignored => exact ⟨id, id⟩
  | arrived => exact ⟨id, id⟩
  | reserved => exact ⟨id, id⟩
  | refusedPf hidle => exact ⟨id, id⟩
  | refusedRs hidle => exact ⟨id, id⟩
  | csumCompute hidle => exact ⟨fun h => absurd hidle.1 h, id⟩
  | csumVerify hidle => exact ⟨fun h => absurd hidle.1 h, id⟩
  | encode hidle => exact ⟨fun h => absurd hidle.1 h, id⟩
  | decode hidle => exact ⟨fun h => absurd hidle.1 h, id⟩
  | echo hidle => exact ⟨fun h => absurd hidle.1 h, id⟩
  | resync hidle => exact ⟨id, fun h => absurd hidle.2 h⟩
  | measurement hidle => exact ⟨id, fun h => absurd hidle.2 h⟩

/-- An operation that ends has a result. -/
theorem Steps.result_of_ends {s t : State} (steps : Steps s t) :
    (s.pfPhase ≠ .idle → t.pfPhase = .idle → t.pfResult ≠ .none) ∧
      (s.rsPhase ≠ .idle → t.rsPhase = .idle → t.rsResult ≠ .none) := by
  cases steps with
  | pf hr turn => exact ⟨turn.pfResult_of_ends, fun hs => absurd hr hs⟩
  | rs hp turn => exact ⟨fun hs => absurd hp hs, turn.rsResult_of_ends⟩
  | request answered =>
    obtain ⟨hpf, hrs⟩ := answered.keeps_busy
    exact ⟨fun hs ht => absurd ht (hpf hs), fun hs ht => absurd ht (hrs hs)⟩
  | host moved => rw [moved.frame]; exact ⟨fun hs ht => absurd ht hs, fun hs ht => absurd ht hs⟩

/-- Settles O43: a step that ends an operation gives it a result, and by the invariant a busy block has none. -/
theorem aPhaseReturnsToIdleExactlyWithItsResult : Obligations.APhaseReturnsToIdleExactlyWithItsResult := by
  unfold Obligations.APhaseReturnsToIdleExactlyWithItsResult
  intro s t hinv hstep hreset
  have hlegal := (step_keeps_inv hinv hstep).results
  rcases step_cases hstep with ⟨ms, steps⟩ | ⟨h, -⟩
  · obtain ⟨hpf, hrs⟩ := steps.result_of_ends
    exact ⟨fun hs => ⟨hpf hs, fun hne => not_not.1 fun hp => hne (hlegal.pfBusyNone hp)⟩,
      fun hs => ⟨hrs hs, fun hne => not_not.1 fun hp => hne (hlegal.rsBusyNone hp)⟩⟩
  · exact absurd h hreset

/-! ### The transmit stream (20_memory R53, R66) -/

theorem PfTurn.tx {s t : State} (turn : PfTurn s t) :
    t.tx = s.tx ∨ s.pfPhase.encoding = true ∧ s.txReady = true ∧ ∃ b, t.tx = s.tx ++ [b] := by
  cases turn with
  | emitFixed b p hready hrows =>
    have hp : s.pfPhase.encoding = true := by rcases hrows with ⟨h, -⟩ | ⟨h, -⟩ | ⟨h, -⟩ <;> rw [h] <;> rfl
    exact .inr ⟨hp, hready, b, rfl⟩
  | emitArg b hp hready => exact .inr ⟨by rw [hp]; rfl, hready, b, rfl⟩
  | emitSum hp hready => exact .inr ⟨by rw [hp]; rfl, hready, s.acc, rfl⟩
  | decodeByte => rw [decodeByte_frame]; exact .inl rfl
  | decodeEnd => rw [decodeEnd_eq]; exact .inl rfl
  | _ => exact .inl rfl

/-- Settles O44, by the frames of all steps but the emissions. -/
theorem transmitStreamOnlyGrows : Obligations.TransmitStreamOnlyGrows := by
  unfold Obligations.TransmitStreamOnlyGrows
  intro s t hstep
  rcases step_cases hstep with ⟨ms, steps⟩ | ⟨-, ms, rfl⟩
  · cases steps with
    | pf _ turn => exact turn.tx
    | rs _ turn => rw [turn.frame]; exact .inl rfl
    | request answered => exact .inl answered.frame.2.1
    | host moved => rw [moved.frame]; exact .inl rfl
  · exact .inl rfl

/-! ### The receive channel (20_memory R52, R60) -/

/-- From s to t the channel loses the first `taken` answers of its list and then `turns` of its tail. -/
structure ChannelTaken (s t : State) (taken turns : Nat) : Prop where
  le : taken ≤ s.rx.length
  list : t.rx = s.rx.drop taken
  turn : t.rxTurn = s.rxTurn + turns
  tail : t.rxTail = s.rxTail
  behind : turns ≠ 0 → taken = s.rx.length ∧ s.rxTail ≠ .exhausted

theorem ChannelTaken.none {s t : State} (list : t.rx = s.rx) (turn : t.rxTurn = s.rxTurn) (tail : t.rxTail = s.rxTail) :
    ChannelTaken s t 0 0 :=
  ⟨Nat.zero_le _, list, turn, tail, fun h => absurd rfl h⟩

/-- A pop takes at most one answer. -/
theorem rxPop_taken (s : State) : ∃ taken turns, taken + turns ≤ 1 ∧ ChannelTaken s (rxPop s).2 taken turns := by
  rcases rxPop_cases s with ⟨h, e⟩ | ⟨a, rest, h, e⟩
  · rw [e]
    by_cases ht : s.rxTail = .exhausted
    · exact ⟨0, 0, by omega, .none rfl (by simp [ht]) rfl⟩
    · exact ⟨0, 1, by omega, by omega, rfl, RxTail.turnAfter_endless ht _, rfl, fun _ => ⟨by rw [h]; rfl, ht⟩⟩
  · rw [e]
    exact ⟨1, 0, by omega, by rw [h]; exact Nat.le_add_left 1 _, by rw [h]; rfl, rfl, rfl, fun h0 => absurd rfl h0⟩

theorem ChannelTaken.trans {s t u : State} {n m i j : Nat} (h1 : ChannelTaken s t n i) (h2 : ChannelTaken t u m j) :
    ChannelTaken s u (n + m) (i + j) := by
  have hlen : t.rx.length = s.rx.length - n := by rw [h1.list, List.length_drop]
  have hle1 := h1.le
  have hle2 := h2.le
  refine ⟨by omega, by rw [h2.list, h1.list, List.drop_drop], by rw [h2.turn, h1.turn, Nat.add_assoc],
    h2.tail.trans h1.tail, fun hij => ?_⟩
  by_cases hi : i = 0
  · obtain ⟨hm, htail⟩ := h2.behind (by omega)
    exact ⟨by omega, h1.tail ▸ htail⟩
  · obtain ⟨hn, htail⟩ := h1.behind hi
    exact ⟨by omega, htail⟩

theorem takeRx_taken (n : Nat) (s : State) : ∃ taken turns, ChannelTaken s (takeRx n s).2 taken turns := by
  induction n generalizing s with
  | zero => exact ⟨0, 0, .none rfl rfl rfl⟩
  | succ n ih =>
    obtain ⟨i, j, -, hpop⟩ := rxPop_taken s
    unfold takeRx
    rcases h : rxPop s with ⟨b | _, t⟩ <;> rw [h] at hpop
    · obtain ⟨i', j', hrest⟩ := ih t
      exact ⟨_, _, hpop.trans hrest⟩
    · exact ⟨_, _, hpop⟩

/-- A turn of RESYNC pops at most once (43 R186). -/
theorem RsTurn.taken {s t : State} (turn : RsTurn s t) :
    ∃ taken turns, taken + turns ≤ 1 ∧ ChannelTaken s t taken turns := by
  have hpopped : ∀ {a rx n u}, rxPop s = (a, s.withRx rx n) → u.rx = rx → u.rxTurn = n → u.rxTail = s.rxTail →
      ∃ taken turns, taken + turns ≤ 1 ∧ ChannelTaken s u taken turns := by
    intro a rx n u hpop hrx hturn htail
    obtain ⟨i, j, hij, htaken⟩ := rxPop_taken s
    rw [hpop] at htaken
    exact ⟨i, j, hij, htaken.le, hrx.trans htaken.list, hturn.trans htaken.turn, htail, htaken.behind⟩
  cases turn with
  | hold => exact ⟨0, 0, by omega, .none rfl rfl rfl⟩
  | timeout _ hpop => exact hpopped hpop rfl rfl rfl
  | header _ hpop => rw [resyncMatch_frame]; exact hpopped hpop rfl rfl rfl
  | note _ hpop => exact hpopped hpop rfl rfl rfl
  | store _ hpop => exact hpopped hpop rfl rfl rfl
  | complete _ hpop => exact hpopped hpop rfl rfl rfl

/-- Answers are taken, or bytes arrive; with packet_framer busy none is taken, with RESYNC running at most one. -/
inductive ChannelStep (s t : State) : Prop where
  | taken {taken turns : Nat} (h : ChannelTaken s t taken turns)
    (pfBusy : s.pfPhase ≠ .idle → taken = 0 ∧ turns = 0) (rsBusy : s.rsPhase ≠ .idle → taken + turns ≤ 1)
  | arrived {bs : List Byte} (list : t.rx = s.rx ++ bs.map .byte) (turn : t.rxTurn = s.rxTurn) (tail : t.rxTail = s.rxTail)

theorem ChannelStep.unchanged {s t : State} (list : t.rx = s.rx) (turn : t.rxTurn = s.rxTurn) (tail : t.rxTail = s.rxTail) :
    ChannelStep s t :=
  .taken (.none list turn tail) (fun _ => ⟨rfl, rfl⟩) (fun _ => by omega)

theorem HostMoved.channelStep {s t : State} (moved : HostMoved s t) : ChannelStep s t := by
  cases moved with
  | arrive b => exact .arrived (bs := [b]) rfl rfl rfl
  | readExact hidle n =>
    obtain ⟨i, j, h⟩ := takeRx_taken n s
    exact .taken ⟨h.le, h.list, h.turn, h.tail, h.behind⟩ (fun hp => absurd hidle.1 hp) (fun hr => absurd hidle.2 hr)
  | _ => exact .unchanged rfl rfl rfl

theorem Steps.channelStep {s t : State} (steps : Steps s t) : ChannelStep s t := by
  cases steps with
  | pf _ turn => rw [turn.frame]; exact .unchanged rfl rfl rfl
  | rs hp turn =>
    obtain ⟨i, j, hij, h⟩ := turn.taken
    exact .taken h (fun hne => absurd hp hne) (fun _ => hij)
  | request answered =>
    obtain ⟨-, -, htail, hturn, bs, hlist⟩ := answered.frame
    exact .arrived hlist hturn htail
  | host moved => exact moved.channelStep

/-- Settles O45: a step takes answers from the front or adds bytes at the back. -/
theorem receiveChannelIsFirstInFirstOut : Obligations.ReceiveChannelIsFirstInFirstOut := by
  unfold Obligations.ReceiveChannelIsFirstInFirstOut
  intro s t hstep
  rcases step_cases hstep with ⟨ms, steps⟩ | ⟨-, ms, rfl⟩
  · cases steps.channelStep with
    | @taken i j h hpf hrs =>
      exact ⟨h.tail, i, j, [], h.le, by rw [h.list]; simp, h.turn, h.behind, fun hne => absurd rfl hne, hpf, hrs⟩
    | @arrived bs hlist hturn htail =>
      exact ⟨htail, 0, 0, bs, Nat.zero_le _, hlist, hturn, fun h0 => absurd rfl h0, fun _ => ⟨rfl, rfl⟩,
        fun _ => ⟨rfl, rfl⟩, fun _ => by omega⟩
  · exact ⟨rfl, 0, 0, [], Nat.zero_le _, by simp [resetBlocks], rfl, fun h0 => absurd rfl h0, fun _ => ⟨rfl, rfl⟩,
      fun _ => ⟨rfl, rfl⟩, fun _ => by omega⟩

end Sys2Proof.Machine
end

section
/-! PROOF. The rows of the transition tables but those of `D_RUN`, and the frame of each phase (40 R117; 41 R134, R138;
43 R186; 20_memory R56). -/

namespace Sys2Proof.Machine

open Config

/-! ### The step of each phase -/

theorem pfStep_cRun {s : State} (h : s.pfPhase = .cRun) : pfStep s = cRunStep s := by rw [pfStep, h]
theorem pfStep_vRun {s : State} (h : s.pfPhase = .vRun) : pfStep s = vRunStep s := by rw [pfStep, h]
theorem pfStep_eHdr {s : State} (h : s.pfPhase = .eHdr) : pfStep s = eHdrStep s := by rw [pfStep, h]
theorem pfStep_eLen {s : State} (h : s.pfPhase = .eLen) : pfStep s = eLenStep s := by rw [pfStep, h]
theorem pfStep_eCode {s : State} (h : s.pfPhase = .eCode) : pfStep s = eCodeStep s := by rw [pfStep, h]
theorem pfStep_eArgs {s : State} (h : s.pfPhase = .eArgs) : pfStep s = eArgsStep s := by rw [pfStep, h]
theorem pfStep_eCsum {s : State} (h : s.pfPhase = .eCsum) : pfStep s = eCsumStep s := by rw [pfStep, h]
theorem pfStep_dRun {s : State} (h : s.pfPhase = .dRun) : pfStep s = dRunStep s := by rw [pfStep, h]
theorem rsStep_sHunt {s : State} (h : s.rsPhase = .sHunt) : rsStep s = sHuntStep s := by rw [rsStep, h]
theorem rsStep_sFill {s : State} (h : s.rsPhase = .sFill) : rsStep s = sFillStep s := by rw [rsStep, h]

/-- With the environment making no move and the other block idle, a step is one of packet_framer. -/
theorem step_eq_pfStep {s : State} (hscript : s.script = []) (hr : s.rsPhase = .idle) : step s = pfStep s := by
  rw [step_nil hscript, blockStep_pf hr]

/-- With the environment making no move and the other block idle, a step is one of uart_resync_matcher. -/
theorem step_eq_rsStep {s : State} (hscript : s.script = []) (hp : s.pfPhase = .idle) : step s = rsStep s := by
  rw [step_nil hscript, blockStep_rs hp]

/-- 41 R134: the phases in which ENCODE emits. -/
theorem PfPhase.encoding_iff {p : PfPhase} :
    p.encoding = true ↔ p = .eHdr ∨ p = .eLen ∨ p = .eCode ∨ p = .eArgs ∨ p = .eCsum := by
  cases p <;> simp [PfPhase.encoding]

/-! ### Rows of `C_RUN` and `V_RUN` -/

theorem cRunStep_nil {s : State} (h : s.inp = []) : cRunStep s = .next s := by unfold cRunStep; rw [inPop_nil h]

theorem vRunStep_nil {s : State} (h : s.inp = []) : vRunStep s = .next s := by unfold vRunStep; rw [inPop_nil h]

/-- Settles O23, row by row. -/
theorem checksumRows : Obligations.ChecksumRows := by
  unfold Obligations.ChecksumRows
  intro s hscript hr
  rw [step_eq_pfStep hscript hr]
  refine ⟨fun hp hin => ?_, fun b rest hp hin => ?_, fun rest hp hin => ?_, fun hp hin => ?_, fun b rest hp hin => ?_,
    fun rest hp hin => ?_⟩
  · rw [pfStep_cRun hp, cRunStep_nil hin]
  · rw [pfStep_cRun hp, cRunStep_byte hin]; rfl
  · rw [pfStep_cRun hp, cRunStep_endMark hin]; rfl
  · rw [pfStep_vRun hp, vRunStep_nil hin]
  · rw [pfStep_vRun hp, vRunStep_byte hin]; rfl
  · rw [pfStep_vRun hp, vRunStep_endMark hin]; rfl

/-! ### Rows of ENCODE -/

theorem emitStep_stalled {s : State} (h : s.txReady = false) (b : Byte) (p : PfPhase) : emitStep b p s = .next s := by
  rw [emitStep, txPush_stalled b h]

theorem eArgsStep_stalled {s : State} (h : s.txReady = false) {b : Byte}
    (hb : Memory.read s.argbuf s.encI.toNat = some b) : eArgsStep s = .next s := by
  simp [eArgsStep, hb, h]

theorem eCsumStep_stalled {s : State} (h : s.txReady = false) : eCsumStep s = .next s := by
  rw [eCsumStep, txPush_stalled _ h]

/-- R138: ENCODE holds while the sink does not take the byte. -/
theorem pfStep_stalled {s : State} (hp : s.pfPhase.encoding = true) (hsink : s.txReady = false)
    (harg : s.pfPhase = .eArgs → ∃ b, Memory.read s.argbuf s.encI.toNat = some b) : pfStep s = .next s := by
  rcases PfPhase.encoding_iff.1 hp with h | h | h | h | h
  · rw [pfStep_eHdr h, eHdrStep, emitStep_stalled hsink]
  · rw [pfStep_eLen h, eLenStep, emitStep_stalled hsink]
  · rw [pfStep_eCode h, eCodeStep, emitStep_stalled hsink]
  · obtain ⟨b, hb⟩ := harg h
    rw [pfStep_eArgs h, eArgsStep_stalled hsink hb]
  · rw [pfStep_eCsum h, eCsumStep_stalled hsink]

/-- R82: the length byte that `E_LEN` sends. -/
theorem lengthByte_encN (n : Byte) : lengthByte n.toNat = n + 4 := by
  rw [lengthByte, BitVec.ofNat_add, BitVec.ofNat_toNat, BitVec.setWidth_eq]; rfl

/-- Settles O24, row by row. -/
theorem encoderRows : Obligations.EncoderRows := by
  unfold Obligations.EncoderRows
  intro s hscript hr
  rw [step_eq_pfStep hscript hr]
  refine ⟨pfStep_stalled, fun hp hready => ?_, fun hp hready => ?_, fun hp hready => ?_, fun b hp hready hb => ?_,
    fun hp hready => ?_⟩
  · rw [pfStep_eHdr hp, eHdrStep, emitStep_ready hready]; rfl
  · rw [pfStep_eLen hp, eLenStep, emitStep_ready hready, lengthByte_encN]
  · rw [pfStep_eCode hp, eCodeStep, emitStep_ready hready]
  · rw [pfStep_eArgs hp, eArgsStep_ready hready hb]
  · rw [pfStep_eCsum hp, eCsumStep_ready hready]; rfl

/-! ### Rows of RESYNC -/

/-- The next answer of the channel is what a pop gets. -/
theorem rxPop_of_channelAnswers {s : State} {a : RxAnswer} {rx : List RxAnswer} {turn : Nat}
    (h : Claims.channelAnswers s a rx turn) : rxPop s = (a, s.withRx rx turn) := by
  rcases h with ⟨hrx, rfl⟩ | ⟨hnil, htail, rfl, rfl, rfl⟩ | ⟨hnil, htail, rfl, rfl, rfl⟩
  · rw [rxPop_cons hrx]; rfl
  · rw [rxPop_ended hnil htail, State.withRx, ← hnil]
  · rw [rxPop_nil hnil, RxTail.turnAfter_endless htail, State.withRx, ← hnil]

/-- R186: `Exhausted` ends RESYNC in either phase. -/
theorem rsStep_exhausted {s t : State} (hbusy : s.rsPhase ≠ .idle) (hpop : rxPop s = (.exhausted, t)) :
    rsStep s = .next (finishRs .syncTimeout t) := by
  cases hp : s.rsPhase with
  | idle => exact absurd hp hbusy
  | sHunt => rw [rsStep_sHunt hp, sHuntStep, hpop]
  | sFill => rw [rsStep_sFill hp, sFillStep, hpop]

theorem pdMatch_iff {b : Byte} {s : State} : pdMatch b s = true ↔ s.pdSeen1 = true ∧ b = hdr1 := by simp [pdMatch]

/-- R181, R186: the second 0x59 ends the hunt. -/
theorem rsStep_header {s : State} {b : Byte} {rx : List RxAnswer} {turn : Nat} (hp : s.rsPhase = .sHunt)
    (hpop : rxPop s = (.byte b, s.withRx rx turn)) (hfound : s.pdSeen1 = true ∧ b = hdr1) :
    rsStep s = .next (resyncMatch (s.withRx rx turn)) := by
  rw [rsStep_sHunt hp, sHuntStep, hpop]
  exact congrArg Host.Outcome.next (if_pos (pdMatch_iff.2 hfound))

/-- R181, R186: any other byte is noted. -/
theorem rsStep_note {s : State} {b : Byte} {rx : List RxAnswer} {turn : Nat} (hp : s.rsPhase = .sHunt)
    (hpop : rxPop s = (.byte b, s.withRx rx turn)) (hfound : ¬ (s.pdSeen1 = true ∧ b = hdr1)) :
    rsStep s = .next (pdNote b (s.withRx rx turn)) := by
  rw [rsStep_sHunt hp, sHuntStep, hpop]
  exact congrArg Host.Outcome.next (if_neg (mt pdMatch_iff.1 hfound))

/-- R185, R186: a byte of the frame is stored, and the last one ends the operation. -/
theorem rsStep_store {s : State} {b : Byte} {rx : List RxAnswer} {turn : Nat} (hp : s.rsPhase = .sFill)
    (hpop : rxPop s = (.byte b, s.withRx rx turn)) (hroom : s.rsCnt.toNat < 255) :
    rsStep s = .next (if s.rsCnt.toNat + 1 = s.rsE.toNat then resyncDone (storeByte b (s.withRx rx turn))
      else storeByte b (s.withRx rx turn)) := by
  rw [rsStep_sFill hp, sFillStep, hpop]
  exact if_pos hroom

theorem resyncMatch_fbuf (s : State) : (resyncMatch s).fbuf = s.withHeader.fbuf := by
  rw [resyncMatch_eq]
  split_ifs <;> rfl

/-- Settles O26, row by row. -/
theorem resyncRows : Obligations.ResyncRows := by
  unfold Obligations.ResyncRows
  intro s rx turn hscript hpf
  rw [step_eq_rsStep hscript hpf]
  refine ⟨fun hbusy hans => ?_, fun hp hans hseen => ?_, fun b hp hans hnot => ?_, fun b hp hans hroom => ?_⟩
  · rw [rsStep_exhausted hbusy (rxPop_of_channelAnswers hans)]; rfl
  · refine ⟨_, rsStep_header hp (rxPop_of_channelAnswers hans) ⟨hseen, rfl⟩, ?_, fun j => ?_⟩
    · rw [resyncMatch_eq]
      split_ifs <;> simp_all [State.withHeader, resyncDone, finishRs]
    · rw [resyncMatch_fbuf]
      exact read_withHeader_fbuf (s.withRx rx turn) j
  · rw [rsStep_note hp (rxPop_of_channelAnswers hans) hnot]
    rfl
  · refine ⟨_, rsStep_store hp (rxPop_of_channelAnswers hans) hroom, ?_, fun j => ?_⟩
    · split_ifs
      · rfl
      · rw [storeByte, ← hp]; rfl
    · by_cases hlast : s.rsCnt.toNat + 1 = s.rsE.toNat
      · rw [if_pos hlast]; exact Memory.read_write s.fbuf s.rsCnt.toNat j b
      · rw [if_neg hlast]; exact Memory.read_write s.fbuf s.rsCnt.toNat j b

/-! ### The frame of each phase -/

/-- 41 R134: an emission changes the stream, the sum, the index and the phase, and the last one the result. -/
theorem PfTurn.frame_encoding {s t : State} (turn : PfTurn s t) (hp : s.pfPhase.encoding = true) :
    t = { s with acc := t.acc, encI := t.encI, pfPhase := t.pfPhase, pfResult := t.pfResult, tx := t.tx } := by
  have hne : s.pfPhase ≠ .cRun ∧ s.pfPhase ≠ .vRun ∧ s.pfPhase ≠ .dRun := by
    rcases PfPhase.encoding_iff.1 hp with h | h | h | h | h <;> simp [h]
  obtain ⟨hc, hv, hd⟩ := hne
  cases turn with
  | hold => rfl
  | sumByte h => exact absurd h hc
  | sumEnd h => exact absurd h hc
  | verifyByte h => exact absurd h hv
  | verifyEnd h => exact absurd h hv
  | decodeByte h => exact absurd h hd
  | decodeEnd h => exact absurd h hd
  | emitFixed => rfl
  | emitArg => rfl
  | emitSum => rfl

/-- R155: of `RBUF` a byte changes only the entry at the count. -/
theorem read_decodeByte_rbuf_other {s : State} {j : Nat} (hj : j ≠ s.decCnt.toNat) (b : Byte) :
    Memory.read (decodeByte b s).rbuf j = Memory.read s.rbuf j := by
  by_cases h : s.decCnt.toNat < 255
  · rw [decodeByte_of_lt h]; exact Memory.read_write_other _ _ hj
  · rw [decodeByte_of_not_lt h]

/-- Settles O40, phase by phase. -/
theorem frameOfARunningOperation : Obligations.FrameOfARunningOperation := by
  unfold Obligations.FrameOfARunningOperation
  intro s t h
  have hpf : s.pfPhase ≠ .idle → pfStep s = .next t := fun hne =>
    (blockStep_next h).elim (·.2) fun ⟨hp, _⟩ => absurd hp hne
  have hrs : s.rsPhase ≠ .idle → rsStep s = .next t := fun hne =>
    (blockStep_next h).elim (fun ⟨hr, _⟩ => absurd hr hne) (·.2)
  refine ⟨fun hp => ?_, fun hp => ?_, fun hp => ?_, fun hp => ?_, fun hp => ?_, fun hp => ?_⟩
  · have h := hpf (by simp [hp])
    rw [pfStep_cRun hp] at h
    rcases cRunStep_cases s with ⟨-, e⟩ | ⟨b, rest, -, e⟩ | ⟨rest, -, e⟩ <;> rw [e] at h <;>
      obtain rfl := Host.Outcome.next.inj h <;> rfl
  · have h := hpf (by simp [hp])
    rw [pfStep_vRun hp] at h
    rcases vRunStep_cases s with ⟨-, e⟩ | ⟨b, rest, -, e⟩ | ⟨rest, -, e⟩ <;> rw [e] at h <;>
      obtain rfl := Host.Outcome.next.inj h <;> rfl
  · have hne : s.pfPhase ≠ .idle := by rintro e; rw [e] at hp; cases hp
    exact (pfStep_pfTurn (hpf hne)).frame_encoding hp
  · have h := hpf (by simp [hp])
    rw [pfStep_dRun hp] at h
    rcases dRunStep_cases s with ⟨-, e⟩ | ⟨b, rest, -, e⟩ | ⟨rest, -, e⟩ <;> rw [e] at h <;>
      obtain rfl := Host.Outcome.next.inj h
    · exact ⟨rfl, fun _ _ => rfl⟩
    · refine ⟨?_, fun j hj => read_decodeByte_rbuf_other (s := s.withInp rest) hj b⟩
      rw [decodeByte_frame]
    · rw [decodeEnd_eq]
      exact ⟨rfl, fun _ _ => rfl⟩
  · refine ⟨(rsStep_rsTurn (hrs (by simp [hp]))).frame, fun j hj => ?_⟩
    have h := hrs (by simp [hp])
    rw [rsStep_sHunt hp] at h
    rcases sHuntStep_cases s with ⟨u, hpop, e⟩ | ⟨b, u, hpop, -, e⟩ | ⟨b, u, hpop, -, e⟩ <;> rw [e] at h <;>
      obtain rfl := Host.Outcome.next.inj h <;> obtain ⟨rx, turn, rfl⟩ := rxPop_eq_withRx hpop
    · rfl
    · rw [resyncMatch_fbuf, read_withHeader_fbuf, if_neg (Nat.not_lt.2 hj)]
      rfl
    · rfl
  · have h := hrs (by simp [hp])
    rw [rsStep_sFill hp] at h
    rcases sFillStep_cases s with ⟨u, hpop, e⟩ | ⟨b, u, hpop, -, e⟩ | ⟨b, u, -, -, e⟩ <;> rw [e] at h
    · obtain rfl := Host.Outcome.next.inj h
      obtain ⟨rx, turn, rfl⟩ := rxPop_eq_withRx hpop
      exact ⟨rfl, fun _ _ => rfl⟩
    · obtain rfl := Host.Outcome.next.inj h
      obtain ⟨rx, turn, rfl⟩ := rxPop_eq_withRx hpop
      split_ifs
      · exact ⟨rfl, fun j hj => Memory.read_write_other _ _ hj⟩
      · exact ⟨rfl, fun j hj => Memory.read_write_other _ _ hj⟩
    · cases h

end Sys2Proof.Machine
end

section
/-! PROOF. Requests and starts: the form of the step, reserved codes, ignored and overlapping starts, and the starting
steps of both blocks (10_state R29; 30_encoding R80 to R85, R97; 40 R117; 43 R184). -/

namespace Sys2Proof.Machine

open Config

/-! ### The form of the step -/

theorem runRequest_of_instr {s : State} {r : Request} {i : Instr} (h : decode s.meas r = .instr i) :
    runRequest r s = exec i s := by rw [runRequest, h]

theorem runRequest_of_rejected {s : State} {r : Request} {e : DecodeError} (h : decode s.meas r = .rejected e) :
    runRequest r s = .refused (.undecodable e) := by rw [runRequest, h]

theorem decode_of_decodeTableWord {nbits w : Nat} {i : Instr} (h : decodeTableWord nbits w = some i) :
    decode .plain (tableRequest nbits w) = .instr i := by
  unfold decodeTableWord at h
  split at h
  · rename_i hi; rw [hi, Option.some.inj h]
  · cases h

/-- Settles O4. -/
theorem stepRunsTheDecodedInstruction : Obligations.StepRunsTheDecodedInstruction := by
  unfold Obligations.StepRunsTheDecodedInstruction
  refine ⟨fun s r rest hscript => ⟨fun i hi => ?_, fun e he => ?_⟩, fun s nbits w i hmeas hi => ?_⟩
  · rw [step_request hscript]
    exact runRequest_of_instr hi
  · rw [step_request hscript]
    exact runRequest_of_rejected he
  · rw [step_request (withFetchWord_script s nbits w)]
    refine runRequest_of_instr (s := s) ?_
    rw [hmeas, decode_of_decodeTableWord hi]

/-! ### Reserved codes -/

theorem refuseReserved_eq (s : State) :
    refuseReserved s = { s with
      pfResult := if s.pfPhase = .idle then .refused else s.pfResult
      rsResult := if s.rsPhase = .idle then .refused else s.rsResult } := by
  simp only [refuseReserved, pfBusy_eq_true, rsBusy_eq_true, ne_eq, ite_not]

/-- Settles O11. -/
theorem reservedCodesWriteRefused : Obligations.ReservedCodesWriteRefused := by
  unfold Obligations.ReservedCodesWriteRefused
  rintro i s (rfl | rfl)
  · exact congrArg Host.Outcome.next (refuseReserved_eq s)
  · exact congrArg Host.Outcome.next (refuseReserved_eq s)

/-! ### Ignored and overlapping starts -/

theorem startPf_busy {s : State} (h : s.pfPhase ≠ .idle) (accepted : State) : startPf s accepted = .next s := by
  simp [startPf, h]

theorem startPf_overlap {s : State} (hp : s.pfPhase = .idle) (hr : s.rsPhase ≠ .idle) (accepted : State) :
    startPf s accepted = .refused .overlap := by
  simp [startPf, hp, hr]

theorem startRs_busy {s : State} (h : s.rsPhase ≠ .idle) (accepted : State) : startRs s accepted = .next s := by
  simp [startRs, h]

theorem startRs_overlap {s : State} (hr : s.rsPhase = .idle) (hp : s.pfPhase ≠ .idle) (accepted : State) :
    startRs s accepted = .refused .overlap := by
  simp [startRs, hp, hr]

/-- Each operation of packet_framer is a start of it. -/
theorem exec_packetFramerOp {i : Instr} (h : Claims.packetFramerOp i = true) (s : State) :
    ∃ accepted, exec i s = startPf s accepted := by
  cases i with
  | nop => cases h
  | resync => cases h
  | reserved6 => cases h
  | reserved7 => cases h
  | frameMeasurement => cases h
  | _ => exact ⟨_, rfl⟩

/-- Settles O12. -/
theorem busyBlockIgnoresAStart : Obligations.BusyBlockIgnoresAStart := by
  unfold Obligations.BusyBlockIgnoresAStart
  refine ⟨fun i s hi hp => ?_, fun e s hr => ?_, fun d st tm tail s hr => ?_⟩
  · obtain ⟨accepted, e⟩ := exec_packetFramerOp hi s
    rw [e, startPf_busy hp]
  · exact startRs_busy hr _
  · exact startRs_busy (s := deliver (measurementFrame d st tm tail) s) hr _

/-- Settles O13. -/
theorem overlappingStartIsRefused : Obligations.OverlappingStartIsRefused := by
  unfold Obligations.OverlappingStartIsRefused
  refine fun i s => ⟨fun hi hp hr => ?_, fun hi hr hp => ?_⟩
  · obtain ⟨accepted, e⟩ := exec_packetFramerOp hi s
    rw [e, startPf_overlap hp hr]
  · cases i with
    | resync => exact startRs_overlap hr hp _
    | frameMeasurement d st tm tail =>
      exact startRs_overlap (s := deliver (measurementFrame d st tm tail) s) hr hp _
    | _ => cases hi

/-! ### Starting steps -/

/-- Settles O14. -/
theorem checksumOperationsStart : Obligations.ChecksumOperationsStart := by
  unfold Obligations.ChecksumOperationsStart
  intro s hidle
  exact ⟨exec_csumCompute_idle hidle, exec_csumVerify_idle hidle⟩

/-- Settles O16: the command frames are ENCODE under another name, with their own code and arguments. -/
theorem commandFramesStartEncode : Obligations.CommandFramesStartEncode := by
  unfold Obligations.CommandFramesStartEncode
  intro i code args s h
  have hexec : exec i s = exec (.encode code args) s := by
    cases i with
    | frameCommand => cases h; rfl
    | cmdSetFrameRate10Hz => cases h; rfl
    | cmdGetVersion => cases h; rfl
    | _ => cases h
  rw [hexec]
  exact ⟨rfl, fun hargs hidle => encodeStartLatchesItsOperands code args s hargs hidle⟩

/-- R81, R85: a response frame is presented and validated. -/
theorem exec_of_echoBuffer {i : Instr} {raw : List Byte} (h : Claims.echoBuffer i = some raw) {s : State} (hidle : s.idle) :
    exec i s = .next (validateEcho raw s) := by
  cases i with
  | frameEchoResponse => cases h; exact startPf_idle hidle _
  | rspGetVersion321 => cases h; exact startPf_idle hidle _
  | _ => cases h

/-- A whole sequence supplied on `IN` stands behind what is there. -/
theorem supplyAll_inp_eq (bs : List Byte) (s : State) : (supplyAll bs s).inp = s.inp ++ Claims.inStream bs [] := by
  rw [supplyAll_inp, Claims.inStream, List.append_assoc]

/-- Settles O19. -/
theorem echoResponseIsPresentedToDecode : Obligations.EchoResponseIsPresentedToDecode := by
  unfold Obligations.EchoResponseIsPresentedToDecode
  intro i raw s h hidle
  refine ⟨_, exec_of_echoBuffer h hidle, ?_⟩
  rw [← supplyAll_inp_eq]
  exact decodeStarted_decodeStart _ true true (supplyAll raw s)

/-- R83, R85: with both blocks idle a measurement frame is delivered and hunted. -/
theorem exec_frameMeasurement_idle {s : State} (hidle : s.idle) (d st tm : Half) (tail : List Byte) :
    exec (.frameMeasurement d st tm tail) s =
      .next (resyncStart s.meas.sizeByte (deliver (measurementFrame d st tm tail) s)) := by
  rw [← resyncAccepted_of_le (two_le_sizeByte s.meas)]
  exact startRs_idle (s := deliver (measurementFrame d st tm tail) s) hidle _

/-- Settles O22. -/
theorem measurementFrameArrivesAndIsHunted : Obligations.MeasurementFrameArrivesAndIsHunted := by
  unfold Obligations.MeasurementFrameArrivesAndIsHunted
  intro d st tm tail s hidle
  exact exec_frameMeasurement_idle hidle d st tm tail

/-! ### Holds -/

theorem step_of_idle {s : State} (hidle : s.idle) (hscript : s.script = []) : step s = .next s := by
  rw [step_eq_pfStep hscript hidle.2, pfStep, hidle.1]

/-- Settles O36. -/
theorem idleBlocksTakeNoStep : Obligations.IdleBlocksTakeNoStep := by
  unfold Obligations.IdleBlocksTakeNoStep
  exact fun s hidle hscript n => run_of_step_self (step_of_idle hidle hscript) n

/-- R278: an operation that reads `IN` holds while there is nothing on it. -/
theorem pfStep_starved {s : State} (hp : s.pfPhase = .cRun ∨ s.pfPhase = .vRun ∨ s.pfPhase = .dRun) (hin : s.inp = []) :
    pfStep s = .next s := by
  rcases hp with h | h | h
  · rw [pfStep_cRun h, cRunStep_nil hin]
  · rw [pfStep_vRun h, vRunStep_nil hin]
  · rw [pfStep_dRun h, dRunStep_nil hin]

/-- Settles O35: the step of a blocked operation is a hold, and a hold lasts. -/
theorem blockedOperationsHoldForEver : Obligations.BlockedOperationsHoldForEver := by
  unfold Obligations.BlockedOperationsHoldForEver
  intro s hinv hscript hblocked
  have hne : s.pfPhase ≠ .idle := by
    rcases hblocked with ⟨hp, -⟩ | ⟨hp | hp | hp, -⟩
    · rintro e; rw [e] at hp; cases hp
    · simp [hp]
    · simp [hp]
    · simp [hp]
  refine run_of_step_self ?_
  rw [step_eq_pfStep hscript (hinv.oneBusy.resolve_left hne)]
  rcases hblocked with ⟨hp, hsink⟩ | ⟨hp, hin⟩
  · exact pfStep_stalled hp hsink hinv.exists_arg
  · exact pfStep_starved hp hin

end Sys2Proof.Machine
end

section
/-! PROOF. A command frame determines its operands (41 R137), and the functions of resynchronisation (43 R181, R183, R188,
R194). -/

namespace Sys2Proof.Machine

open Config

/-! ### Command frames -/

/-- R137 (d): the code and the arguments stand in the frame. -/
theorem encodeFrame_inj {code code' : Byte} {args args' : List Byte} (h : encodeFrame code args = encodeFrame code' args') :
    code = code' ∧ args = args' := by
  have hlen : (frameBody code args).length = (frameBody code' args').length := by
    have := congrArg List.length h
    rw [encodeFrame_length, encodeFrame_length] at this
    rw [frameBody_length, frameBody_length]
    omega
  have hbody : frameBody code args = frameBody code' args' := (List.append_inj h hlen).1
  simp only [frameBody, List.cons.injEq] at hbody
  obtain ⟨-, -, hcode, hargs⟩ := hbody
  exact ⟨hcode, hargs⟩

/-- Settles O56. -/
theorem encodedFrameDecodesAndDeterminesItsOperands : Obligations.EncodedFrameDecodesAndDeterminesItsOperands := by
  unfold Obligations.EncodedFrameDecodesAndDeterminesItsOperands
  intro code args hargs
  exact ⟨verify_encodeFrame code args, decodeFrame_encodeFrame hargs code, fun _ _ _ h => encodeFrame_inj h⟩

/-! ### The first header -/

@[simp] theorem firstHeader_nil : firstHeader [] = none := rfl
@[simp] theorem firstHeader_singleton (a : Byte) : firstHeader [a] = none := rfl

theorem firstHeader_pair (r : List Byte) : firstHeader (hdr0 :: hdr1 :: r) = some 0 := by simp [firstHeader]

/-- A byte that begins no pair is skipped. -/
theorem firstHeader_cons_of_ne {a : Byte} {r : List Byte} (h : ¬ (a = hdr0 ∧ r[0]? = some hdr1)) :
    firstHeader (a :: r) = (firstHeader r).map (· + 1) := by
  cases r with
  | nil => rfl
  | cons b r =>
    have h : ¬ (a = hdr0 ∧ b = hdr1) := by simpa using h
    rw [firstHeader, if_neg h]

/-- R183: the first header is a pair, and there is none before it. -/
theorem firstHeader_eq_some {rx : List Byte} {k : Nat} (h : firstHeader rx = some k) :
    rx[k]? = some hdr0 ∧ rx[k + 1]? = some hdr1 := by
  induction rx generalizing k with
  | nil => cases h
  | cons a r ih =>
    by_cases hpair : a = hdr0 ∧ r[0]? = some hdr1
    · obtain ⟨rfl, hb⟩ := hpair
      obtain ⟨r', rfl⟩ : ∃ r', r = hdr1 :: r' := by
        cases r with
        | nil => simp at hb
        | cons b r' => exact ⟨r', by simpa using hb⟩
      rw [firstHeader_pair] at h
      obtain rfl := Option.some.inj h
      exact ⟨rfl, rfl⟩
    · rw [firstHeader_cons_of_ne hpair] at h
      obtain ⟨j, hj, rfl⟩ := Option.map_eq_some_iff.1 h
      exact ih hj

/-- The first header of a sequence that begins with one and more garbage than that: garbage without a pair, even with the first
header byte behind it, is skipped (R194 (b)). -/
theorem firstHeader_append {garbage : List Byte} (h : firstHeader (garbage ++ [hdr0]) = none) (payload : List Byte) :
    firstHeader (garbage ++ hdr0 :: hdr1 :: payload) = some garbage.length := by
  induction garbage with
  | nil => exact firstHeader_pair payload
  | cons a g ih =>
    have hpair : ¬ (a = hdr0 ∧ (g ++ [hdr0])[0]? = some hdr1) := by
      rintro ⟨rfl, hb⟩
      cases g with
      | nil => simp [firstHeader, show hdr0 = hdr1 from rfl] at h
      | cons b g =>
        obtain rfl : b = hdr1 := by simpa using hb
        simp [firstHeader] at h
    have hpair' : ¬ (a = hdr0 ∧ (g ++ hdr0 :: hdr1 :: payload)[0]? = some hdr1) := by
      cases g with
      | nil => simpa using hpair
      | cons b g => simpa using hpair
    rw [List.cons_append, firstHeader_cons_of_ne hpair, Option.map_eq_none_iff] at h
    rw [List.cons_append, firstHeader_cons_of_ne hpair', ih h]
    rfl

/-! ### The scanning procedures (R188) -/

/-- The detector that has seen 0x59 is where it would be had that byte come first. -/
theorem scanByDetector_eq (rx : List Byte) :
    scanByDetector true rx = (firstHeader (hdr0 :: rx)).map (· + 1) ∧
      scanByDetector false rx = (firstHeader rx).map (· + 2) := by
  induction rx with
  | nil => exact ⟨rfl, rfl⟩
  | cons b r ih =>
    obtain ⟨ihtrue, ihfalse⟩ := ih
    have hskip : (scanByDetector (decide (b = hdr0)) r).map (· + 1) = (firstHeader (b :: r)).map (· + 2) := by
      by_cases hb : b = hdr0
      · subst hb
        rw [decide_eq_true rfl, ihtrue, Option.map_map]; rfl
      · rw [decide_eq_false hb, ihfalse, firstHeader_cons_of_ne (fun h => hb h.1), Option.map_map, Option.map_map]; rfl
    constructor
    · by_cases hb : b = hdr1
      · subst hb
        rw [firstHeader_pair, scanByDetector, if_pos ⟨rfl, rfl⟩]; rfl
      · have hfirst : firstHeader (hdr0 :: b :: r) = (firstHeader (b :: r)).map (· + 1) :=
          firstHeader_cons_of_ne (by simpa using hb)
        rw [scanByDetector, if_neg (fun h => hb h.2), hskip, hfirst, Option.map_map]; rfl
    · rw [scanByDetector, if_neg (fun h => Bool.false_ne_true h.1), hskip]

/-- The shift register's older byte tells what the detector remembers. -/
theorem scanByShift_eq (rx : List Byte) (older : Option Byte) :
    scanByShift older rx = scanByDetector (decide (older = some hdr0)) rx := by
  induction rx generalizing older with
  | nil => rfl
  | cons b r ih => simp [scanByShift, scanByDetector, ih]

theorem scanByDiscard_eq (rx : List Byte) : scanByDiscard rx = (firstHeader rx).map (· + 2) := by
  induction rx using scanByDiscard.induct with
  | case1 => rfl
  | case2 => rfl
  | case3 r => rw [firstHeader_pair]; simp [scanByDiscard]
  | case4 b r hb ih =>
    have hfirst : firstHeader (hdr0 :: b :: r) = (firstHeader (b :: r)).map (· + 1) :=
      firstHeader_cons_of_ne (by simpa using hb)
    have hsecond : firstHeader (b :: r) = (firstHeader r).map (· + 1) := firstHeader_cons_of_ne (fun h => hb h.1)
    rw [scanByDiscard, if_pos rfl, if_neg hb, ih, hfirst, hsecond]
    simp [Function.comp_def]
  | case5 a b r ha ih =>
    rw [scanByDiscard, if_neg ha, ih, firstHeader_cons_of_ne (fun h => ha h.1)]
    simp [Function.comp_def]

/-- Settles O58. -/
theorem scanningProceduresAgree : Obligations.ScanningProceduresAgree := by
  unfold Obligations.ScanningProceduresAgree
  intro rx
  obtain ⟨-, hdetector⟩ := scanByDetector_eq rx
  exact ⟨hdetector, scanByDiscard_eq rx, (scanByShift_eq rx none).trans hdetector⟩

/-! ### `resync(rx, E)` (R183, R194) -/

theorem resyncFrame_of_none {rx : List Byte} (h : firstHeader rx = none) (e : Nat) : resyncFrame rx e = .timeout := by
  rw [resyncFrame, h]

theorem resyncFrame_of_le {rx : List Byte} {k e : Nat} (h : firstHeader rx = some k) (hlen : k + e ≤ rx.length) :
    resyncFrame rx e = .ok k ((rx.drop k).take e) (rx.drop (k + e)) := by
  rw [resyncFrame, h]
  exact if_pos hlen

theorem resyncFrame_of_lt {rx : List Byte} {k e : Nat} (h : firstHeader rx = some k) (hlen : rx.length < k + e) :
    resyncFrame rx e = .timeout := by
  rw [resyncFrame, h]
  exact if_neg (Nat.not_le.2 hlen)

theorem resyncFrame_eq_ok {rx frame left : List Byte} {e skipped : Nat} (h : resyncFrame rx e = .ok skipped frame left) :
    firstHeader rx = some skipped ∧ skipped + e ≤ rx.length ∧ frame = (rx.drop skipped).take e ∧
      left = rx.drop (skipped + e) := by
  cases hfirst : firstHeader rx with
  | none => rw [resyncFrame_of_none hfirst] at h; cases h
  | some k =>
    by_cases hlen : k + e ≤ rx.length
    · rw [resyncFrame_of_le hfirst hlen] at h
      cases h
      exact ⟨rfl, hlen, rfl, rfl⟩
    · rw [resyncFrame_of_lt hfirst (Nat.lt_of_not_le hlen)] at h
      cases h

/-- R194 (b): behind garbage the frame meant is found. -/
theorem resyncFrame_behind_garbage {garbage payload : List Byte} {e : Nat} (he : 2 ≤ e) (hlen : e ≤ payload.length + 2)
    (h : firstHeader (garbage ++ [hdr0]) = none) :
    resyncFrame (garbage ++ hdr0 :: hdr1 :: payload) e =
      .ok garbage.length (hdr0 :: hdr1 :: payload.take (e - 2)) (payload.drop (e - 2)) := by
  obtain ⟨n, rfl⟩ := Nat.exists_eq_add_of_le' he
  rw [resyncFrame_of_le (firstHeader_append h payload) (by simp; omega)]
  simp [List.drop_append]

/-- Settles O59. -/
theorem resyncReturnsAStretchOfTheStream : Obligations.ResyncReturnsAStretchOfTheStream := by
  unfold Obligations.ResyncReturnsAStretchOfTheStream
  refine ⟨fun rx e skipped frame left he h => ?_, fun garbage payload e he hlen h => ?_, fun rx e h => ?_⟩
  · obtain ⟨hfirst, hlen, rfl, rfl⟩ := resyncFrame_eq_ok h
    obtain ⟨h0, h1⟩ := firstHeader_eq_some hfirst
    refine ⟨by simp; omega, ?_, ?_, ?_, by omega⟩
    · rw [List.getElem?_take_of_lt (by omega), List.getElem?_drop]; exact h0
    · rw [List.getElem?_take_of_lt (by omega), List.getElem?_drop]; exact h1
    · rw [List.append_assoc, ← List.drop_drop, List.take_append_drop, List.take_append_drop]
  · rw [List.append_assoc]
    exact resyncFrame_behind_garbage he hlen h
  · cases hfirst : firstHeader rx with
    | none => exact resyncFrame_of_none hfirst e
    | some k => exact absurd (firstHeader_eq_some hfirst) (h k)

end Sys2Proof.Machine
end

section
/-! PROOF. RESYNC on a channel that delivers bytes (43_uart_resync_matcher R183, R186, R187): the hunt, the fill, and the
whole run as the function `resync` says. -/

namespace Sys2Proof.Machine

open Config

/-- uart_resync_matcher is in phase p, the other block is idle and the environment makes no move: every step is one of p. -/
structure State.Receives (s : State) (p : RsPhase) : Prop where
  script_nil : s.script = []
  pf_idle : s.pfPhase = .idle
  phase : s.rsPhase = p

theorem State.Receives.step_eq {s : State} {p : RsPhase} (h : s.Receives p) : step s = rsStep s :=
  step_eq_rsStep h.script_nil h.pf_idle

theorem State.Receives.withRx {s : State} {p : RsPhase} (h : s.Receives p) (rx : List RxAnswer) (turn : Nat) :
    (s.withRx rx turn).Receives p := ⟨h.script_nil, h.pf_idle, h.phase⟩

theorem State.Receives.pdNote {s : State} {p : RsPhase} (h : s.Receives p) (b : Byte) : (pdNote b s).Receives p :=
  ⟨h.script_nil, h.pf_idle, h.phase⟩

theorem State.Receives.storeByte {s : State} {p : RsPhase} (h : s.Receives p) (b : Byte) : (storeByte b s).Receives p :=
  ⟨h.script_nil, h.pf_idle, h.phase⟩

theorem rxPop_rxStream {s : State} {b : Byte} {bs : List Byte} {rest : List RxAnswer}
    (h : s.rx = Claims.rxStream (b :: bs) rest) :
    rxPop s = (.byte b, s.withRx (Claims.rxStream bs rest) s.rxTurn) := rxPop_cons h

/-- The channel's `Exhausted`, taken off the list where it is listed (log entries 6, 16). -/
theorem rxPop_answersExhausted {s : State} {after : List RxAnswer} (h : Claims.answersExhausted s.rxTail s.rx after) :
    rxPop s = (.exhausted, s.withRx after s.rxTurn) := by
  rcases h with hrx | ⟨hrx, htail, rfl⟩
  · rw [rxPop_cons hrx]; rfl
  · rw [rxPop_ended hrx htail, State.withRx, ← hrx]

/-! ### The hunt -/

/-- A byte that completes no pair is noted. -/
theorem State.Receives.step_note {s : State} {b : Byte} {bs : List Byte} {rest : List RxAnswer} (h : s.Receives .sHunt)
    (hrx : s.rx = Claims.rxStream (b :: bs) rest) (hno : ¬ (s.pdSeen1 = true ∧ b = hdr1)) :
    step s = .next (Machine.pdNote b (s.withRx (Claims.rxStream bs rest) s.rxTurn)) := by
  rw [h.step_eq]
  exact rsStep_note h.phase (rxPop_rxStream hrx) hno

/-- The hunt stops where the detector does. -/
theorem State.Receives.run_hunt_found {bs : List Byte} {rest : List RxAnswer} {n : Nat} {s : State}
    (h : s.Receives .sHunt) (hrx : s.rx = Claims.rxStream bs rest) (hscan : scanByDetector s.pdSeen1 bs = some n) :
    run n s = .next (resyncMatch (s.withRx (Claims.rxStream (bs.drop n) rest) s.rxTurn)) := by
  induction bs generalizing s n with
  | nil => cases hscan
  | cons b bs ih =>
    by_cases hfound : s.pdSeen1 = true ∧ b = hdr1
    · rw [scanByDetector, if_pos hfound] at hscan
      obtain rfl := Option.some.inj hscan
      have hstep := rsStep_header h.phase (rxPop_rxStream hrx) hfound
      rw [run_succ_next (h.step_eq.trans hstep)]; rfl
    · rw [scanByDetector, if_neg hfound, Option.map_eq_some_iff] at hscan
      obtain ⟨m, hm, rfl⟩ := hscan
      rw [run_succ_next (h.step_note hrx hfound)]
      exact ih ((h.withRx (Claims.rxStream bs rest) s.rxTurn).pdNote b) rfl hm

/-- Where the detector finds nothing, the hunt goes on. -/
theorem State.Receives.run_hunt_on {bs : List Byte} {rest : List RxAnswer} {s : State} (h : s.Receives .sHunt)
    (hrx : s.rx = Claims.rxStream bs rest) (hscan : scanByDetector s.pdSeen1 bs = none) :
    ∃ seen, run bs.length s = .next { s.withRx rest s.rxTurn with pdSeen1 := seen } := by
  induction bs generalizing s with
  | nil => exact ⟨s.pdSeen1, by rw [State.withRx, show rest = s.rx from hrx.symm]; rfl⟩
  | cons b bs ih =>
    by_cases hfound : s.pdSeen1 = true ∧ b = hdr1
    · rw [scanByDetector, if_pos hfound] at hscan
      cases hscan
    · rw [scanByDetector, if_neg hfound, Option.map_eq_none_iff] at hscan
      obtain ⟨seen, hrun⟩ := ih ((h.withRx (Claims.rxStream bs rest) s.rxTurn).pdNote b) rfl hscan
      exact ⟨seen, (run_succ_next (h.step_note hrx hfound)).trans hrun⟩

/-! ### The fill -/

/-- `FBUF[rs_cnt ..] <- bs`, counted. -/
def storeAll (bs : List Byte) (s : State) : State := bs.foldl (fun t b => storeByte b t) s

/-- The next byte is stored; where it is the last, the frame is complete. -/
theorem State.Receives.step_store {s : State} {b : Byte} {bs : List Byte} {rest : List RxAnswer} (h : s.Receives .sFill)
    (hrx : s.rx = Claims.rxStream (b :: bs) rest) (hroom : s.rsCnt.toNat < 255) :
    step s = .next (if s.rsCnt.toNat + 1 = s.rsE.toNat
      then resyncDone (Machine.storeByte b (s.withRx (Claims.rxStream bs rest) s.rxTurn))
      else Machine.storeByte b (s.withRx (Claims.rxStream bs rest) s.rxTurn)) := by
  rw [h.step_eq]
  exact rsStep_store h.phase (rxPop_rxStream hrx) hroom

/-- Bytes that do not complete the frame are stored. -/
theorem State.Receives.run_fill_on {bs : List Byte} {rest : List RxAnswer} {s : State} (h : s.Receives .sFill)
    (hrx : s.rx = Claims.rxStream bs rest) (hlen : s.rsCnt.toNat + bs.length < s.rsE.toNat) :
    run bs.length s = .next (storeAll bs (s.withRx rest s.rxTurn)) := by
  induction bs generalizing s with
  | nil => rw [State.withRx, show rest = s.rx from hrx.symm]; rfl
  | cons b bs ih =>
    rw [List.length_cons] at hlen
    have hroom : s.rsCnt.toNat < 255 := by omega
    have hstep := h.step_store hrx hroom
    rw [if_neg (by omega)] at hstep
    have hcnt : (Machine.storeByte b (s.withRx (Claims.rxStream bs rest) s.rxTurn)).rsCnt.toNat + bs.length < s.rsE.toNat := by
      rw [show (Machine.storeByte b (s.withRx (Claims.rxStream bs rest) s.rxTurn)).rsCnt = s.rsCnt + 1 from rfl,
        toNat_succ hroom]
      omega
    rw [List.length_cons, run_succ_next hstep]
    exact ih ((h.withRx (Claims.rxStream bs rest) s.rxTurn).storeByte b) rfl hcnt

/-- `FBUF` from `rs_cnt` on, and the count, after storing. -/
theorem storeAll_eq {bs : List Byte} {s : State} (h : s.rsCnt.toNat + bs.length ≤ 255) :
    storeAll bs s = { s with
      fbuf := Memory.store s.fbuf s.rsCnt.toNat bs, rsCnt := BitVec.ofNat 8 (s.rsCnt.toNat + bs.length) } := by
  induction bs generalizing s with
  | nil => simp [storeAll, Memory.store]
  | cons b bs ih =>
    rw [List.length_cons] at h
    have hcnt : (storeByte b s).rsCnt.toNat = s.rsCnt.toNat + 1 := toNat_succ (by omega)
    have htail := ih (s := storeByte b s) (by omega)
    rw [hcnt] at htail
    rw [show storeAll (b :: bs) s = storeAll bs (storeByte b s) from rfl, htail, List.length_cons, Memory.store,
      Nat.add_assoc, Nat.add_comm 1]
    rfl

theorem storeAll_concat (p : List Byte) (b : Byte) (s : State) : storeAll (p ++ [b]) s = storeByte b (storeAll p s) :=
  List.foldl_concat ..

theorem State.Receives.storeAll {s : State} {p : RsPhase} (h : s.Receives p) (bs : List Byte) :
    (storeAll bs s).Receives p := by
  induction bs generalizing s with
  | nil => exact h
  | cons b bs ih => exact ih (h.storeByte b)

/-- The bytes that complete the frame are stored, and RESYNC ends with `OK`. -/
theorem State.Receives.run_fill_complete {bs : List Byte} {rest : List RxAnswer} {s : State} (h : s.Receives .sFill)
    (hrx : s.rx = Claims.rxStream bs rest) (hne : bs ≠ []) (hlen : s.rsCnt.toNat + bs.length = s.rsE.toNat) :
    run bs.length s = .next (resyncDone (Machine.storeAll bs (s.withRx rest s.rxTurn))) := by
  obtain ⟨p, b, rfl⟩ := (List.eq_nil_or_concat' bs).resolve_left hne
  rw [List.length_append, List.length_singleton] at hlen ⊢
  have hrx' : s.rx = Claims.rxStream p (.byte b :: rest) := by rw [hrx]; simp [Claims.rxStream]
  have hroom : s.rsCnt.toNat + p.length < 255 := by omega
  have hu : Machine.storeAll p (s.withRx (.byte b :: rest) s.rxTurn) = _ := storeAll_eq (by exact hroom.le)
  have hcnt : (Machine.storeAll p (s.withRx (.byte b :: rest) s.rxTurn)).rsCnt.toNat = s.rsCnt.toNat + p.length := by
    rw [hu]
    exact (BitVec.toNat_ofNat ..).trans (Nat.mod_eq_of_lt (Nat.lt_trans hroom (by decide)))
  have hlast := ((h.withRx (.byte b :: rest) s.rxTurn).storeAll p).step_store (b := b) (bs := []) (rest := rest)
    (by rw [hu]; rfl) (by omega)
  rw [if_pos (by rw [hcnt, hu, Nat.add_assoc]; exact hlen)] at hlast
  rw [run_add 1 (h.run_fill_on hrx' (by omega)), run_succ_next hlast, storeAll_concat, hu,
    storeAll_eq (by exact hroom.le)]
  rfl

/-! ### The whole run (R187) -/

theorem rxStream_append (bs cs : List Byte) (rest : List RxAnswer) :
    Claims.rxStream (bs ++ cs) rest = Claims.rxStream bs (Claims.rxStream cs rest) := by simp [Claims.rxStream]

/-- The first pair stands behind what is skipped. -/
theorem eq_append_of_firstHeader {rx : List Byte} {k : Nat} (h : firstHeader rx = some k) :
    ∃ garbage payload, rx = garbage ++ hdr0 :: hdr1 :: payload ∧ garbage.length = k := by
  obtain ⟨h0, h1⟩ := firstHeader_eq_some h
  obtain ⟨hk, h0⟩ := List.getElem?_eq_some_iff.1 h0
  obtain ⟨hk1, h1⟩ := List.getElem?_eq_some_iff.1 h1
  refine ⟨rx.take k, rx.drop (k + 2), ?_, List.length_take_of_le hk.le⟩
  conv_lhs => rw [← List.take_append_drop k rx, List.drop_eq_getElem_cons hk, List.drop_eq_getElem_cons hk1, h0, h1]

theorem resyncStart_receives {s : State} (hidle : s.idle) (hscript : s.script = []) (e : Byte) :
    (resyncStart e s).Receives .sHunt := ⟨hscript, hidle.1, rfl⟩

/-- RESYNC's hunt ends at the first pair. -/
theorem run_resync_header {garbage payload : List Byte} {rest : List RxAnswer} {s : State} (hidle : s.idle)
    (hscript : s.script = []) (hrx : s.rx = Claims.rxStream (garbage ++ hdr0 :: hdr1 :: payload) rest)
    (hfirst : firstHeader (garbage ++ hdr0 :: hdr1 :: payload) = some garbage.length) (e : Byte) :
    run (garbage.length + 2) (resyncStart e s) =
      .next (resyncMatch ((resyncStart e s).withRx (Claims.rxStream payload rest) s.rxTurn)) := by
  have hscan : scanByDetector (resyncStart e s).pdSeen1 (garbage ++ hdr0 :: hdr1 :: payload) = some (garbage.length + 2) := by
    rw [show (resyncStart e s).pdSeen1 = false from rfl, (scanByDetector_eq _).2, hfirst]; rfl
  have hdrop : (garbage ++ hdr0 :: hdr1 :: payload).drop (garbage.length + 2) = payload := by simp [← List.drop_drop]
  rw [(resyncStart_receives hidle hscript e).run_hunt_found hrx hscan, hdrop]; rfl

theorem resyncMatch_of_eq {s : State} (h : s.rsE = 2) : resyncMatch s = resyncDone s.withHeader := if_pos h

theorem resyncMatch_of_ne {s : State} (h : s.rsE ≠ 2) : resyncMatch s = { s.withHeader with rsPhase := .sFill } := if_neg h

/-- Behind the header the rest of the frame is stored, which completes it. -/
theorem State.Receives.run_frame_tail {tail : List Byte} {rest : List RxAnswer} {s : State} (h : s.Receives .sHunt)
    (hrx : s.rx = Claims.rxStream tail rest) (hlen : 2 + tail.length = s.rsE.toNat) :
    run tail.length (resyncMatch s) = .next { s with
      rsCnt := BitVec.ofNat 8 (2 + tail.length), pdSeen1 := false
      fbuf := Memory.store s.fbuf 0 (hdr0 :: hdr1 :: tail), fbufValid := true, rsPhase := .idle, rsResult := .ok
      rx := rest } := by
  by_cases hnil : tail = []
  · subst hnil
    rw [resyncMatch_of_eq (BitVec.eq_of_toNat_eq hlen.symm), List.length_nil, run_zero, show rest = s.rx from hrx.symm]
    rfl
  · have hpos := List.length_pos_iff.2 hnil
    have hne : s.rsE ≠ 2 := by
      intro h2
      rw [h2] at hlen
      exact absurd hlen (Nat.ne_of_gt (Nat.lt_add_of_pos_right hpos))
    have hfilling : State.Receives { s.withHeader with rsPhase := .sFill } .sFill := ⟨h.script_nil, h.pf_idle, rfl⟩
    rw [resyncMatch_of_ne hne, hfilling.run_fill_complete hrx hnil hlen,
      storeAll_eq (by show 2 + tail.length ≤ 255; omega)]
    rfl

/-- RESYNC with a complete frame behind the first pair. -/
theorem run_resync_found {garbage tail left : List Byte} {rest : List RxAnswer} {e : Byte} {s : State} (hidle : s.idle)
    (hscript : s.script = []) (hrx : s.rx = Claims.rxStream (garbage ++ hdr0 :: hdr1 :: (tail ++ left)) rest)
    (hfirst : firstHeader (garbage ++ hdr0 :: hdr1 :: (tail ++ left)) = some garbage.length)
    (hlen : 2 + tail.length = e.toNat) :
    run (garbage.length + e.toNat) (resyncStart e s) = .next { s with
      rsE := e, rsCnt := e, pdSeen1 := false, fbuf := Memory.store s.fbuf 0 (hdr0 :: hdr1 :: tail), fbufValid := true
      rsResult := .ok, rx := Claims.rxStream left rest } := by
  have hcnt : BitVec.ofNat 8 (2 + tail.length) = e := by rw [hlen, BitVec.ofNat_toNat, BitVec.setWidth_eq]
  have htail := ((resyncStart_receives hidle hscript e).withRx (Claims.rxStream (tail ++ left) rest) s.rxTurn).run_frame_tail
    (rxStream_append tail left rest) hlen
  rw [hcnt, ← hidle.2] at htail
  rw [← hlen, ← Nat.add_assoc, run_add _ (run_resync_header hidle hscript hrx hfirst e), htail]
  rfl

/-- The channel's `Exhausted` ends RESYNC with `SYNC_TIMEOUT`. -/
theorem State.Receives.step_exhausted {s : State} {p : RsPhase} {after : List RxAnswer} (h : s.Receives p)
    (hp : p ≠ .idle) (hrx : Claims.answersExhausted s.rxTail s.rx after) :
    step s = .next (finishRs .syncTimeout (s.withRx after s.rxTurn)) := by
  rw [h.step_eq]
  exact rsStep_exhausted (h.phase ▸ hp) (rxPop_answersExhausted hrx)

/-- Behind the header too few bytes follow before the channel's `Exhausted`. -/
theorem State.Receives.run_part_of_frame {part : List Byte} {rest after : List RxAnswer} {s : State}
    (h : s.Receives .sHunt) (hrx : s.rx = Claims.rxStream part rest)
    (hrest : Claims.answersExhausted s.rxTail rest after) (hlen : 2 + part.length < s.rsE.toNat) :
    ∃ t, run (part.length + 1) (resyncMatch s) = .next t ∧ t = { s with
      rsCnt := t.rsCnt, pdSeen1 := t.pdSeen1, fbuf := t.fbuf, rsPhase := .idle, rsResult := .syncTimeout
      rx := after } := by
  have hne : s.rsE ≠ 2 := by
    intro h2
    rw [h2] at hlen
    exact absurd hlen (Nat.not_lt.2 (Nat.le_add_right 2 _))
  have hfilling : State.Receives { s.withHeader with rsPhase := .sFill } .sFill := ⟨h.script_nil, h.pf_idle, rfl⟩
  have hfill := hfilling.run_fill_on hrx hlen
  have hlast := ((hfilling.withRx rest s.rxTurn).storeAll part).step_exhausted (after := after) (by simp)
  rw [storeAll_eq (by show 2 + part.length ≤ 255; omega)] at hfill hlast
  rw [resyncMatch_of_ne hne]
  exact ⟨_, (run_add 1 hfill).trans (run_succ_next (hlast hrest)), rfl⟩

/-- RESYNC without a complete frame before the channel's `Exhausted`. -/
theorem run_resync_timeout {rx : List Byte} {rest after : List RxAnswer} {e : Byte} {s : State} (hidle : s.idle)
    (hscript : s.script = []) (hrx : s.rx = Claims.rxStream rx rest)
    (hrest : Claims.answersExhausted s.rxTail rest after) (htimeout : resyncFrame rx e.toNat = .timeout) :
    ∃ t, run (rx.length + 1) (resyncStart e s) = .next t ∧ t = { s with
      rsE := e, rsCnt := t.rsCnt, pdSeen1 := t.pdSeen1, fbuf := t.fbuf, fbufValid := false
      rsResult := .syncTimeout, rx := after } := by
  have hstart := resyncStart_receives hidle hscript e
  cases hfirst : firstHeader rx with
  | none =>
    have hscan : scanByDetector (resyncStart e s).pdSeen1 rx = none := by
      rw [show (resyncStart e s).pdSeen1 = false from rfl, (scanByDetector_eq _).2, hfirst]; rfl
    obtain ⟨seen, hrun⟩ := hstart.run_hunt_on hrx hscan
    have hnoted : State.Receives { (resyncStart e s).withRx rest s.rxTurn with pdSeen1 := seen } .sHunt :=
      ⟨hscript, hidle.1, rfl⟩
    refine ⟨_, (run_add 1 hrun).trans (run_succ_next (hnoted.step_exhausted (by simp) hrest)), ?_⟩
    rw [hidle.2]; rfl
  | some k =>
    obtain ⟨garbage, payload, rfl, rfl⟩ := eq_append_of_firstHeader hfirst
    have hlen : 2 + payload.length < e.toNat := by
      by_contra hle
      rw [resyncFrame_of_le hfirst (by simp; omega)] at htimeout
      cases htimeout
    obtain ⟨t, hrun, ht⟩ := (hstart.withRx (Claims.rxStream payload rest) s.rxTurn).run_part_of_frame rfl hrest hlen
    refine ⟨t, ?_, ht.trans ?_⟩
    · rw [show (garbage ++ hdr0 :: hdr1 :: payload).length + 1 = garbage.length + 2 + (payload.length + 1) by simp; omega,
        run_add _ (run_resync_header hidle hscript hrx hfirst e), hrun]
    · rw [hidle.2]; rfl

/-! ### O32 and O33 -/

theorem read_store_zero (m : Memory) (bs : List Byte) (j : Nat) :
    Memory.read (Memory.store m 0 bs) j = if j < bs.length then bs[j]? else Memory.read m j := by
  simp [Memory.read_store]

/-- A frame cut out behind the header, and what is left of the stream. -/
theorem take_frame (garbage : List Byte) {payload : List Byte} {e : Nat} (he : 2 ≤ e) :
    ((garbage ++ hdr0 :: hdr1 :: payload).drop garbage.length).take e = hdr0 :: hdr1 :: payload.take (e - 2) ∧
      (garbage ++ hdr0 :: hdr1 :: payload).drop (garbage.length + e) = payload.drop (e - 2) := by
  obtain ⟨n, rfl⟩ := Nat.exists_eq_add_of_le' he
  simp [List.drop_append]

/-- Settles O32: where the first pair stands and whether a whole frame follows it decides which of the runs above it is. -/
theorem resyncFindsTheFirstFrame : Obligations.ResyncFindsTheFirstFrame := by
  unfold Obligations.ResyncFindsTheFirstFrame
  intro e s rx rest after he hidle hscript hrx hrest
  refine ⟨resyncStart e s, by rw [exec_resync_idle hidle, resyncAccepted_of_le he], ?_⟩
  cases hres : resyncFrame rx e.toNat with
  | timeout => exact run_resync_timeout hidle hscript hrx hrest hres
  | ok skipped frame left =>
    obtain ⟨hfirst, hlen, rfl, rfl⟩ := resyncFrame_eq_ok hres
    obtain ⟨garbage, payload, rfl, rfl⟩ := eq_append_of_firstHeader hfirst
    obtain ⟨hframe, hleft⟩ := take_frame garbage (payload := payload) he
    have htail : 2 + (payload.take (e.toNat - 2)).length = e.toNat := by
      simp only [List.length_append, List.length_cons] at hlen
      rw [List.length_take_of_le] <;> omega
    rw [← List.take_append_drop (e.toNat - 2) payload] at hrx hfirst
    refine ⟨_, run_resync_found hidle hscript hrx hfirst htail, fun j => ?_, by rw [hleft]⟩
    rw [hframe]
    refine (read_store_zero ..).trans ?_
    rw [List.length_cons, List.length_cons, Nat.add_assoc, Nat.add_comm, htail]

theorem sizeByte_toNat (m : MeasLayout) : m.sizeByte.toNat = m.size := by cases m <;> rfl

theorem size_eq_tailBytes (m : MeasLayout) : m.size = m.tailBytes + 8 := by cases m <;> rfl

/-- A measurement frame begins with the header. -/
theorem measurementFrame_eq_cons (d st tm : Half) (tail : List Byte) :
    ∃ payload, measurementFrame d st tm tail = hdr0 :: hdr1 :: payload ∧ payload.length = tail.length + 6 :=
  ⟨_, rfl, by simp⟩

/-- R194 (b): RESYNC with `E` the frame's size finds a frame behind garbage without a pair. -/
theorem run_resync_behind_garbage {garbage tail : List Byte} {rest : List RxAnswer} {e : Byte} {s : State} (hidle : s.idle)
    (hscript : s.script = []) (hrx : s.rx = Claims.rxStream (garbage ++ hdr0 :: hdr1 :: tail) rest)
    (hgarbage : firstHeader (garbage ++ [hdr0]) = none) (hlen : 2 + tail.length = e.toNat) :
    run (garbage.length + e.toNat) (resyncStart e s) = .next { s with
      rsE := e, rsCnt := e, pdSeen1 := false, fbuf := Memory.store s.fbuf 0 (hdr0 :: hdr1 :: tail), fbufValid := true
      rsResult := .ok, rx := rest } := by
  rw [← List.append_nil tail] at hrx
  exact run_resync_found hidle hscript hrx (firstHeader_append hgarbage _) hlen

/-- Settles O33. -/
theorem measurementFrameIsLocated : Obligations.MeasurementFrameIsLocated := by
  unfold Obligations.MeasurementFrameIsLocated
  intro d st tm tail garbage s hidle hscript hrx htail hgarbage
  obtain ⟨payload, hframe, hpayload⟩ := measurementFrame_eq_cons d st tm tail
  have hlen : 2 + payload.length = s.meas.size := by rw [size_eq_tailBytes]; omega
  have hrx' : (deliver (measurementFrame d st tm tail) s).rx = Claims.rxStream (garbage ++ hdr0 :: hdr1 :: payload) [] := by
    rw [deliver_rx, hrx, hframe]; simp [Claims.rxStream]
  have hrun := run_resync_behind_garbage (e := s.meas.sizeByte) (s := deliver (measurementFrame d st tm tail) s) hidle
    hscript hrx' hgarbage (by rw [hlen, sizeByte_toNat])
  rw [sizeByte_toNat] at hrun
  refine ⟨_, _, exec_frameMeasurement_idle hidle d st tm tail, hrun, hidle, rfl, rfl, rfl, fun j hj => ?_⟩
  rw [hframe]
  exact (read_store_zero ..).trans (if_pos (by simp only [List.length_cons]; omega))

end Sys2Proof.Machine
end

section
/-! PROOF. RESYNC ends on a channel that ends, hunts for ever on an endless one without a pair (70_reset R278), and a run
sees only the answers that are consumed (20_memory R52). -/

namespace Sys2Proof.Machine

open Config

/-! ### RESYNC ends (O37) -/

theorem resyncMatch_ends (s : State) : (resyncMatch s).rsPhase ≠ .idle ∨ (resyncMatch s).rsResult = .ok := by
  rw [resyncMatch_eq]
  split_ifs
  · exact .inr rfl
  · exact .inl (by simp)

/-- With a byte next, RESYNC takes it and goes on or ends with `OK`. -/
theorem rsStep_byte {s : State} {b : Byte} {rx : List RxAnswer} {turn : Nat} (hinv : s.Inv) (hbusy : s.rsPhase ≠ .idle)
    (hpop : rxPop s = (.byte b, s.withRx rx turn)) :
    ∃ t, rsStep s = .next t ∧ t.rx = rx ∧ (t.rsPhase ≠ .idle ∨ t.rsResult = .ok) := by
  cases hp : s.rsPhase with
  | idle => exact absurd hp hbusy
  | sHunt =>
    by_cases hfound : s.pdSeen1 = true ∧ b = hdr1
    · exact ⟨_, rsStep_header hp hpop hfound, by rw [resyncMatch_frame]; rfl, resyncMatch_ends _⟩
    · exact ⟨_, rsStep_note hp hpop hfound, rfl, .inl (by simp [pdNote, hp])⟩
  | sFill =>
    obtain ⟨-, hlt, -⟩ := hinv.resync.filling hp
    have hstep := rsStep_store hp hpop (by omega)
    split_ifs at hstep
    · exact ⟨_, hstep, rfl, .inr rfl⟩
    · exact ⟨_, hstep, rfl, .inl (by simp [storeByte, hp])⟩

/-- Settles O37, by induction on the listed answers: each step takes one. -/
theorem resyncEnds : Obligations.ResyncEnds := by
  unfold Obligations.ResyncEnds
  intro s hinv hscript hbusy htail
  induction hrx : s.rx generalizing s with
  | nil =>
    have hpf := hinv.oneBusy.resolve_right hbusy
    have hstep := (step_eq_rsStep hscript hpf).trans (rsStep_exhausted hbusy (rxPop_ended hrx htail))
    exact ⟨1, _, le_rfl, run_succ_next hstep, rfl, .inr rfl⟩
  | cons a rest ih =>
    have hpf := hinv.oneBusy.resolve_right hbusy
    cases a with
    | exhausted =>
      have hstep := (step_eq_rsStep hscript hpf).trans (rsStep_exhausted hbusy (rxPop_cons hrx))
      exact ⟨1, _, Nat.le_add_left .., run_succ_next hstep, rfl, .inr rfl⟩
    | byte b =>
      obtain ⟨t, ht, htrx, hend⟩ := rsStep_byte (turn := s.rxTurn) hinv hbusy (rxPop_cons hrx)
      have hstep := (step_eq_rsStep hscript hpf).trans ht
      have hframe := (rsStep_rsTurn ht).frame
      by_cases hidle : t.rsPhase = .idle
      · exact ⟨1, t, Nat.le_add_left .., run_succ_next hstep, hidle, .inl (hend.resolve_left (· hidle))⟩
      · obtain ⟨n, u, hn, hrun, hu⟩ := ih t (step_keeps_inv hinv hstep) (by rw [hframe]; exact hscript) hidle
          (by rw [hframe]; exact htail) htrx
        exact ⟨n + 1, u, Nat.succ_le_succ hn, (run_succ_next hstep).trans hrun, hu⟩

/-! ### RESYNC hunts for ever (O38) -/

/-- RESYNC hunts behind the list of answers, and has seen a 0x59 only if the answer before this turn was one. -/
structure State.HuntsTail (s : State) : Prop where
  hunts : s.Receives .sHunt
  rx_nil : s.rx = []
  seen : s.pdSeen1 = true → ∃ k, s.rxTurn = k + 1 ∧ s.rxTail.answer k = .byte hdr0

/-- Without a pair among the answers the hunt takes one and goes on. -/
theorem State.HuntsTail.step {s : State} (h : s.HuntsTail) (hbytes : ∀ k, ∃ b, s.rxTail.answer k = .byte b)
    (hpair : ∀ k, ¬ (s.rxTail.answer k = .byte hdr0 ∧ s.rxTail.answer (k + 1) = .byte hdr0)) :
    ∃ t, step s = .next t ∧ t.HuntsTail ∧ t.rxTail = s.rxTail ∧ t.rxTurn = s.rxTurn + 1 := by
  obtain ⟨b, hb⟩ := hbytes s.rxTurn
  have hendless : s.rxTail ≠ .exhausted := fun e => by rw [e] at hb; cases hb
  have hpop : rxPop s = (.byte b, s.withRx s.rx (s.rxTurn + 1)) := by
    rw [rxPop_nil h.rx_nil, hb, RxTail.turnAfter_endless hendless]; rfl
  have hno : ¬ (s.pdSeen1 = true ∧ b = hdr1) := by
    rintro ⟨hseen, rfl⟩
    obtain ⟨k, hk, hprev⟩ := h.seen hseen
    exact hpair k ⟨hprev, hk ▸ hb⟩
  refine ⟨_, h.hunts.step_eq.trans (rsStep_note h.hunts.phase hpop hno), ⟨(h.hunts.withRx _ _).pdNote b, h.rx_nil, ?_⟩, rfl,
    rfl⟩
  intro hseen
  obtain rfl : b = hdr0 := by simpa [pdNote] using hseen
  exact ⟨s.rxTurn, rfl, hb⟩

/-- Settles O38, by induction on the number of steps. -/
theorem resyncHuntsForEverOnAnEndlessChannel : Obligations.ResyncHuntsForEverOnAnEndlessChannel := by
  unfold Obligations.ResyncHuntsForEverOnAnEndlessChannel
  intro s hscript hpf hrs hseen hrx hbytes hpair n
  have hstart : s.HuntsTail := ⟨⟨hscript, hpf, hrs⟩, hrx, fun h => absurd h (by simp [hseen])⟩
  clear hscript hpf hrs hseen hrx
  induction n generalizing s with
  | zero => exact ⟨s, rfl, hstart.hunts.phase, rfl⟩
  | succ n ih =>
    obtain ⟨t, hstep, ht, htail, hturn⟩ := hstart.step hbytes hpair
    obtain ⟨u, hrun, hu, huturn⟩ := ih t (htail ▸ hbytes) (htail ▸ hpair) ht
    exact ⟨u, (run_succ_next hstep).trans hrun, hu, by omega⟩

/-! ### What is still to come (O39) -/

/-- The same state with other answers of the channel and other moves to come. -/
def State.mapComing (f : List RxAnswer → RxTail → Nat → List RxAnswer × Nat) (ms : List Move) (s : State) : State :=
  { s with rx := (f s.rx s.rxTail s.rxTurn).1, rxTurn := (f s.rx s.rxTail s.rxTurn).2, script := ms }

/-- A step's answer with its next state mapped. -/
def mapNext (g : State → State) : Outcome → Outcome
  | .next t => .next (g t)
  | .fault r => .fault r
  | .refused r => .refused r

section

variable (f : List RxAnswer → RxTail → Nat → List RxAnswer × Nat) (ms : List Move)

theorem cRunStep_mapComing (s : State) : cRunStep (s.mapComing f ms) = mapNext (State.mapComing f ms) (cRunStep s) := by
  rcases hin : s.inp with _ | ⟨b | _, rest⟩
  · rw [cRunStep_nil hin, cRunStep_nil (s := s.mapComing f ms) hin]; rfl
  · rw [cRunStep_byte hin, cRunStep_byte (s := s.mapComing f ms) hin]; rfl
  · rw [cRunStep_endMark hin, cRunStep_endMark (s := s.mapComing f ms) hin]; rfl

theorem vRunStep_mapComing (s : State) : vRunStep (s.mapComing f ms) = mapNext (State.mapComing f ms) (vRunStep s) := by
  rcases hin : s.inp with _ | ⟨b | _, rest⟩
  · rw [vRunStep_nil hin, vRunStep_nil (s := s.mapComing f ms) hin]; rfl
  · rw [vRunStep_byte hin, vRunStep_byte (s := s.mapComing f ms) hin]; rfl
  · rw [vRunStep_endMark hin, vRunStep_endMark (s := s.mapComing f ms) hin]; rfl

theorem decodeByte_mapComing (b : Byte) (s : State) :
    decodeByte b (s.mapComing f ms) = (decodeByte b s).mapComing f ms := by
  by_cases h : s.decCnt.toNat < 255
  · rw [decodeByte_of_lt h, decodeByte_of_lt (s := s.mapComing f ms) h]; rfl
  · rw [decodeByte_of_not_lt h, decodeByte_of_not_lt (s := s.mapComing f ms) h]; rfl

theorem decodeEnd_mapComing (s : State) : decodeEnd (s.mapComing f ms) = (decodeEnd s).mapComing f ms := by
  rw [decodeEnd_eq, decodeEnd_eq]; rfl

theorem dRunStep_mapComing (s : State) : dRunStep (s.mapComing f ms) = mapNext (State.mapComing f ms) (dRunStep s) := by
  rcases hin : s.inp with _ | ⟨b | _, rest⟩
  · rw [dRunStep_nil hin, dRunStep_nil (s := s.mapComing f ms) hin]; rfl
  · rw [dRunStep_byte hin, dRunStep_byte (s := s.mapComing f ms) hin]
    exact congrArg Host.Outcome.next (decodeByte_mapComing f ms b (s.withInp rest))
  · rw [dRunStep_endMark hin, dRunStep_endMark (s := s.mapComing f ms) hin]
    exact congrArg Host.Outcome.next (decodeEnd_mapComing f ms (s.withInp rest))

theorem emitStep_mapComing (b : Byte) (p : PfPhase) (s : State) :
    emitStep b p (s.mapComing f ms) = mapNext (State.mapComing f ms) (emitStep b p s) := by
  cases hready : s.txReady with
  | false => rw [emitStep_stalled hready, emitStep_stalled (s := s.mapComing f ms) hready]; rfl
  | true => rw [emitStep_ready hready, emitStep_ready (s := s.mapComing f ms) hready]; rfl

theorem eArgsStep_unwritten {s : State} (h : Memory.read s.argbuf s.encI.toNat = none) :
    eArgsStep s = .fault .argUnwritten := by rw [eArgsStep, h]

theorem eArgsStep_mapComing (s : State) : eArgsStep (s.mapComing f ms) = mapNext (State.mapComing f ms) (eArgsStep s) := by
  cases harg : Memory.read s.argbuf s.encI.toNat with
  | none => rw [eArgsStep_unwritten harg, eArgsStep_unwritten (s := s.mapComing f ms) harg]; rfl
  | some b =>
    cases hready : s.txReady with
    | false => rw [eArgsStep_stalled hready harg, eArgsStep_stalled (s := s.mapComing f ms) hready harg]; rfl
    | true => rw [eArgsStep_ready hready harg, eArgsStep_ready (s := s.mapComing f ms) hready harg]; rfl

theorem eCsumStep_mapComing (s : State) : eCsumStep (s.mapComing f ms) = mapNext (State.mapComing f ms) (eCsumStep s) := by
  cases hready : s.txReady with
  | false => rw [eCsumStep_stalled hready, eCsumStep_stalled (s := s.mapComing f ms) hready]; rfl
  | true => rw [eCsumStep_ready hready, eCsumStep_ready (s := s.mapComing f ms) hready]; rfl

/-- packet_framer sees neither the channel nor the moves to come. -/
theorem pfStep_mapComing (s : State) : pfStep (s.mapComing f ms) = mapNext (State.mapComing f ms) (pfStep s) := by
  have hphase : (s.mapComing f ms).pfPhase = s.pfPhase := rfl
  cases hp : s.pfPhase <;> rw [pfStep, pfStep, hphase, hp]
  case idle => rfl
  case cRun => exact cRunStep_mapComing f ms s
  case vRun => exact vRunStep_mapComing f ms s
  case eHdr => exact emitStep_mapComing f ms _ _ s
  case eLen => exact emitStep_mapComing f ms _ _ s
  case eCode => exact emitStep_mapComing f ms _ _ s
  case eArgs => exact eArgsStep_mapComing f ms s
  case eCsum => exact eCsumStep_mapComing f ms s
  case dRun => exact dRunStep_mapComing f ms s

theorem resyncMatch_mapComing (s : State) : resyncMatch (s.mapComing f ms) = (resyncMatch s).mapComing f ms := by
  by_cases h : s.rsE = 2
  · rw [resyncMatch_of_eq h, resyncMatch_of_eq (s := s.mapComing f ms) h]; rfl
  · rw [resyncMatch_of_ne h, resyncMatch_of_ne (s := s.mapComing f ms) h]; rfl

end

/-- uart_resync_matcher sees of the channel what it pops, and none of the moves to come. -/
theorem rsStep_mapComing {f f' : List RxAnswer → RxTail → Nat → List RxAnswer × Nat} {ms : List Move} {s t : State}
    (hbusy : s.rsPhase ≠ .idle) (hpop : rxPop (s.mapComing f ms) = ((rxPop s).1, (rxPop s).2.mapComing f' ms))
    (h : rsStep s = .next t) : rsStep (s.mapComing f ms) = .next (t.mapComing f' ms) := by
  cases rsStep_rsTurn h with
  | hold phase => exact absurd phase hbusy
  | timeout phase pop => rw [pop] at hpop; exact rsStep_exhausted (s := s.mapComing f ms) hbusy hpop
  | header phase pop found =>
    rw [pop] at hpop
    rw [← resyncMatch_mapComing]
    exact rsStep_header (s := s.mapComing f ms) phase hpop (pdMatch_iff.1 found)
  | note phase pop found =>
    rw [pop] at hpop
    exact rsStep_note (s := s.mapComing f ms) phase hpop fun hm => Bool.false_ne_true (found.symm.trans (pdMatch_iff.2 hm))
  | store phase pop room more =>
    rw [pop] at hpop
    exact (rsStep_store (s := s.mapComing f ms) phase hpop room).trans (congrArg Host.Outcome.next (if_neg more))
  | complete phase pop room last =>
    rw [pop] at hpop
    exact (rsStep_store (s := s.mapComing f ms) phase hpop room).trans (congrArg Host.Outcome.next (if_pos last))

/-- The list and the turn of a channel with the first n answers of its tail listed. -/
def listing (n : Nat) (rx : List RxAnswer) (tail : RxTail) (turn : Nat) : List RxAnswer × Nat :=
  (rx ++ (List.range n).map fun i => tail.answer (turn + i), if tail = .exhausted then turn else turn + n)

theorem listed_eq_mapComing (n : Nat) {s : State} (hscript : s.script = []) :
    Claims.listed n s = s.mapComing (listing n) [] := by
  rw [Claims.listed, State.mapComing, ← hscript]; rfl

/-- The answers of a tail, the first of them taken off. -/
theorem range_map_answer (tail : RxTail) (turn n : Nat) :
    (List.range (n + 1)).map (fun i => tail.answer (turn + i)) =
      tail.answer turn :: (List.range n).map fun i => tail.answer (tail.turnAfter turn + i) := by
  rw [List.range_succ_eq_map, List.map_cons, List.map_map, Nat.add_zero]
  by_cases h : tail = .exhausted
  · subst h; rfl
  · rw [RxTail.turnAfter_endless h]
    simp [Function.comp_def, Nat.add_comm, Nat.add_left_comm]

/-- A pop takes the answer that comes first, listed or not. -/
theorem rxPop_listing (n : Nat) (ms : List Move) (s : State) :
    ∃ m, n ≤ m ∧ rxPop (s.mapComing (listing (n + 1)) ms) = ((rxPop s).1, (rxPop s).2.mapComing (listing m) ms) := by
  rcases rxPop_cases s with ⟨hnil, hpop⟩ | ⟨a, rest, hcons, hpop⟩ <;> rw [hpop]
  · refine ⟨n, le_rfl, ?_⟩
    have hrx : (s.mapComing (listing (n + 1)) ms).rx = s.rxTail.answer s.rxTurn ::
        (List.range n).map fun i => s.rxTail.answer (s.rxTail.turnAfter s.rxTurn + i) := by
      rw [← range_map_answer]
      exact congrArg (· ++ _) hnil
    rw [rxPop_cons hrx]
    refine congrArg (Prod.mk _) ?_
    by_cases hend : s.rxTail = .exhausted
    · simp [State.mapComing, listing, hnil, hend]
    · simp [State.mapComing, listing, hnil, hend, RxTail.turnAfter_endless, Nat.add_comm, Nat.add_left_comm]
  · exact ⟨n + 1, Nat.le_succ n, rxPop_cons (congrArg (· ++ _) hcons)⟩

/-- A step of the blocks takes at most one of the listed answers. -/
theorem blockStep_listing {n : Nat} {s t : State} (h : blockStep s = .next t) :
    ∃ m, n ≤ m ∧ blockStep (s.mapComing (listing (n + 1)) []) = .next (t.mapComing (listing m) []) := by
  rcases blockStep_next h with ⟨hr, hpf⟩ | ⟨hp, hrs⟩
  · refine ⟨n + 1, Nat.le_succ n, ?_⟩
    rw [blockStep_pf (s := s.mapComing _ _) hr, pfStep_mapComing, hpf]; rfl
  · by_cases hr : s.rsPhase = .idle
    · refine ⟨n + 1, Nat.le_succ n, ?_⟩
      rw [blockStep_pf (s := s.mapComing _ _) hr, pfStep_mapComing, ← blockStep_pf hr, h]; rfl
    · obtain ⟨m, hm, hpop⟩ := rxPop_listing n [] s
      exact ⟨m, hm, (blockStep_rs (s := s.mapComing _ _) hp).trans (rsStep_mapComing hr hpop hrs)⟩

theorem blockStep_script {s t : State} (h : blockStep s = .next t) : t.script = s.script := by
  rcases blockStep_next h with ⟨-, hpf⟩ | ⟨-, hrs⟩
  · rw [(pfStep_pfTurn hpf).frame]
  · rw [(rsStep_rsTurn hrs).frame]

/-- A run that goes on begins with a step that does. -/
theorem run_succ_eq_next {n : Nat} {s u : State} (h : run (n + 1) s = .next u) :
    ∃ t, step s = .next t ∧ run n t = .next u := by
  rw [run_succ] at h
  cases hs : step s <;> rw [hs] at h
  case next t => exact ⟨t, rfl, h⟩
  all_goals cases h

/-- Settles O39, by induction on the number of steps. -/
theorem listedAnswersStandForAnyChannel : Obligations.ListedAnswersStandForAnyChannel := by
  unfold Obligations.ListedAnswersStandForAnyChannel
  intro s u n k hscript hk hrun
  induction k generalizing s n with
  | zero =>
    obtain rfl := Host.Outcome.next.inj hrun
    exact ⟨n, rfl⟩
  | succ k ih =>
    obtain ⟨n, rfl⟩ := Nat.exists_eq_add_of_le' hk
    obtain ⟨t, hstep, hrest⟩ := run_succ_eq_next hrun
    rw [step_nil hscript] at hstep
    obtain ⟨m, hm, hlisted⟩ := blockStep_listing (n := n + k) hstep
    have ht : t.script = [] := (blockStep_script hstep).trans hscript
    obtain ⟨m', hrun'⟩ := ih t m ht (Nat.le_trans (Nat.le_add_left k n) hm) hrest
    rw [listed_eq_mapComing m ht] at hrun'
    refine ⟨m', ?_⟩
    rw [listed_eq_mapComing _ hscript, ← Nat.add_assoc, run_succ_next (t := t.mapComing (listing m) []), hrun']
    exact (step_nil rfl).trans hlisted

end Sys2Proof.Machine
end

section
/-! PROOF. DECODE on whole frames: the echo response it validates and the measurement view it leaves (30_encoding R81;
42_frame_decoder R160, R164), and the host's READ_MEAS_UART (43 R196, 44 R218). -/

namespace Sys2Proof.Machine

open Config

/-! ### Echo responses (O31) -/

theorem verify_eq_true_iff {bs : List Byte} : verify bs = true ↔ bs.getLast? = some (sum8 bs.dropLast) := by
  cases bs using List.reverseRecOn with
  | nil => exact ⟨nofun, nofun⟩
  | append_singleton p k =>
    rw [verify_concat, List.getLast?_concat, List.dropLast_concat, beq_iff_eq, Option.some.injEq, eq_comm]

/-- What DECODE leaves when it has taken a whole sequence off `IN`. -/
def decoded (raw : List Byte) (e : Byte) (hasLen hasCsum : Bool) (rest : List InElem) (s : State) : State :=
  { collected raw (decodeStart e hasLen hasCsum s) with
    pfResult := (decodeFrame raw e hasLen hasCsum).result, pfPhase := .idle
    rbufValid := decide ((decodeFrame raw e hasLen hasCsum).result = .ok), inp := rest }

theorem decoded_frame (raw : List Byte) (e : Byte) (hasLen hasCsum : Bool) (rest : List InElem) (s : State) :
    (decoded raw e hasLen hasCsum rest s).rx = s.rx ∧ (decoded raw e hasLen hasCsum rest s).rsPhase = s.rsPhase ∧
      (decoded raw e hasLen hasCsum rest s).rsResult = s.rsResult := by
  rw [decoded, collected_eq]
  exact ⟨rfl, rfl, rfl⟩

theorem decoded_idle {s : State} (hidle : s.idle) (raw : List Byte) (e : Byte) (hasLen hasCsum : Bool)
    (rest : List InElem) : (decoded raw e hasLen hasCsum rest s).idle :=
  ⟨rfl, (decoded_frame raw e hasLen hasCsum rest s).2.1.trans hidle.2⟩

theorem decoded_decE (raw : List Byte) (e : Byte) (hasLen hasCsum : Bool) (rest : List InElem) (s : State) :
    (decoded raw e hasLen hasCsum rest s).decE = e := collected_decE ..

/-- R156: the verdict is the result, and only `OK` makes the frame valid. -/
theorem decoded_verdict {raw : List Byte} {e : Byte} {hasLen hasCsum : Bool} {v : Verdict}
    (h : decodeFrame raw e hasLen hasCsum = v) (rest : List InElem) (s : State) :
    (decoded raw e hasLen hasCsum rest s).pfResult = v.result ∧
      (decoded raw e hasLen hasCsum rest s).rbufValid = decide (v.result = .ok) := by
  subst h
  exact ⟨rfl, rfl⟩

theorem read_decoded_rbuf {raw : List Byte} {j : Nat} (hj : j < raw.length) (hraw : raw.length ≤ 255) (e : Byte)
    (hasLen hasCsum : Bool) (rest : List InElem) (s : State) :
    Memory.read (decoded raw e hasLen hasCsum rest s).rbuf j = raw[j]? :=
  (read_collected_rbuf raw _ j).trans (if_pos ⟨hj, Nat.lt_of_lt_of_le hj hraw⟩)

/-- Settles O31: the verdict of the function `decode` on the buffer with its own size. -/
theorem echoResponseIsValidated : Obligations.EchoResponseIsValidated := by
  unfold Obligations.EchoResponseIsValidated
  intro i raw s hraw hlen hidle hscript hin
  have hin' : (supplyAll raw s).inp = Claims.inStream raw [] := by rw [supplyAll_inp_eq, hin, List.nil_append]
  have hsize : (BitVec.ofNat 8 raw.length).toNat = raw.length := Nat.mod_eq_of_lt (Nat.lt_succ_of_le hlen)
  refine ⟨_, decoded raw (BitVec.ofNat 8 raw.length) true true [] (supplyAll raw s), exec_of_echoBuffer hraw hidle,
    run_decode (s := supplyAll raw s) hidle hscript hin' _ true true, decoded_idle (s := supplyAll raw s) hidle .., rfl,
    fun hbyte => ?_, fun hbyte hsum => ?_, fun hbyte hsum => ?_⟩
  · exact decoded_verdict (decodeFrame_of_lengthByte_ne (fun h => hbyte h.2) true) [] _
  all_goals
    have hlong : 2 ≤ (BitVec.ofNat 8 raw.length).toNat := by
      rw [hsize]; exact (List.getElem?_eq_some_iff.1 hbyte).1
    have hframe := decodeFrame_of_length_eq hsize.symm (fun (_ : true = true) => ⟨hlong, hbyte⟩) true
  · rw [if_pos ⟨rfl, by rw [← Bool.not_eq_true, verify_eq_true_iff]; exact hsum⟩] at hframe
    exact decoded_verdict hframe [] _
  · rw [if_neg (by rw [verify_eq_true_iff.2 hsum]; decide)] at hframe
    obtain ⟨hresult, hvalid⟩ := decoded_verdict hframe [] (supplyAll raw s)
    exact ⟨hresult, hvalid, fun j hj => read_decoded_rbuf hj hlen _ true true [] _⟩

/-! ### The measurement view (O49) -/

theorem goodMeasurement_eq (m : MeasLayout) (d st tm : Half) :
    ∃ tail, Claims.goodMeasurement m d st tm = measurementFrame d st tm tail ∧ tail.length = m.tailBytes := by
  cases m
  · exact ⟨_, rfl, rfl⟩
  · exact ⟨_, rfl, rfl⟩

theorem goodMeasurement_length (m : MeasLayout) (d st tm : Half) :
    (Claims.goodMeasurement m d st tm).length = m.size := by cases m <;> rfl

/-- R164: where the layout has a checksum, the frame's is right. -/
theorem verify_goodMeasurement {m : MeasLayout} (h : m.hasCsum = true) (d st tm : Half) :
    verify (Claims.goodMeasurement m d st tm) = true := by
  cases m with
  | plain => cases h
  | checksummed => exact (verify_concat (measurementFrame d st tm []) _).trans (beq_self_eq_true _)

theorem decodeFrame_goodMeasurement (m : MeasLayout) (d st tm : Half) :
    decodeFrame (Claims.goodMeasurement m d st tm) m.sizeByte false m.hasCsum = .ok (Claims.goodMeasurement m d st tm) :=
  decodeFrame_eq_ok.2 ⟨rfl, by rw [goodMeasurement_length, sizeByte_toNat], nofun, fun h => verify_goodMeasurement h d st tm⟩

/-- R160: an output of the view is the field at its offset. -/
theorem read_of_viewOffset {p : ReadPort} {k : Nat} (hp : Claims.viewOffset p = some k) (s : State) :
    k + 1 < 8 ∧ readValid s p = (measField s k).isSome ∧ hostRead s p = .half (shownHalf (measField s k) s.readTurn) := by
  cases p <;> cases hp <;> exact ⟨by decide, rfl, rfl⟩

/-- The view shows the field whose two bytes stand at its offset in `RBUF`. -/
theorem shows_of_field {t : State} {p : ReadPort} {k : Nat} {h : Half} (hp : Claims.viewOffset p = some k)
    (hr : rbufReadable t = true) (he : 8 ≤ t.decE.toNat) (hlo : Memory.read t.rbuf k = some (loByte h))
    (hhi : Memory.read t.rbuf (k + 1) = some (hiByte h)) : Claims.shows t p (.half h) := by
  obtain ⟨hk, hvalid, hread⟩ := read_of_viewOffset hp t
  rw [measField_of_readable hr he hk hlo hhi, le16_loByte_hiByte] at hvalid hread
  exact ⟨hvalid, hread⟩

/-- The view of a measurement frame in `RBUF` shows its fields. -/
theorem shows_of_measurementFrame {d st tm : Half} {tail : List Byte} {t : State} (hr : rbufReadable t = true)
    (he : 8 ≤ t.decE.toNat) (hread : ∀ j < 8, Memory.read t.rbuf j = (measurementFrame d st tm tail)[j]?) :
    Claims.shows t .measDistance (.half d) ∧ Claims.shows t .measStrength (.half st) ∧
      Claims.shows t .measTemperature (.half tm) :=
  ⟨shows_of_field rfl hr he (hread 2 (by decide)) (hread 3 (by decide)),
    shows_of_field rfl hr he (hread 4 (by decide)) (hread 5 (by decide)),
    shows_of_field rfl hr he (hread 6 (by decide)) (hread 7 (by decide))⟩

/-- What DECODE_MEAS leaves of a measurement frame. -/
def measured (d st tm : Half) (rest : List InElem) (s : State) : State :=
  decoded (Claims.goodMeasurement s.meas d st tm) s.meas.sizeByte false s.meas.hasCsum rest s

theorem measured_verdict (d st tm : Half) (rest : List InElem) (s : State) :
    (measured d st tm rest s).pfResult = .ok ∧ (measured d st tm rest s).rbufValid = true :=
  decoded_verdict (decodeFrame_goodMeasurement s.meas d st tm) rest s

theorem measured_readable (d st tm : Half) (rest : List InElem) (s : State) :
    rbufReadable (measured d st tm rest s) = true :=
  rbufReadable_iff.2 ⟨rfl, measured_verdict d st tm rest s⟩

theorem measured_idle {s : State} (hidle : s.idle) (d st tm : Half) (rest : List InElem) :
    (measured d st tm rest s).idle := decoded_idle hidle ..

theorem measured_frame (d st tm : Half) (rest : List InElem) (s : State) :
    (measured d st tm rest s).rx = s.rx ∧ (measured d st tm rest s).rsPhase = s.rsPhase ∧
      (measured d st tm rest s).rsResult = s.rsResult := decoded_frame ..

theorem measured_decE (d st tm : Half) (rest : List InElem) (s : State) :
    8 ≤ (measured d st tm rest s).decE.toNat := by
  rw [measured, decoded_decE, sizeByte_toNat, size_eq_tailBytes]
  omega

theorem read_measured_rbuf (d st tm : Half) (rest : List InElem) (s : State) {j : Nat} (hj : j < s.meas.size) :
    Memory.read (measured d st tm rest s).rbuf j = (Claims.goodMeasurement s.meas d st tm)[j]? := by
  have hlen := goodMeasurement_length s.meas d st tm
  have hsize : s.meas.size ≤ 255 := by cases s.meas <;> decide
  rw [measured]
  exact read_decoded_rbuf (by rw [hlen]; exact hj) (by rw [hlen]; exact hsize) ..

/-- After DECODE_MEAS of a measurement frame the view shows its fields. -/
theorem measured_shows (d st tm : Half) (rest : List InElem) (s : State) :
    Claims.shows (measured d st tm rest s) .measDistance (.half d) ∧
      Claims.shows (measured d st tm rest s) .measStrength (.half st) ∧
      Claims.shows (measured d st tm rest s) .measTemperature (.half tm) := by
  obtain ⟨tail, hframe, -⟩ := goodMeasurement_eq s.meas d st tm
  refine shows_of_measurementFrame (tail := tail) (measured_readable ..) (measured_decE ..) fun j hj => ?_
  rw [← hframe, read_measured_rbuf]
  rw [size_eq_tailBytes]; omega

theorem run_decodeMeas {d st tm : Half} {rest : List InElem} {s : State} (hidle : s.idle) (hscript : s.script = [])
    (hin : s.inp = Claims.inStream (Claims.goodMeasurement s.meas d st tm) rest) :
    run (s.meas.size + 1) (decodeStart s.meas.sizeByte false s.meas.hasCsum s) = .next (measured d st tm rest s) := by
  rw [← goodMeasurement_length s.meas d st tm]
  exact run_decode hidle hscript hin ..

theorem exec_decodeMeas_idle {s : State} (hidle : s.idle) :
    exec .decodeMeas s = .next (decodeStart s.meas.sizeByte false s.meas.hasCsum s) := startPf_idle hidle _

/-- Settles O49. -/
theorem measurementViewShowsTheFields : Obligations.MeasurementViewShowsTheFields := by
  unfold Obligations.MeasurementViewShowsTheFields
  intro d st tm s hidle hscript hin
  exact ⟨_, _, exec_decodeMeas_idle hidle, run_decodeMeas hidle hscript hin, measured_idle hidle .., (measured_verdict ..).1,
    measured_shows ..⟩

/-! ### Waiting for the end of an operation -/

theorem mapComing_self (ms : List Move) (s : State) : s.mapComing (fun rx _ turn => (rx, turn)) ms = s.withMoves ms := rfl

/-- The blocks do not see the moves to come. -/
theorem blockStep_withMoves {s t : State} (h : blockStep s = .next t) (ms : List Move) :
    blockStep (s.withMoves ms) = .next (t.withMoves ms) := by
  rcases blockStep_next h with ⟨hr, hpf⟩ | ⟨hp, hrs⟩
  · rw [blockStep_pf (s := s.withMoves ms) hr, ← mapComing_self, pfStep_mapComing, hpf]; rfl
  · by_cases hr : s.rsPhase = .idle
    · rw [blockStep_pf (s := s.withMoves ms) hr, ← mapComing_self, pfStep_mapComing, ← blockStep_pf hr, h]; rfl
    · refine (blockStep_rs (s := s.withMoves ms) hp).trans 
        (rsStep_mapComing (f := fun rx _ turn => (rx, turn)) (f' := fun rx _ turn => (rx, turn)) (ms := ms) hr ?_ hrs)
      rcases rxPop_cases s with ⟨hnil, e⟩ | ⟨a, rest, hcons, e⟩ <;> rw [e]
      · exact rxPop_nil hnil
      · exact rxPop_cons hcons

/-- Some number of steps leads from s to t. -/
def Reaches (s t : State) : Prop := ∃ n, run n s = .next t

theorem Reaches.of_step {s t u : State} (h : step s = .next t) (hrest : Reaches t u) : Reaches s u := by
  obtain ⟨n, hn⟩ := hrest
  exact ⟨n + 1, (run_succ_next h).trans hn⟩

theorem Reaches.trans {s t u : State} (h : Reaches s t) (hrest : Reaches t u) : Reaches s u := by
  obtain ⟨n, hn⟩ := h
  obtain ⟨m, hm⟩ := hrest
  exact ⟨n + m, (run_add m hn).trans hm⟩

theorem idle_iff {s : State} : s.idle ↔ (s.pfBusy || s.rsBusy) = false := by simp [State.idle]

theorem step_await_idle {s : State} {rest : List Move} (h : s.script = .env .await :: rest) (hidle : s.idle) :
    step s = .next (s.withMoves rest) := by
  rw [step_env h, hostMove_await]
  exact if_neg (Bool.eq_false_iff.1 (idle_iff.1 hidle))

theorem step_await_busy {s : State} {rest : List Move} (h : s.script = .env .await :: rest) (hbusy : ¬ s.idle) :
    step s = blockStep s := by
  rw [step_env h, hostMove_await]
  exact if_pos (by rw [idle_iff, Bool.not_eq_false] at hbusy; exact hbusy)

/-- A waiting host goes on where the run that no move disturbs has come to its end. -/
theorem Reaches.await {n : Nat} {s t : State} {rest : List Move} (h : s.script = .env .await :: rest)
    (hrun : run n (s.withMoves []) = .next t) (hidle : t.idle) : Reaches s (t.withMoves rest) := by
  induction n generalizing s with
  | zero =>
    obtain rfl := Host.Outcome.next.inj hrun
    exact ⟨1, run_succ_next (step_await_idle h hidle)⟩
  | succ n ih =>
    by_cases hs : s.idle
    · rw [run_of_step_self (step_of_idle (s := s.withMoves []) hs rfl)] at hrun
      obtain rfl := Host.Outcome.next.inj hrun
      exact ⟨1, run_succ_next (step_await_idle h hs)⟩
    · obtain ⟨u, hu, hrest⟩ := run_succ_eq_next hrun
      rw [step_nil rfl] at hu
      have hstep : step s = .next (u.withMoves s.script) :=
        (step_await_busy h hs).trans (blockStep_withMoves hu s.script)
      have hscript : u.script = [] := blockStep_script hu
      refine .of_step hstep (ih h ?_)
      rwa [show (u.withMoves s.script).withMoves [] = u by rw [State.withMoves, State.withMoves, ← hscript]]

/-! ### READ_MEAS_UART (O50, O51) -/

/-- The host's call of an operation: its accepted start, and the wait for its end. -/
theorem Reaches.call {n : Nat} {i : Instr} {s t₀ t : State} {rest : List Move} (hwf : i.wf s.meas = true)
    (h : s.script = Machine.call s.meas i ++ rest) (hstart : exec i (s.withMoves (.env .await :: rest)) = .next t₀)
    (hscript : t₀.script = .env .await :: rest) (hrun : run n (t₀.withMoves []) = .next t) (hidle : t.idle) :
    Reaches s (t.withMoves rest) := by
  refine .of_step ?_ (.await hscript hrun hidle)
  rw [step_request h, ← hstart]
  exact runRequest_of_instr (decodingAnEncodedInstructionGivesItBack s.meas i hwf)

theorem step_unlessOk {s : State} {b : Block} {n : Nat} {rest : List Move} (h : s.script = .env (.unlessOk b n) :: rest) :
    step s = .next (s.withMoves (if s.result b = .ok then rest else rest.drop n)) := by
  rw [step_env h, hostMove_unlessOk]
  rfl

/-- RESYNC, called by the host with what follows its call still to come. -/
theorem Reaches.callResync {n : Nat} {s t : State} {rest : List Move} (hidle : s.idle)
    (h : s.script = Machine.call s.meas (.resync s.meas.sizeByte) ++ rest)
    (hrun : run n (resyncStart s.meas.sizeByte (s.withMoves [])) = .next t) (ht : t.idle) :
    Reaches s (t.withMoves rest) := by
  refine .call (i := .resync s.meas.sizeByte) (t₀ := resyncStart s.meas.sizeByte (s.withMoves (.env .await :: rest))) rfl h ?_
    rfl hrun ht
  rw [← resyncAccepted_of_le (two_le_sizeByte s.meas)]
  exact exec_resync_idle (s := s.withMoves (.env .await :: rest)) hidle _

/-- The host goes on with its call. -/
theorem step_ifOk {s : State} {b : Block} {rest : List Move} (h : s.script = ifOk b rest) (hok : s.result b = .ok) :
    step s = .next (s.withMoves rest) := by rw [step_unlessOk h, if_pos hok]

/-- The host ends its call. -/
theorem step_ifOk_of_ne {s : State} {b : Block} {rest : List Move} (h : s.script = ifOk b rest) (hok : s.result b ≠ .ok) :
    step s = .next (s.withMoves []) := by rw [step_unlessOk h, if_neg hok, List.drop_length]

/-- Settles O51. -/
theorem readMeasUartEndsWithoutDecodeOnTimeout : Obligations.ReadMeasUartEndsWithoutDecodeOnTimeout := by
  unfold Obligations.ReadMeasUartEndsWithoutDecodeOnTimeout
  intro rx rest after s hidle hscript hrx hrest htimeout
  rw [← sizeByte_toNat] at htimeout
  obtain ⟨t, hrun, ht⟩ := run_resync_timeout (s := s.withMoves []) hidle rfl hrx hrest htimeout
  have hsync := Reaches.callResync hidle hscript hrun (by rw [ht]; exact hidle)
  have hresult : t.rsResult = .syncTimeout := by rw [ht]
  obtain ⟨n, hn⟩ := hsync.trans (.of_step (step_ifOk_of_ne rfl (show t.rsResult ≠ .ok by rw [hresult]; decide)) ⟨0, rfl⟩)
  refine ⟨n, _, hn, rfl, ?_⟩
  rw [ht]
  exact ⟨hidle, rfl, rfl, rfl, rfl, rfl, rfl, rfl⟩

theorem step_presentFbuf {s : State} {rest : List Move} (h : s.script = .env .presentFbuf :: rest) (hidle : s.idle) :
    step s = .next (presentFrame (s.withMoves rest)) := by
  have hend : endSupplied (s.withMoves rest) = false := by simp [endSupplied, hidle.1]
  rw [step_env h, hostMove_presentFbuf]
  exact if_neg (Bool.eq_false_iff.1 hend)

/-- The frame that RESYNC has found is presented as it stands in `FBUF`. -/
theorem step_present_found {s : State} {frame : List Byte} {rest : List Move} (h : s.script = .env .presentFbuf :: rest)
    (hidle : s.idle) (hr : fbufReadable s = true) (hin : s.inp = []) (hlen : frame.length = s.rsE.toNat)
    (hread : ∀ j, j < s.rsE.toNat → Memory.read s.fbuf j = frame[j]?) :
    ∃ v, step s = .next v ∧ v.idle ∧ v.script = rest ∧ v.inp = Claims.inStream frame [] ∧ v.meas = s.meas ∧ v.rx = s.rx ∧
      v.rsResult = s.rsResult := by
  refine ⟨_, step_presentFbuf h hidle, hidle, rfl, ?_, rfl, rfl, rfl⟩
  rw [presentFrame_inp, shownFrame_eq (s := s.withMoves rest) hr hlen hread, show (s.withMoves rest).inp = [] from hin]
  simp [Claims.inStream]

/-- DECODE_MEAS, called by the host as its last call, on a measurement frame. -/
theorem Reaches.callDecodeMeas {d st tm : Half} {s : State} (hidle : s.idle)
    (h : s.script = Machine.call s.meas .decodeMeas ++ [])
    (hin : s.inp = Claims.inStream (Claims.goodMeasurement s.meas d st tm) []) :
    ∃ t, Reaches s t ∧ t.script = [] ∧ t.idle ∧ t.pfResult = .ok ∧ t.rx = s.rx ∧ t.rsResult = s.rsResult ∧
      Claims.shows t .measDistance (.half d) ∧ Claims.shows t .measStrength (.half st) ∧
      Claims.shows t .measTemperature (.half tm) := by
  have hidle' : (s.withMoves []).idle := hidle
  have hend := measured_idle hidle' d st tm []
  have hframe := measured_frame d st tm [] (s.withMoves [])
  have hresult := measured_verdict d st tm [] (s.withMoves [])
  have hshows := measured_shows d st tm [] (s.withMoves [])
  have hrun := run_decodeMeas hidle' rfl hin
  generalize measured d st tm [] (s.withMoves []) = t at *
  obtain ⟨hrx, -, hrs⟩ := hframe
  exact ⟨_, .call (i := .decodeMeas) (rest := [])
    (t₀ := decodeStart s.meas.sizeByte false s.meas.hasCsum (s.withMoves [.env .await])) rfl h
    (exec_decodeMeas_idle (s := s.withMoves [.env .await]) hidle) rfl hrun hend, rfl, hend, hresult.1, hrx, hrs, hshows⟩

/-- RESYNC, called by the host on a frame behind garbage without a pair, finds it. -/
theorem Reaches.callResync_found {garbage frame tail : List Byte} {after : List RxAnswer} {s : State} {rest : List Move}
    (hidle : s.idle) (h : s.script = Machine.call s.meas (.resync s.meas.sizeByte) ++ rest)
    (hframe : frame = hdr0 :: hdr1 :: tail) (hlen : frame.length = s.meas.sizeByte.toNat)
    (hrx : s.rx = Claims.rxStream (garbage ++ frame) after) (hgarbage : firstHeader (garbage ++ [hdr0]) = none) :
    ∃ u, Reaches s (u.withMoves rest) ∧ u.idle ∧ fbufReadable u = true ∧ frame.length = u.rsE.toNat ∧
      (∀ j, j < u.rsE.toNat → Memory.read u.fbuf j = frame[j]?) ∧ u.inp = s.inp ∧ u.rx = after ∧ u.meas = s.meas := by
  subst hframe
  have hlen' : 2 + tail.length = s.meas.sizeByte.toNat := by rw [← hlen, List.length_cons, List.length_cons]; omega
  have hrun := run_resync_behind_garbage (s := s.withMoves []) hidle rfl hrx hgarbage hlen'
  refine ⟨_, .callResync hidle h hrun hidle, hidle, fbufReadable_iff.2 ⟨hidle.2, rfl, rfl⟩, hlen, fun j hj => ?_, rfl, rfl, rfl⟩
  exact (read_store_zero ..).trans (if_pos (hlen ▸ hj))

/-- Settles O50. -/
theorem readMeasUartShowsTheFields : Obligations.ReadMeasUartShowsTheFields := by
  unfold Obligations.ReadMeasUartShowsTheFields
  intro d st tm garbage rest s hidle hin hscript hrx hgarbage
  have hlen := goodMeasurement_length s.meas d st tm
  rw [← sizeByte_toNat] at hlen
  obtain ⟨u, hsync, huidle, hur, hulen, huread, huin, hurx, humeas⟩ :=
    Reaches.callResync_found hidle hscript rfl hlen hrx hgarbage
  obtain ⟨-, huok, -⟩ := fbufReadable_iff.1 hur
  obtain ⟨v, hpresent, hvidle, hvscript, hvin, hvmeas, hvrx, hvrs⟩ :=
    step_present_found (s := u.withMoves (.env .presentFbuf :: (call s.meas .decodeMeas ++ []))) rfl huidle hur
      (huin.trans hin) hulen huread
  have hmeas : v.meas = s.meas := hvmeas.trans humeas
  obtain ⟨t, hdecode, htscript, htidle, htresult, htrx, htrs, hshows⟩ :=
    Reaches.callDecodeMeas hvidle (by rw [hmeas]; exact hvscript) (by rw [hmeas]; exact hvin)
  obtain ⟨n, hn⟩ := hsync.trans (.of_step (step_ifOk rfl huok) (.of_step hpresent hdecode))
  exact ⟨n, t, hn, htscript, htidle, htrs.trans (hvrs.trans huok), htresult, htrx.trans (hvrx.trans hurx), hshows⟩

end Sys2Proof.Machine
end

section
/-! PROOF. Host reads of status fields and of the measurement view (10_state R28, R30, R32; 42_frame_decoder R160), and the
other moves of the environment (20_memory R52 to R55, 43 R196, 44 R218). -/

namespace Sys2Proof.Machine

open Config

/-! ### Reads (O47) -/

theorem pfBusy_eq_decide (s : State) : s.pfBusy = decide (s.pfPhase ≠ .idle) := by
  rw [Bool.eq_iff_iff, pfBusy_eq_true, decide_eq_true_iff]

theorem rsBusy_eq_decide (s : State) : s.rsBusy = decide (s.rsPhase ≠ .idle) := by
  rw [Bool.eq_iff_iff, rsBusy_eq_true, decide_eq_true_iff]

/-- What an output of the view shows where the fields may be read. -/
theorem view_of_readable {s : State} {p : ReadPort} {k : Nat} {lo hi : Byte} (hp : Claims.viewOffset p = some k)
    (hr : rbufReadable s = true) (he : 8 ≤ s.decE.toNat) (hlo : Memory.read s.rbuf k = some lo)
    (hhi : Memory.read s.rbuf (k + 1) = some hi) : readValid s p = true ∧ hostRead s p = .half (le16 lo hi) := by
  obtain ⟨hk, hvalid, hread⟩ := read_of_viewOffset hp s
  rw [measField_of_readable hr he hk hlo hhi] at hvalid hread
  exact ⟨hvalid, hread⟩

/-- What an output of the view shows elsewhere (93 U5). -/
theorem view_of_not_readable {s : State} {p : ReadPort} {k : Nat} (hp : Claims.viewOffset p = some k)
    (hnot : ¬ (rbufReadable s = true ∧ 8 ≤ s.decE.toNat)) :
    readValid s p = false ∧ hostRead s p = .half (unspecifiedHalf s.readTurn) := by
  obtain ⟨-, hvalid, hread⟩ := read_of_viewOffset hp s
  rw [measField_of_not_readable hnot] at hvalid hread
  exact ⟨hvalid, hread⟩

/-- Settles O47, port by port. -/
theorem statusReadsShowTheFieldsWithoutEffect : Obligations.StatusReadsShowTheFieldsWithoutEffect := by
  unfold Obligations.StatusReadsShowTheFieldsWithoutEffect
  intro s p rest h
  refine ⟨⟨hostRead s p, step_read h, ?_, ?_, ?_, ?_, ?_, ?_, ?_, ?_, ?_, ?_, fun k hk => ⟨?_, ?_⟩⟩, ?_, ?_⟩
  · rintro rfl; exact congrArg ReadValue.bit (pfBusy_eq_decide s)
  · rintro rfl; exact congrArg ReadValue.bit (rsBusy_eq_decide s)
  iterate 8 rintro rfl; rfl
  · intro lo hi hidle hok hvalid he hlo hhi
    exact view_of_readable hk (rbufReadable_iff.2 ⟨hidle, hok, hvalid⟩) he hlo hhi
  · intro hnot
    exact view_of_not_readable hk (by rwa [rbufReadable_iff, and_assoc, and_assoc])
  · rintro rfl; exact hasValueOf_iff
  · rintro rfl; exact hasValueOf_iff

/-! ### Direct reads (O48) -/

theorem supplyAll_eq (bs : List Byte) (s : State) :
    supplyAll bs s = { s with inp := s.inp ++ Claims.inStream bs [] } := by
  rw [← supplyAll_inp_eq]; rfl

theorem takeRx_byte {n : Nat} {s t : State} {b : Byte} (h : rxPop s = (.byte b, t)) :
    takeRx (n + 1) s = (b :: (takeRx n t).1, (takeRx n t).2) := by rw [takeRx, h]

/-- Log entry 16: a direct read stops at the `Exhausted` it meets. -/
theorem takeRx_exhausted {n : Nat} {s t : State} (h : rxPop s = (.exhausted, t)) : takeRx (n + 1) s = ([], t) := by
  rw [takeRx, h]

/-- A direct read of more than the listed bytes. -/
theorem takeRx_rxStream {bs : List Byte} {rest : List RxAnswer} {s : State} (h : s.rx = Claims.rxStream bs rest) (n : Nat) :
    takeRx (bs.length + n) s =
      (bs ++ (takeRx n (s.withRx rest s.rxTurn)).1, (takeRx n (s.withRx rest s.rxTurn)).2) := by
  induction bs generalizing s with
  | nil => rw [List.length_nil, Nat.zero_add, State.withRx, show rest = s.rx from h.symm]; rfl
  | cons b bs ih =>
    rw [List.length_cons, Nat.add_right_comm, takeRx_byte (rxPop_rxStream h),
      ih (s := s.withRx (Claims.rxStream bs rest) s.rxTurn) rfl]
    rfl

/-- A direct read behind the list, of more than the bytes that the endless tail answers next. -/
theorem takeRx_tail {cs : List Byte} {s : State} (hrx : s.rx = []) (hendless : s.rxTail ≠ .exhausted)
    (hcs : ∀ k, k < cs.length → cs[k]?.map .byte = some (s.rxTail.answer (s.rxTurn + k))) (n : Nat) :
    takeRx (cs.length + n) s =
      (cs ++ (takeRx n (s.withRx [] (s.rxTurn + cs.length))).1, (takeRx n (s.withRx [] (s.rxTurn + cs.length))).2) := by
  induction cs generalizing s with
  | nil => rw [List.length_nil, Nat.zero_add, Nat.add_zero, State.withRx, ← hrx]; rfl
  | cons c cs ih =>
    have hpop : rxPop s = (.byte c, s.withRx [] (s.rxTurn + 1)) := by
      have hfirst : RxAnswer.byte c = s.rxTail.answer s.rxTurn := Option.some.inj (hcs 0 (Nat.succ_pos _))
      rw [rxPop_nil hrx, ← hfirst, RxTail.turnAfter_endless hendless, State.withRx, ← hrx]
    have hrest : ∀ k, k < cs.length → cs[k]?.map .byte = some (s.rxTail.answer (s.rxTurn + 1 + k)) := fun k hk => by
      rw [Nat.add_assoc, Nat.add_comm 1]
      exact hcs (k + 1) (Nat.succ_lt_succ hk)
    rw [List.length_cons, Nat.add_right_comm, takeRx_byte hpop,
      ih (s := s.withRx [] (s.rxTurn + 1)) rfl hendless hrest, Nat.add_comm cs.length 1, ← Nat.add_assoc s.rxTurn]
    rfl

/-- A direct read of the listed bytes and of bytes that the endless tail answers. -/
theorem takeRx_list_and_tail {bs cs : List Byte} {s : State} (hrx : s.rx = Claims.rxStream bs [])
    (hendless : s.rxTail ≠ .exhausted)
    (hcs : ∀ k, k < cs.length → cs[k]?.map .byte = some (s.rxTail.answer (s.rxTurn + k))) :
    takeRx (bs.length + cs.length) s = (bs ++ cs, s.withRx [] (s.rxTurn + cs.length)) := by
  have htail := takeRx_tail (s := s.withRx [] s.rxTurn) rfl hendless hcs 0
  rw [Nat.add_zero] at htail
  rw [takeRx_rxStream hrx, htail, takeRx, List.append_nil]
  rfl

/-- A direct read that meets the `Exhausted` of the endless tail. -/
theorem takeRx_list_and_tail_stop {bs cs : List Byte} {s : State} (hrx : s.rx = Claims.rxStream bs [])
    (hendless : s.rxTail ≠ .exhausted)
    (hcs : ∀ k, k < cs.length → cs[k]?.map .byte = some (s.rxTail.answer (s.rxTurn + k)))
    (hstop : s.rxTail.answer (s.rxTurn + cs.length) = .exhausted) (n : Nat) :
    takeRx (bs.length + (cs.length + (n + 1))) s = (bs ++ cs, s.withRx [] (s.rxTurn + cs.length + 1)) := by
  have hpop : rxPop ((s.withRx [] s.rxTurn).withRx [] ((s.withRx [] s.rxTurn).rxTurn + cs.length)) =
      (.exhausted, s.withRx [] (s.rxTurn + cs.length + 1)) := by
    rw [rxPop_nil rfl]
    exact Prod.ext hstop (congrArg (s.withRx []) (RxTail.turnAfter_endless hendless _))
  have htail := takeRx_tail (s := s.withRx [] s.rxTurn) rfl hendless hcs (n + 1)
  rw [takeRx_exhausted hpop, List.append_nil] at htail
  rw [takeRx_rxStream hrx, htail]

theorem step_readExact {s : State} {n : Byte} {rest : List Move} (h : s.script = .env (.readExact n) :: rest)
    (hidle : s.idle) :
    step s = .next (supplyAll (takeRx n.toNat (s.withMoves rest)).1 (takeRx n.toNat (s.withMoves rest)).2) := by
  rw [step_env h, hostMove_readExact]
  exact if_neg (Bool.eq_false_iff.1 (idle_iff.1 hidle))

theorem step_readExact_busy {s : State} {n : Byte} {rest : List Move} (h : s.script = .env (.readExact n) :: rest)
    (hbusy : ¬ s.idle) : step s = .refused .readOverlap := by
  rw [step_env h, hostMove_readExact]
  exact if_pos (by rw [idle_iff, Bool.not_eq_false] at hbusy; exact hbusy)

theorem endSupplied_iff_behindEndMark {s : State} : endSupplied s = true ↔ Claims.behindEndMark s := endSupplied_iff

/-- Log entry 24. -/
theorem step_supply_behind {s : State} {x : InElem} {rest : List Move} (h : s.script = .env (.supply x) :: rest)
    (hb : Claims.behindEndMark s) : step s = .refused .supplyAfterEnd := by
  rw [step_env h, hostMove_supply]
  exact if_pos (endSupplied_iff_behindEndMark.2 hb)

theorem step_supply {s : State} {x : InElem} {rest : List Move} (h : s.script = .env (.supply x) :: rest)
    (hnb : ¬ Claims.behindEndMark s) : step s = .next { s with script := rest, inp := s.inp ++ [x] } := by
  rw [step_env h, hostMove_supply]
  exact if_neg (mt endSupplied_iff_behindEndMark.1 hnb)

theorem step_presentFbuf_of_not_behind {s : State} {rest : List Move} (h : s.script = .env .presentFbuf :: rest)
    (hnot : ¬ Claims.behindEndMark s) : step s = .next { s with
      script := rest, inp := s.inp ++ Claims.inStream (shownFrame s) [], readTurn := s.readTurn + s.rsE.toNat } := by
  rw [step_env h, hostMove_presentFbuf]
  refine (if_neg (mt endSupplied_iff_behindEndMark.1 hnot)).trans ?_
  rw [presentFrame, supplyAll_eq]; rfl

/-- Settles O48, move by move. -/
theorem environmentMovesChangeOnlyTheirStreams : Obligations.EnvironmentMovesChangeOnlyTheirStreams := by
  unfold Obligations.EnvironmentMovesChangeOnlyTheirStreams
  intro s rest
  refine ⟨fun x h => ⟨step_supply_behind h, step_supply h⟩, fun b h => step_env h, fun r h => step_env h,
    fun n bs more h hidle hrx hlen => ?_, fun n bs more after h hidle hrx hlen hmore => ?_,
    fun n bs cs h hidle hendless hrx hcs => ⟨fun hlen => ?_, fun hlen hstop => ?_⟩,
    fun n h hbusy => step_readExact_busy h hbusy, fun h hb => ?_, fun bs h hnb hidle hok hvalid hlen hread => ?_,
    fun h hnb hnot => ?_, fun b n h => ?_, fun h hidle => step_await_idle h hidle, fun h hbusy => step_await_busy h hbusy,
    fun h => step_env h⟩
  · rw [step_readExact h hidle, ← hlen, takeRx_bytes (s := s.withMoves rest) bs more hrx, supplyAll_eq]; rfl
  · obtain ⟨m, hm⟩ := Nat.exists_eq_add_of_lt hlen
    rw [step_readExact h hidle, hm, Nat.add_assoc, takeRx_rxStream (s := s.withMoves rest) hrx,
      takeRx_exhausted (rxPop_answersExhausted hmore), supplyAll_eq, List.append_nil]; rfl
  · rw [step_readExact h hidle, ← hlen, takeRx_list_and_tail (s := s.withMoves rest) hrx hendless hcs, supplyAll_eq]; rfl
  · obtain ⟨m, hm⟩ := Nat.exists_eq_add_of_lt hlen
    rw [step_readExact h hidle, hm, Nat.add_assoc, Nat.add_assoc,
      takeRx_list_and_tail_stop (s := s.withMoves rest) hrx hendless hcs hstop, supplyAll_eq]; rfl
  · rw [step_env h, hostMove_presentFbuf]
    exact if_pos (endSupplied_iff_behindEndMark.2 hb)
  · rw [step_presentFbuf_of_not_behind h hnb, shownFrame_eq (fbufReadable_iff.2 ⟨hidle, hok, hvalid⟩) hlen hread, hlen]
  · rw [step_presentFbuf_of_not_behind h hnb, shownFrame_of_not_readable (mt fbufReadable_iff.1 hnot)]
  · rw [step_unlessOk h]; rfl

end Sys2Proof.Machine
end

section
/-! PROOF. Two machines side by side (10_state R38): when a relation between them tells apart neither their phases nor
their turns, one environment takes both through the same run. -/

namespace Sys2Proof.Machine

open Config Claims

/-- The same state after moves of the environment on `IN`, the channel, the sink and the moves to come. -/
def State.moved (fi : List InElem → List InElem) (fr : List RxAnswer → List RxAnswer) (fb : Bool → Bool)
    (fs : List Move → List Move) (s : State) : State :=
  { s with inp := fi s.inp, rx := fr s.rx, txReady := fb s.txReady, script := fs s.script }

end Sys2Proof.Machine

namespace Sys2Proof.Claims

open Machine

variable {s t : State}

theorem sameEnvironment.inp (h : sameEnvironment s t) : s.inp = t.inp := by
  obtain ⟨-, -, -, -, -, hin, -⟩ := h
  exact hin

theorem sameEnvironment.script (h : sameEnvironment s t) : s.script = t.script := by
  obtain ⟨-, -, -, -, -, -, hscript, -⟩ := h
  exact hscript

theorem sameEnvironment.txReady (h : sameEnvironment s t) : s.txReady = t.txReady := by
  obtain ⟨-, -, -, -, hready, -⟩ := h
  exact hready

theorem sameEnvironment.meas (h : sameEnvironment s t) : s.meas = t.meas := by
  obtain ⟨-, -, -, -, -, -, -, hmeas⟩ := h
  exact hmeas

theorem sameEnvironment.moved (h : sameEnvironment s t) (fi : List InElem → List InElem)
    (fr : List RxAnswer → List RxAnswer) (fb : Bool → Bool) (fs : List Move → List Move) :
    sameEnvironment (s.moved fi fr fb fs) (t.moved fi fr fb fs) := by
  obtain ⟨hrx, htail, hturn, htx, hready, hin, hscript, hmeas⟩ := h
  exact ⟨congrArg fr hrx, htail, hturn, htx, congrArg fb hready, congrArg fi hin, congrArg fs hscript, hmeas⟩

/-- A byte that both send. -/
theorem sameEnvironment.sent (h : sameEnvironment s t) (b : Byte) :
    sameEnvironment { s with tx := s.tx ++ [b] } { t with tx := t.tx ++ [b] } := by
  obtain ⟨hrx, htail, hturn, htx, hready, hin, hscript, hmeas⟩ := h
  exact ⟨hrx, htail, hturn, congrArg (· ++ [b]) htx, hready, hin, hscript, hmeas⟩

theorem sameEnvironment.withRx (h : sameEnvironment s t) (rx : List RxAnswer) (turn : Nat) :
    sameEnvironment (s.withRx rx turn) (t.withRx rx turn) := by
  obtain ⟨-, htail, -, htx, hready, hin, hscript, hmeas⟩ := h
  exact ⟨rfl, htail, rfl, htx, hready, hin, hscript, hmeas⟩

/-- Both pop the same answer. -/
theorem sameEnvironment.rxPop {a : RxAnswer} {rx : List RxAnswer} {turn : Nat} (h : sameEnvironment s t)
    (hpop : rxPop s = (a, s.withRx rx turn)) : rxPop t = (a, t.withRx rx turn) := by
  obtain ⟨hrx, htail, hturn, -⟩ := h
  have hsame : Machine.rxPop t =
      ((Machine.rxPop s).1, t.withRx (Machine.rxPop s).2.rx (Machine.rxPop s).2.rxTurn) := by
    rcases rxPop_cases s with ⟨hnil, e⟩ | ⟨b, rest, hcons, e⟩ <;> rw [e]
    · rw [rxPop_nil (hrx ▸ hnil)]
      simp only [State.withRx, hrx, htail, hturn]
    · rw [rxPop_cons (hrx ▸ hcons), State.withRx, ← hturn]
  rw [hsame, hpop]
  rfl

end Sys2Proof.Claims

namespace Sys2Proof.Machine

open Config Claims

/-- A relation between two machines that no run of a block can break. -/
structure Course (P : State → State → Prop) : Prop where
  phases : ∀ {s t : State}, P s t → s.pfPhase = t.pfPhase ∧ s.rsPhase = t.rsPhase
  moved : ∀ {s t : State}, P s t → ∀ fi fr fb fs, P (s.moved fi fr fb fs) (t.moved fi fr fb fs)
  turn : ∀ {s t s' : State}, P s t → sameEnvironment s t → s.Inv → blockStep s = .next s' →
    ∃ t', blockStep t = .next t' ∧ sameEnvironment s' t' ∧ P s' t'

/-- Two machines during one operation. -/
structure Alongside (P : State → State → Prop) (s t : State) : Prop where
  alike : P s t
  env : sameEnvironment s t
  inv : s.Inv
  during : ∀ m ∈ s.script, duringOperation m = true

section

variable {P : State → State → Prop} {s t s' : State}

theorem Alongside.moved (h : Alongside P s t) (hc : Course P) {fi : List InElem → List InElem}
    {fr : List RxAnswer → List RxAnswer} {fb : Bool → Bool} {fs : List Move → List Move}
    (hfs : ∀ m ∈ fs s.script, m ∈ s.script) :
    Alongside P (s.moved fi fr fb fs) (t.moved fi fr fb fs) where
  alike := hc.moved h.alike fi fr fb fs
  env := h.env.moved fi fr fb fs
  inv := h.inv.congr rfl rfl rfl rfl rfl
  during m hm := h.during m (hfs m hm)

theorem Alongside.turn (h : Alongside P s t) (hc : Course P) (hs : blockStep s = .next s') :
    ∃ t', blockStep t = .next t' ∧ Alongside P s' t' := by
  obtain ⟨t', ht, henv, hP⟩ := hc.turn h.alike h.env h.inv hs
  exact ⟨t', ht, hP, henv, (blockStep_steps hs).keeps_inv h.inv, by rw [blockStep_script hs]; exact h.during⟩

theorem Alongside.idle_iff (h : Alongside P s t) (hc : Course P) : s.idle ↔ t.idle := by
  obtain ⟨hpf, hrs⟩ := hc.phases h.alike
  rw [State.idle, State.idle, hpf, hrs]

theorem Alongside.behindEndMark_iff (h : Alongside P s t) (hc : Course P) : behindEndMark s ↔ behindEndMark t := by
  rw [behindEndMark, behindEndMark, (hc.phases h.alike).1, h.env.inp]

/-- One step of both. -/
theorem Alongside.step (h : Alongside P s t) (hc : Course P) (hs : step s = .next s') :
    ∃ t', step t = .next t' ∧ Alongside P s' t' := by
  have hts : t.script = s.script := h.env.script.symm
  rcases hscript : s.script with _ | ⟨m, rest⟩
  · rw [step_nil hscript] at hs
    rw [step_nil (hts.trans hscript)]
    exact h.turn hc hs
  · have hrest : ∀ m ∈ rest, m ∈ s.script := fun m hm => by rw [hscript]; exact List.mem_cons_of_mem _ hm
    have hscript' : t.script = m :: rest := hts.trans hscript
    have hm : duringOperation m = true := h.during m (by rw [hscript]; exact List.mem_cons_self)
    cases m with
    | request r => cases hm
    | env m =>
      cases m with
      | run =>
        rw [step_env hscript] at hs
        rw [step_env hscript']
        exact (h.moved hc (fi := id) (fr := id) (fb := id) (fs := fun _ => rest) hrest).turn hc hs
      | await =>
        by_cases hidle : s.idle
        · rw [step_await_idle hscript hidle] at hs
          obtain rfl := Host.Outcome.next.inj hs
          exact ⟨_, step_await_idle hscript' ((h.idle_iff hc).1 hidle),
            h.moved hc (fi := id) (fr := id) (fb := id) (fs := fun _ => rest) hrest⟩
        · rw [step_await_busy hscript hidle] at hs
          rw [step_await_busy hscript' (mt (h.idle_iff hc).2 hidle)]
          exact h.turn hc hs
      | supply x =>
        by_cases hbehind : behindEndMark s
        · rw [step_supply_behind hscript hbehind] at hs
          cases hs
        · rw [step_supply hscript hbehind] at hs
          obtain rfl := Host.Outcome.next.inj hs
          exact ⟨_, step_supply hscript' (mt (h.behindEndMark_iff hc).2 hbehind),
            h.moved hc (fi := (· ++ [x])) (fr := id) (fb := id) (fs := fun _ => rest) hrest⟩
      | arrive b =>
        obtain rfl := Host.Outcome.next.inj ((step_env hscript).symm.trans hs)
        exact ⟨_, step_env hscript',
          h.moved hc (fi := id) (fr := (· ++ [RxAnswer.byte b])) (fb := id) (fs := fun _ => rest) hrest⟩
      | sink ready =>
        obtain rfl := Host.Outcome.next.inj ((step_env hscript).symm.trans hs)
        exact ⟨_, step_env hscript', h.moved hc (fi := id) (fr := id) (fb := fun _ => ready) (fs := fun _ => rest) hrest⟩
      | reset => cases hm
      | presentFbuf => cases hm
      | readExact => cases hm
      | read => cases hm
      | unlessOk => cases hm

/-- A run of both. -/
theorem Alongside.run {n : Nat} (h : Alongside P s t) (hc : Course P) (hs : run n s = .next s') :
    ∃ t', run n t = .next t' ∧ Alongside P s' t' := by
  induction n generalizing s t with
  | zero =>
    obtain rfl := Host.Outcome.next.inj hs
    exact ⟨t, rfl, h⟩
  | succ n ih =>
    obtain ⟨u, hu, hrest⟩ := run_succ_eq_next hs
    obtain ⟨v, hv, huv⟩ := h.step hc hu
    obtain ⟨t', ht, h'⟩ := ih huv hrest
    exact ⟨t', (run_succ_next hv).trans ht, h'⟩

end

end Sys2Proof.Machine
end

section
/-! PROOF. The relation that each operation keeps between two machines that have started it alike: what it has latched,
counted and stored is the same in both (10_state R38; 40 R117, 41 R133, 42 R154, 43 R184). -/

namespace Sys2Proof.Machine

open Config Claims

/-- The host may rely on the port in both or in neither, and then sees the same. -/
def AgreeAt (p : ReadPort) (s t : State) : Prop :=
  readValid s p = readValid t p ∧ (readValid s p = true → hostRead s p = hostRead t p)

/-! ### No operation runs -/

/-- Both machines are idle, and the refused start left the same result. -/
structure RestAlike (b : Block) (s t : State) : Prop where
  idle_left : s.idle
  idle_right : t.idle
  result : s.result b = t.result b

theorem blockStep_of_idle {s : State} (h : s.idle) : blockStep s = .next s := by
  rw [blockStep_pf h.2, pfStep, h.1]

theorem course_rest (b : Block) : Course (RestAlike b) where
  phases h := ⟨h.idle_left.1.trans h.idle_right.1.symm, h.idle_left.2.trans h.idle_right.2.symm⟩
  moved h _ _ _ _ := ⟨h.idle_left, h.idle_right, by cases b <;> exact h.result⟩
  turn {s t s'} h henv _ hs := by
    rw [blockStep_of_idle h.idle_left] at hs
    obtain rfl := Host.Outcome.next.inj hs
    exact ⟨t, blockStep_of_idle h.idle_right, henv, h⟩

/-! ### Operations of packet_framer -/

/-- packet_framer is as far in both machines, and the other block is idle. -/
structure PfAlike (s t : State) : Prop where
  rs_left : s.rsPhase = .idle
  rs_right : t.rsPhase = .idle
  phase : s.pfPhase = t.pfPhase
  result : s.pfResult = t.pfResult

theorem PfAlike.moved {s t : State} (h : PfAlike s t) (fi : List InElem → List InElem)
    (fr : List RxAnswer → List RxAnswer) (fb : Bool → Bool) (fs : List Move → List Move) :
    PfAlike (s.moved fi fr fb fs) (t.moved fi fr fb fs) := ⟨h.rs_left, h.rs_right, h.phase, h.result⟩

/-- Both in the same phase after a turn of packet_framer that left the same result. -/
theorem PfAlike.turned {s t s' t' : State} (h : PfAlike s t) (hs : s'.rsPhase = s.rsPhase) (ht : t'.rsPhase = t.rsPhase)
    (phase : s'.pfPhase = t'.pfPhase) (result : s'.pfResult = t'.pfResult) : PfAlike s' t' :=
  ⟨hs.trans h.rs_left, ht.trans h.rs_right, phase, result⟩

/-- A relation of packet_framer's elements is a course when its turns from a busy phase keep it. -/
theorem Course.ofPf {P : State → State → Prop} (base : ∀ {s t}, P s t → PfAlike s t)
    (moved : ∀ {s t : State}, P s t → ∀ fi fr fb fs, P (s.moved fi fr fb fs) (t.moved fi fr fb fs))
    (turn : ∀ {s t s' : State}, P s t → sameEnvironment s t → s.Inv → s.pfPhase ≠ .idle → pfStep s = .next s' →
      ∃ t', pfStep t = .next t' ∧ sameEnvironment s' t' ∧ P s' t') : Course P where
  phases h := ⟨(base h).phase, (base h).rs_left.trans (base h).rs_right.symm⟩
  moved := moved
  turn {s t s'} h henv hinv hs := by
    rw [blockStep_pf (base h).rs_left] at hs
    rw [blockStep_pf (base h).rs_right]
    by_cases hp : s.pfPhase = .idle
    · rw [pfStep, hp] at hs
      obtain rfl := Host.Outcome.next.inj hs
      exact ⟨t, by rw [pfStep, ← (base h).phase, hp], henv, h⟩
    · exact turn h henv hinv hp hs

/-- A phase that takes one element off `IN` a step, or holds. -/
structure ReadsIn (p : PfPhase) (f : Byte → State → State) (g : State → State) : Prop where
  nil : ∀ {s : State}, s.pfPhase = p → s.inp = [] → pfStep s = .next s
  byte : ∀ {s : State} {b : Byte} {rest : List InElem}, s.pfPhase = p → s.inp = .byte b :: rest →
    pfStep s = .next (f b (s.withInp rest))
  endMark : ∀ {s : State} {rest : List InElem}, s.pfPhase = p → s.inp = .endMark :: rest →
    pfStep s = .next (g (s.withInp rest))

theorem readsIn_cRun : ReadsIn .cRun csaAdd (finishPf .ok) where
  nil hp hin := (pfStep_cRun hp).trans (cRunStep_nil hin)
  byte hp hin := (pfStep_cRun hp).trans (cRunStep_byte hin)
  endMark hp hin := (pfStep_cRun hp).trans (cRunStep_endMark hin)

theorem readsIn_vRun : ReadsIn .vRun csaFeed csumVerifyEnd where
  nil hp hin := (pfStep_vRun hp).trans (vRunStep_nil hin)
  byte hp hin := (pfStep_vRun hp).trans (vRunStep_byte hin)
  endMark hp hin := (pfStep_vRun hp).trans (vRunStep_endMark hin)

theorem readsIn_dRun : ReadsIn .dRun decodeByte decodeEnd where
  nil hp hin := (pfStep_dRun hp).trans (dRunStep_nil hin)
  byte hp hin := (pfStep_dRun hp).trans (dRunStep_byte hin)
  endMark hp hin := (pfStep_dRun hp).trans (dRunStep_endMark hin)

/-- Both take the same element. -/
theorem ReadsIn.turn {P : State → State → Prop} {p : PfPhase} {f : Byte → State → State} {g : State → State}
    (hr : ReadsIn p f g) {s t s' : State} (hp : s.pfPhase = p) (hq : t.pfPhase = p) (h : P s t)
    (henv : sameEnvironment s t) (hs : pfStep s = .next s')
    (moved : ∀ fi fr fb fs, P (s.moved fi fr fb fs) (t.moved fi fr fb fs))
    (byte : ∀ {u v : State} (b : Byte), u.pfPhase = p → P u v → sameEnvironment u v →
      sameEnvironment (f b u) (f b v) ∧ P (f b u) (f b v))
    (endMark : ∀ {u v : State}, u.pfPhase = p → P u v → sameEnvironment u v → sameEnvironment (g u) (g v) ∧ P (g u) (g v)) :
    ∃ t', pfStep t = .next t' ∧ sameEnvironment s' t' ∧ P s' t' := by
  have hin' := henv.inp
  rcases hin : s.inp with _ | ⟨b | _, rest⟩ <;> rw [hin] at hin'
  · rw [hr.nil hp hin] at hs
    obtain rfl := Host.Outcome.next.inj hs
    exact ⟨t, hr.nil hq hin'.symm, henv, h⟩
  · rw [hr.byte hp hin] at hs
    obtain rfl := Host.Outcome.next.inj hs
    exact ⟨_, hr.byte hq hin'.symm, byte b hp (moved (fun _ => rest) id id id) (henv.moved (fun _ => rest) id id id)⟩
  · rw [hr.endMark hp hin] at hs
    obtain rfl := Host.Outcome.next.inj hs
    exact ⟨_, hr.endMark hq hin'.symm, endMark hp (moved (fun _ => rest) id id id) (henv.moved (fun _ => rest) id id id)⟩

/-- Both show the same status of packet_framer. -/
theorem PfAlike.agreeAt {s t : State} (h : PfAlike s t) : AgreeAt .pfBusy s t ∧ AgreeAt .pfResult s t := by
  refine ⟨⟨rfl, fun _ => ?_⟩, ⟨rfl, fun _ => congrArg (fun r : ResultCode => ReadValue.code r.code) h.result⟩⟩
  exact congrArg (fun p : PfPhase => ReadValue.bit (p != .idle)) h.phase

theorem PfAlike.hasValueOf {s t : State} (h : PfAlike s t) (hop : s.pfOp = t.pfOp) (op : PfOp) :
    hasValueOf op s = hasValueOf op t := by
  rw [Bool.eq_iff_iff, hasValueOf_iff, hasValueOf_iff, h.phase, h.result, hop]

/-! ### CSUM_COMPUTE and CSUM_VERIFY -/

/-- CSUM_COMPUTE is as far in both machines. -/
structure ComputeAlike (s t : State) : Prop extends PfAlike s t where
  running : s.pfPhase = .cRun ∨ s.pfPhase = .idle
  acc : s.acc = t.acc
  op : s.pfOp = t.pfOp

theorem ComputeAlike.moved {s t : State} (h : ComputeAlike s t) (fi : List InElem → List InElem)
    (fr : List RxAnswer → List RxAnswer) (fb : Bool → Bool) (fs : List Move → List Move) :
    ComputeAlike (s.moved fi fr fb fs) (t.moved fi fr fb fs) := ⟨h.toPfAlike.moved fi fr fb fs, h.running, h.acc, h.op⟩

theorem course_compute : Course ComputeAlike := by
  refine .ofPf (fun h => h.toPfAlike) (fun h => h.moved) fun h henv _ hbusy hs => ?_
  have hp := h.running.resolve_right hbusy
  refine readsIn_cRun.turn hp (h.phase.symm.trans hp) h henv hs h.moved (fun b hp h henv => ⟨henv, ?_⟩)
    (fun hp h henv => ⟨henv, ?_⟩)
  · exact ⟨h.turned rfl rfl h.phase h.result, h.running, congrArg (· + b) h.acc, h.op⟩
  · exact ⟨h.turned rfl rfl rfl rfl, .inr rfl, h.acc, h.op⟩

theorem ComputeAlike.agreeAt {s t : State} (h : ComputeAlike s t) : AgreeAt .pfCsum s t :=
  ⟨h.hasValueOf h.op .csumCompute, fun _ => congrArg ReadValue.byte h.acc⟩

/-- CSUM_VERIFY is as far in both machines; the flag is the same once it has ended. -/
structure VerifyAlike (s t : State) : Prop extends PfAlike s t where
  running : s.pfPhase = .vRun ∨ s.pfPhase = .idle
  acc : s.acc = t.acc
  last : s.csaLast = t.csaLast
  held : s.csaHave = t.csaHave
  op : s.pfOp = t.pfOp
  flag : s.pfPhase = .idle → s.pfFlag = t.pfFlag

theorem VerifyAlike.moved {s t : State} (h : VerifyAlike s t) (fi : List InElem → List InElem)
    (fr : List RxAnswer → List RxAnswer) (fb : Bool → Bool) (fs : List Move → List Move) :
    VerifyAlike (s.moved fi fr fb fs) (t.moved fi fr fb fs) :=
  ⟨h.toPfAlike.moved fi fr fb fs, h.running, h.acc, h.last, h.held, h.op, h.flag⟩

theorem csaMatch_congr {s t : State} (acc : s.acc = t.acc) (last : s.csaLast = t.csaLast) (held : s.csaHave = t.csaHave) :
    csaMatch s = csaMatch t := by rw [csaMatch, csaMatch, acc, last, held]

theorem csaFeed_acc_congr {s t : State} (acc : s.acc = t.acc) (last : s.csaLast = t.csaLast)
    (held : s.csaHave = t.csaHave) (b : Byte) : (csaFeed b s).acc = (csaFeed b t).acc := by
  rw [csaFeed_acc, csaFeed_acc, acc, last, held]

theorem course_verify : Course VerifyAlike := by
  refine .ofPf (fun h => h.toPfAlike) (fun h => h.moved) fun h henv _ hbusy hs => ?_
  have hp := h.running.resolve_right hbusy
  refine readsIn_vRun.turn hp (h.phase.symm.trans hp) h henv hs h.moved (fun b hp h henv => ⟨henv, ?_⟩)
    (fun hp h henv => ⟨henv, ?_⟩)
  · exact ⟨h.turned rfl rfl h.phase h.result, h.running, csaFeed_acc_congr h.acc h.last h.held b, rfl, rfl, h.op,
      fun hidle => absurd (hp.symm.trans hidle) (by decide)⟩
  · exact ⟨h.turned rfl rfl rfl rfl, .inr rfl, h.acc, h.last, h.held, h.op, fun _ => csaMatch_congr h.acc h.last h.held⟩

theorem VerifyAlike.agreeAt {s t : State} (h : VerifyAlike s t) : AgreeAt .pfFlag s t :=
  ⟨h.hasValueOf h.op .csumVerify, fun hvalid => congrArg ReadValue.bit (h.flag (hasValueOf_iff.1 hvalid).1)⟩

/-! ### ENCODE -/

/-- ENCODE is as far in both machines, with the same operands latched. -/
structure EncodeAlike (s t : State) : Prop extends PfAlike s t where
  running : s.pfPhase.encoding = true ∨ s.pfPhase = .idle
  acc : s.acc = t.acc
  code : s.encCode = t.encCode
  count : s.encN = t.encN
  index : s.encI = t.encI
  args : ∀ j, j < s.encN.toNat → Memory.read s.argbuf j = Memory.read t.argbuf j

theorem EncodeAlike.moved {s t : State} (h : EncodeAlike s t) (fi : List InElem → List InElem)
    (fr : List RxAnswer → List RxAnswer) (fb : Bool → Bool) (fs : List Move → List Move) :
    EncodeAlike (s.moved fi fr fb fs) (t.moved fi fr fb fs) :=
  ⟨h.toPfAlike.moved fi fr fb fs, h.running, h.acc, h.code, h.count, h.index, h.args⟩

/-- Both send the same byte. -/
theorem EncodeAlike.emit {s t s' : State} (h : EncodeAlike s t) (henv : sameEnvironment s t) (b : Byte) {p : PfPhase}
    (hp : p.encoding = true) (hs : emitStep b p s = .next s') :
    ∃ t', emitStep b p t = .next t' ∧ sameEnvironment s' t' ∧ EncodeAlike s' t' := by
  cases hready : s.txReady with
  | false =>
    rw [emitStep_stalled hready] at hs
    obtain rfl := Host.Outcome.next.inj hs
    exact ⟨t, emitStep_stalled (henv.txReady.symm.trans hready) b p, henv, h⟩
  | true =>
    rw [emitStep_ready hready] at hs
    obtain rfl := Host.Outcome.next.inj hs
    exact ⟨_, emitStep_ready (henv.txReady.symm.trans hready) b p, henv.sent b,
      h.turned rfl rfl rfl h.result, .inl hp, congrArg (· + b) h.acc, h.code, h.count, h.index, h.args⟩

theorem EncodeAlike.emitArg {s t s' : State} (h : EncodeAlike s t) (henv : sameEnvironment s t) (hinv : s.Inv)
    (hp : s.pfPhase = .eArgs) (hs : eArgsStep s = .next s') :
    ∃ t', eArgsStep t = .next t' ∧ sameEnvironment s' t' ∧ EncodeAlike s' t' := by
  obtain ⟨b, hb⟩ := hinv.exists_arg hp
  have hb' : Memory.read t.argbuf t.encI.toNat = some b := by
    rw [← h.index, ← h.args _ (hinv.encoder.during hp), hb]
  cases hready : s.txReady with
  | false =>
    rw [eArgsStep_stalled hready hb] at hs
    obtain rfl := Host.Outcome.next.inj hs
    exact ⟨t, eArgsStep_stalled (henv.txReady.symm.trans hready) hb', henv, h⟩
  | true =>
    rw [eArgsStep_ready hready hb] at hs
    obtain rfl := Host.Outcome.next.inj hs
    have hnext : (if s.encI.toNat + 1 < s.encN.toNat then PfPhase.eArgs else .eCsum).encoding = true := by
      split_ifs <;> rfl
    exact ⟨_, eArgsStep_ready (henv.txReady.symm.trans hready) hb', henv.sent b,
      h.turned rfl rfl (by dsimp only; rw [h.index, h.count]) h.result, .inl hnext, congrArg (· + b) h.acc, h.code, h.count,
      congrArg (· + 1) h.index, h.args⟩

theorem EncodeAlike.emitSum {s t s' : State} (h : EncodeAlike s t) (henv : sameEnvironment s t)
    (hs : eCsumStep s = .next s') : ∃ t', eCsumStep t = .next t' ∧ sameEnvironment s' t' ∧ EncodeAlike s' t' := by
  cases hready : s.txReady with
  | false =>
    rw [eCsumStep_stalled hready] at hs
    obtain rfl := Host.Outcome.next.inj hs
    exact ⟨t, eCsumStep_stalled (henv.txReady.symm.trans hready), henv, h⟩
  | true =>
    rw [eCsumStep_ready hready] at hs
    obtain rfl := Host.Outcome.next.inj hs
    refine ⟨_, eCsumStep_ready (henv.txReady.symm.trans hready), ?_,
      h.turned rfl rfl rfl rfl, .inr rfl, h.acc, h.code, h.count, h.index, h.args⟩
    rw [← h.acc]
    exact henv.sent s.acc

theorem course_encode : Course EncodeAlike := by
  refine .ofPf (fun h => h.toPfAlike) (fun h => h.moved) fun {s t s'} h henv hinv hbusy hs => ?_
  have hq := h.phase
  rcases PfPhase.encoding_iff.1 (h.running.resolve_right hbusy) with hp | hp | hp | hp | hp <;> rw [hp] at hq
  · rw [pfStep_eHdr hp] at hs
    rw [pfStep_eHdr hq.symm]
    exact h.emit henv _ rfl hs
  · rw [pfStep_eLen hp] at hs
    rw [pfStep_eLen hq.symm, eLenStep, ← h.count]
    exact h.emit henv _ rfl hs
  · rw [pfStep_eCode hp] at hs
    rw [pfStep_eCode hq.symm, eCodeStep, ← h.count, ← h.code]
    exact h.emit henv _ (by split_ifs <;> rfl) hs
  · rw [pfStep_eArgs hp] at hs
    rw [pfStep_eArgs hq.symm]
    exact h.emitArg henv hinv hp hs
  · rw [pfStep_eCsum hp] at hs
    rw [pfStep_eCsum hq.symm]
    exact h.emitSum henv hs

end Sys2Proof.Machine
end

section
/-! PROOF. DECODE and RESYNC side by side, and the result of an operation as a function of its operands and of what the
environment supplies (10_state R38). -/

namespace Sys2Proof.Machine

open Config Claims

/-! ### DECODE -/

/-- DECODE is as far in both machines: the same operands, the same count, and the same bytes stored below it. -/
structure DecodeAlike (s t : State) : Prop extends PfAlike s t where
  running : s.pfPhase = .dRun ∨ s.pfPhase = .idle
  acc : s.acc = t.acc
  last : s.csaLast = t.csaLast
  held : s.csaHave = t.csaHave
  size : s.decE = t.decE
  hasLen : s.decHasLen = t.decHasLen
  hasCsum : s.decHasCsum = t.decHasCsum
  count : s.decCnt = t.decCnt
  overflow : s.decOver = t.decOver
  lengthByte : s.decLen = t.decLen
  stored : ∀ j, j < s.decCnt.toNat → Memory.read s.rbuf j = Memory.read t.rbuf j
  valid : s.rbufValid = t.rbufValid
  pending : s.pfPhase = .dRun → s.rbufValid = false
  whole : s.rbufValid = true → s.decCnt = s.decE

theorem DecodeAlike.moved {s t : State} (h : DecodeAlike s t) (fi : List InElem → List InElem)
    (fr : List RxAnswer → List RxAnswer) (fb : Bool → Bool) (fs : List Move → List Move) :
    DecodeAlike (s.moved fi fr fb fs) (t.moved fi fr fb fs) :=
  { h with toPfAlike := h.toPfAlike.moved fi fr fb fs }

/-- Both store the same byte at the same place. -/
theorem read_write_congr {m m' : Memory} {n : Byte} (h : ∀ j, j < n.toNat → Memory.read m j = Memory.read m' j)
    (hroom : n.toNat < 255) (b : Byte) (j : Nat) (hj : j < (n + 1).toNat) :
    Memory.read (Memory.write m n.toNat b) j = Memory.read (Memory.write m' n.toNat b) j := by
  rw [toNat_succ hroom] at hj
  rw [Memory.read_write, Memory.read_write]
  split_ifs with he
  · rfl
  · exact h j (by omega)

theorem DecodeAlike.decodeByte {s t : State} (h : DecodeAlike s t) (hp : s.pfPhase = .dRun) (b : Byte) :
    DecodeAlike (decodeByte b s) (decodeByte b t) := by
  by_cases hroom : s.decCnt.toNat < 255
  · rw [decodeByte_of_lt hroom, decodeByte_of_lt (h.count ▸ hroom)]
    exact { h with
      toPfAlike := h.turned rfl rfl h.phase h.result
      acc := csaFeed_acc_congr h.acc h.last h.held b
      last := rfl
      held := rfl
      count := congrArg (· + 1) h.count
      lengthByte := by dsimp only; rw [h.count, h.lengthByte]
      stored := fun j hj => by dsimp only; rw [← h.count]; exact read_write_congr h.stored hroom b j hj
      whole := fun hv => absurd (h.pending hp) (by rw [show s.rbufValid = true from hv]; decide) }
  · rw [decodeByte_of_not_lt hroom, decodeByte_of_not_lt (h.count ▸ hroom)]
    exact { h with
      toPfAlike := h.turned rfl rfl h.phase h.result
      overflow := rfl }

theorem DecodeAlike.decodeEnd {s t : State} (h : DecodeAlike s t) (hp : s.pfPhase = .dRun) :
    DecodeAlike (decodeEnd s) (decodeEnd t) := by
  have hverdict : decodeVerdict s = decodeVerdict t := by
    rw [decodeVerdict, decodeVerdict, h.overflow, h.count, h.size, h.hasLen, h.hasCsum, h.lengthByte,
      csaMatch_congr h.acc h.last h.held]
  rw [decodeEnd_eq, decodeEnd_eq, ← hverdict, h.pending hp, ← h.valid, h.pending hp]
  exact { h with
    toPfAlike := h.turned rfl rfl rfl rfl
    running := .inr rfl
    valid := rfl
    pending := nofun
    whole := fun hv => decodeVerdict_eq_ok_decCnt (s := s) (by simpa using hv) }

theorem sameEnvironment_decodeByte {s t : State} (h : sameEnvironment s t) (b : Byte) :
    sameEnvironment (decodeByte b s) (decodeByte b t) := by
  rw [decodeByte_frame, decodeByte_frame b t]
  exact h

theorem sameEnvironment_decodeEnd {s t : State} (h : sameEnvironment s t) :
    sameEnvironment (decodeEnd s) (decodeEnd t) := by
  rw [decodeEnd_eq, decodeEnd_eq]
  exact h

theorem course_decode : Course DecodeAlike := by
  refine .ofPf (fun h => h.toPfAlike) (fun h => h.moved) fun h henv _ hbusy hs => ?_
  have hp := h.running.resolve_right hbusy
  exact readsIn_dRun.turn hp (h.phase.symm.trans hp) h henv hs h.moved
    (fun b hp h henv => ⟨sameEnvironment_decodeByte henv b, h.decodeByte hp b⟩)
    (fun hp h henv => ⟨sameEnvironment_decodeEnd henv, h.decodeEnd hp⟩)

theorem DecodeAlike.rbufReadable {s t : State} (h : DecodeAlike s t) : rbufReadable s = rbufReadable t := by
  rw [Bool.eq_iff_iff, rbufReadable_iff, rbufReadable_iff, h.phase, h.result, h.valid]

/-- A validated frame is stored whole, so the host reads the same of it in both. -/
theorem DecodeAlike.rbufRead {s t : State} (h : DecodeAlike s t) (i : Nat) : rbufRead s i = rbufRead t i := by
  rw [Machine.rbufRead, Machine.rbufRead, ← h.rbufReadable, ← h.size]
  refine ite_congr rfl (fun ⟨hr, hi⟩ => ?_) fun _ => rfl
  obtain ⟨-, -, hvalid⟩ := rbufReadable_iff.1 hr
  exact h.stored i (by rw [h.whole hvalid]; exact hi)

theorem DecodeAlike.measField {s t : State} (h : DecodeAlike s t) (i : Nat) : measField s i = measField t i := by
  rw [Machine.measField, Machine.measField, h.size, h.rbufRead, h.rbufRead]

/-- A byte to be relied on is shown as it is, whatever the host has read before. -/
theorem shownByte_of_isSome {v : Option Byte} (h : v.isSome = true) (n m : Nat) : shownByte v n = shownByte v m := by
  obtain ⟨b, rfl⟩ := Option.isSome_iff_exists.1 h
  rfl

theorem shownHalf_of_isSome {v : Option Half} (h : v.isSome = true) (n m : Nat) : shownHalf v n = shownHalf v m := by
  obtain ⟨b, rfl⟩ := Option.isSome_iff_exists.1 h
  rfl

/-- DECODE's result at each port that shows it. -/
theorem DecodeAlike.agreeAt {s t : State} (h : DecodeAlike s t) :
    AgreeAt .rbufValid s t ∧ AgreeAt .rbufLen s t ∧ (∀ i, AgreeAt (.rbuf i) s t) ∧
      ∀ p k, viewOffset p = some k → AgreeAt p s t := by
  refine ⟨⟨rfl, fun _ => congrArg ReadValue.bit h.valid⟩, ⟨rfl, fun _ => congrArg ReadValue.byte h.size⟩,
    fun i => ⟨congrArg Option.isSome (h.rbufRead i.toNat), fun hv => ?_⟩, fun p k hk => ?_⟩
  · show ReadValue.byte (shownByte (Machine.rbufRead s i.toNat) s.readTurn) =
      .byte (shownByte (Machine.rbufRead t i.toNat) t.readTurn)
    rw [← h.rbufRead, shownByte_of_isSome hv]
  · obtain ⟨-, hvalid, hread⟩ := read_of_viewOffset hk s
    obtain ⟨-, hvalid', hread'⟩ := read_of_viewOffset hk t
    rw [AgreeAt, hvalid, hvalid', hread, hread', ← h.measField]
    exact ⟨rfl, fun hv => by rw [shownHalf_of_isSome hv]⟩

/-! ### RESYNC -/

/-- RESYNC is as far in both machines: the same size and count, and the same bytes stored below it. -/
structure ResyncAlike (s t : State) : Prop where
  pf_left : s.pfPhase = .idle
  pf_right : t.pfPhase = .idle
  phase : s.rsPhase = t.rsPhase
  result : s.rsResult = t.rsResult
  size : s.rsE = t.rsE
  count : s.rsCnt = t.rsCnt
  seen : s.pdSeen1 = t.pdSeen1
  stored : ∀ j, j < s.rsCnt.toNat → Memory.read s.fbuf j = Memory.read t.fbuf j
  valid : s.fbufValid = t.fbufValid
  pending : s.rsPhase ≠ .idle → s.fbufValid = false
  whole : s.fbufValid = true → s.rsCnt = s.rsE

theorem ResyncAlike.moved {s t : State} (h : ResyncAlike s t) (fi : List InElem → List InElem)
    (fr : List RxAnswer → List RxAnswer) (fb : Bool → Bool) (fs : List Move → List Move) :
    ResyncAlike (s.moved fi fr fb fs) (t.moved fi fr fb fs) := { h with }

theorem ResyncAlike.withRx {s t : State} (h : ResyncAlike s t) (rx : List RxAnswer) (turn : Nat) :
    ResyncAlike (s.withRx rx turn) (t.withRx rx turn) := { h with }

theorem ResyncAlike.finishRs {s t : State} (h : ResyncAlike s t) (r : ResultCode) :
    ResyncAlike (finishRs r s) (finishRs r t) :=
  { h with phase := rfl, result := rfl, pending := fun hp => absurd rfl hp }

theorem ResyncAlike.pdNote {s t : State} (h : ResyncAlike s t) (b : Byte) : ResyncAlike (pdNote b s) (pdNote b t) :=
  { h with seen := rfl }

/-- The frame is complete in both. -/
theorem ResyncAlike.resyncDone {s t : State} (h : ResyncAlike s t) (hwhole : s.rsCnt = s.rsE) :
    ResyncAlike (resyncDone s) (resyncDone t) :=
  { h with phase := rfl, result := rfl, valid := rfl, pending := fun hp => absurd rfl hp, whole := fun _ => hwhole }

theorem ResyncAlike.withHeader {s t : State} (h : ResyncAlike s t) (hp : s.rsPhase ≠ .idle) :
    ResyncAlike s.withHeader t.withHeader :=
  { h with
    count := rfl
    seen := rfl
    stored := fun j (hj : j < 2) => by rw [read_withHeader_fbuf, read_withHeader_fbuf, if_pos hj, if_pos hj]
    whole := fun hv => absurd (h.pending hp) (by rw [show s.fbufValid = true from hv]; decide) }

theorem ResyncAlike.resyncMatch {s t : State} (h : ResyncAlike s t) (hp : s.rsPhase ≠ .idle) :
    ResyncAlike (resyncMatch s) (resyncMatch t) := by
  by_cases h2 : s.rsE = 2
  · rw [resyncMatch_of_eq h2, resyncMatch_of_eq (h.size ▸ h2)]
    exact (h.withHeader hp).resyncDone h2.symm
  · rw [resyncMatch_of_ne h2, resyncMatch_of_ne (h.size ▸ h2)]
    exact { h.withHeader hp with phase := rfl, pending := fun _ => h.pending hp }

theorem ResyncAlike.storeByte {s t : State} (h : ResyncAlike s t) (hp : s.rsPhase ≠ .idle) (hroom : s.rsCnt.toNat < 255)
    (b : Byte) : ResyncAlike (storeByte b s) (storeByte b t) :=
  { h with
    count := congrArg (· + 1) h.count
    stored := fun j hj => by
      show Memory.read (Memory.write s.fbuf s.rsCnt.toNat b) j = Memory.read (Memory.write t.fbuf t.rsCnt.toNat b) j
      rw [← h.count]
      exact read_write_congr h.stored hroom b j hj
    whole := fun hv => absurd (h.pending hp) (by rw [show s.fbufValid = true from hv]; decide) }

theorem sameEnvironment_resyncMatch {s t : State} (h : sameEnvironment s t) :
    sameEnvironment (resyncMatch s) (resyncMatch t) := by
  rw [resyncMatch_frame, resyncMatch_frame t]
  exact h

/-- Both take the same turn of uart_resync_matcher. -/
theorem ResyncAlike.turn {s t s' : State} (h : ResyncAlike s t) (henv : sameEnvironment s t) (hs : rsStep s = .next s') :
    ∃ t', rsStep t = .next t' ∧ sameEnvironment s' t' ∧ ResyncAlike s' t' := by
  have hq : ∀ {p}, s.rsPhase = p → t.rsPhase = p := fun hp => h.phase.symm.trans hp
  cases rsStep_rsTurn hs with
  | hold phase => exact ⟨t, by rw [rsStep, hq phase], henv, h⟩
  | @timeout rx turn phase pop =>
    exact ⟨_, rsStep_exhausted (h.phase ▸ phase) (henv.rxPop pop), henv.withRx rx turn,
      (h.withRx rx turn).finishRs _⟩
  | @header b rx turn phase pop found =>
    have hbusy : s.rsPhase ≠ .idle := by simp [phase]
    have hfound : t.pdSeen1 = true ∧ b = hdr1 := h.seen ▸ pdMatch_iff.1 found
    exact ⟨_, rsStep_header (hq phase) (henv.rxPop pop) hfound, sameEnvironment_resyncMatch (henv.withRx rx turn),
      (h.withRx rx turn).resyncMatch hbusy⟩
  | @note b rx turn phase pop found =>
    have hfound : ¬ (t.pdSeen1 = true ∧ b = hdr1) := h.seen ▸ mt pdMatch_iff.2 (Bool.eq_false_iff.1 found)
    exact ⟨_, rsStep_note (hq phase) (henv.rxPop pop) hfound, henv.withRx rx turn,
      (h.withRx rx turn).pdNote b⟩
  | @store b rx turn phase pop room more =>
    have hbusy : s.rsPhase ≠ .idle := by simp [phase]
    refine ⟨_, (rsStep_store (hq phase) (henv.rxPop pop) (h.count ▸ room)).trans
      (congrArg Host.Outcome.next (if_neg (by rw [← h.count, ← h.size]; exact more))), henv.withRx rx turn,
      (h.withRx rx turn).storeByte hbusy room b⟩
  | @complete b rx turn phase pop room last =>
    have hbusy : s.rsPhase ≠ .idle := by simp [phase]
    refine ⟨_, (rsStep_store (hq phase) (henv.rxPop pop) (h.count ▸ room)).trans
      (congrArg Host.Outcome.next (if_pos (by rw [← h.count, ← h.size]; exact last))), henv.withRx rx turn,
      ((h.withRx rx turn).storeByte hbusy room b).resyncDone ?_⟩
    exact BitVec.eq_of_toNat_eq ((toNat_succ room).trans last)

theorem course_resync : Course ResyncAlike where
  phases h := ⟨h.pf_left.trans h.pf_right.symm, h.phase⟩
  moved h := h.moved
  turn h henv _ hs := by
    rw [blockStep_rs h.pf_left] at hs
    rw [blockStep_rs h.pf_right]
    exact h.turn henv hs

theorem ResyncAlike.fbufReadable {s t : State} (h : ResyncAlike s t) : fbufReadable s = fbufReadable t := by
  rw [Bool.eq_iff_iff, fbufReadable_iff, fbufReadable_iff, h.phase, h.result, h.valid]

theorem ResyncAlike.fbufRead {s t : State} (h : ResyncAlike s t) (i : Nat) : fbufRead s i = fbufRead t i := by
  rw [Machine.fbufRead, Machine.fbufRead, ← h.fbufReadable, ← h.size]
  refine ite_congr rfl (fun ⟨hr, hi⟩ => ?_) fun _ => rfl
  obtain ⟨-, -, hvalid⟩ := fbufReadable_iff.1 hr
  exact h.stored i (by rw [h.whole hvalid]; exact hi)

/-- The status of uart_resync_matcher. -/
theorem agreeAt_rsStatus {s t : State} (phase : s.rsPhase = t.rsPhase) (result : s.rsResult = t.rsResult) :
    AgreeAt .rsBusy s t ∧ AgreeAt .rsResult s t :=
  ⟨⟨rfl, fun _ => congrArg (fun p : RsPhase => ReadValue.bit (p != .idle)) phase⟩,
    ⟨rfl, fun _ => congrArg (fun r : ResultCode => ReadValue.code r.code) result⟩⟩

/-- RESYNC's result at each port that shows it. -/
theorem ResyncAlike.agreeAt {s t : State} (h : ResyncAlike s t) :
    AgreeAt .fbufValid s t ∧ AgreeAt .fbufLen s t ∧ ∀ i, AgreeAt (.fbuf i) s t := by
  refine ⟨⟨rfl, fun _ => congrArg ReadValue.bit h.valid⟩, ⟨rfl, fun _ => congrArg ReadValue.byte h.size⟩,
    fun i => ⟨congrArg Option.isSome (h.fbufRead i.toNat), fun hv => ?_⟩⟩
  show ReadValue.byte (shownByte (Machine.fbufRead s i.toNat) s.readTurn) =
    .byte (shownByte (Machine.fbufRead t i.toNat) t.readTurn)
  rw [← h.fbufRead, shownByte_of_isSome hv]

end Sys2Proof.Machine
end

section
/-! PROOF. The result of an operation is a function of its operands and of what the environment supplies (10_state R38;
40 R117, 70_reset R264): both machines start the operation alike, and stay so. -/

namespace Sys2Proof.Machine

open Config Claims

/-! ### The ports of a result -/

theorem resyncOp_of_fbufPort {i : Instr} (h : resultPort.fbufPort i = true) : resyncOp i = true := by
  cases i with
  | resync => rfl
  | frameMeasurement => rfl
  | _ => cases h

/-- What a result is to be compared at: the status of the block, and the value of the operation. -/
theorem agreeAt_resultPort {m : MeasLayout} {i : Instr} {p : ReadPort} {s t : State} (hp : resultPort m i p = true)
    (pf : packetFramerOp i = true → AgreeAt .pfBusy s t ∧ AgreeAt .pfResult s t)
    (sum : i = .csumCompute → AgreeAt .pfCsum s t) (flag : i = .csumVerify → AgreeAt .pfFlag s t)
    (rbuf : ((decodeOperands m i).isSome || (echoBuffer i).isSome) = true → AgreeAt .rbufValid s t ∧
      AgreeAt .rbufLen s t ∧ (∀ j, AgreeAt (.rbuf j) s t) ∧ ∀ p k, viewOffset p = some k → AgreeAt p s t)
    (rs : resyncOp i = true → AgreeAt .rsBusy s t ∧ AgreeAt .rsResult s t)
    (fbuf : resultPort.fbufPort i = true → AgreeAt .fbufValid s t ∧ AgreeAt .fbufLen s t ∧ ∀ j, AgreeAt (.fbuf j) s t) :
    AgreeAt p s t := by
  cases p with
  | pfBusy => exact (pf hp).1
  | pfResult => exact (pf hp).2
  | pfCsum => exact sum (of_decide_eq_true hp)
  | pfFlag => exact flag (of_decide_eq_true hp)
  | rsBusy => exact (rs hp).1
  | rsResult => exact (rs hp).2
  | rbufValid => exact (rbuf hp).1
  | rbufLen => obtain ⟨-, hlen, -⟩ := rbuf hp; exact hlen
  | rbuf j => obtain ⟨-, -, hentry, -⟩ := rbuf hp; exact hentry j
  | measDistance => obtain ⟨-, -, -, hview⟩ := rbuf hp; exact hview _ 2 rfl
  | measStrength => obtain ⟨-, -, -, hview⟩ := rbuf hp; exact hview _ 4 rfl
  | measTemperature => obtain ⟨-, -, -, hview⟩ := rbuf hp; exact hview _ 6 rfl
  | fbufValid => exact (fbuf hp).1
  | fbufLen => obtain ⟨-, hlen, -⟩ := fbuf hp; exact hlen
  | fbuf j => obtain ⟨-, -, hentry⟩ := fbuf hp; exact hentry j

/-! ### Starts -/

/-- Two machines that instruction i has started alike: some course holds between them, along which its result agrees. -/
def StartedAlike (m : MeasLayout) (i : Instr) (s t : State) : Prop :=
  ∃ P : State → State → Prop, Course P ∧ P s t ∧ sameEnvironment s t ∧
    ∀ u v, P u v → ∀ p, resultPort m i p = true → AgreeAt p u v

theorem csumComputeStart_alike {s t : State} (hs : s.idle) (ht : t.idle) :
    ComputeAlike (csumComputeStart s) (csumComputeStart t) := ⟨⟨hs.2, ht.2, rfl, rfl⟩, .inl rfl, rfl, rfl⟩

theorem csumVerifyStart_alike {s t : State} (hs : s.idle) (ht : t.idle) :
    VerifyAlike (csumVerifyStart s) (csumVerifyStart t) := ⟨⟨hs.2, ht.2, rfl, rfl⟩, .inl rfl, rfl, rfl, rfl, rfl, nofun⟩

theorem encodeStart_alike {s t : State} (hs : s.idle) (ht : t.idle) (code : Byte) {args : List Byte}
    (hargs : args.length ≤ 251) : EncodeAlike (encodeStart code args s) (encodeStart code args t) := by
  refine ⟨⟨hs.2, ht.2, rfl, rfl⟩, .inl rfl, rfl, rfl, rfl, rfl, fun j hj => ?_⟩
  have hcount : (BitVec.ofNat 8 args.length).toNat = args.length := Nat.mod_eq_of_lt (by omega)
  have hj : j < args.length := hcount ▸ hj
  rw [read_encodeStart_argbuf, read_encodeStart_argbuf, if_pos hj, if_pos hj]

theorem decodeStart_alike {s t : State} (hs : s.idle) (ht : t.idle) (e : Byte) (hasLen hasCsum : Bool) :
    DecodeAlike (decodeStart e hasLen hasCsum s) (decodeStart e hasLen hasCsum t) :=
  ⟨⟨hs.2, ht.2, rfl, rfl⟩, .inl rfl, rfl, rfl, rfl, rfl, rfl, rfl, rfl, rfl, rfl, fun _ hj => absurd hj (Nat.not_lt_zero _),
    rfl, fun _ => rfl, nofun⟩

theorem resyncStart_alike {s t : State} (hs : s.idle) (ht : t.idle) (e : Byte) :
    ResyncAlike (resyncStart e s) (resyncStart e t) :=
  ⟨hs.1, ht.1, rfl, rfl, rfl, rfl, rfl, fun _ hj => absurd hj (Nat.not_lt_zero _), rfl, fun _ => rfl, nofun⟩

section

variable {s t s' t' : State} {i : Instr} (hs : s.idle) (ht : t.idle)

include hs ht

/-- ENCODE, or a command frame that is one. -/
theorem startedAlike_encode {code : Byte} {args : List Byte} (henv : sameEnvironment s t)
    (hsum : i ≠ .csumCompute) (hflag : i ≠ .csumVerify)
    (hdec : ((decodeOperands s.meas i).isSome || (echoBuffer i).isSome) = false) (hrs : resyncOp i = false)
    (es : startPf s (encodeAccepted code args s) = .next s') (et : startPf t (encodeAccepted code args t) = .next t') :
    StartedAlike s.meas i s' t' := by
  have hfbuf : resultPort.fbufPort i = true → False := fun h => by rw [resyncOp_of_fbufPort h] at hrs; cases hrs
  rw [startPf_idle hs] at es
  rw [startPf_idle ht] at et
  obtain rfl := Host.Outcome.next.inj es
  obtain rfl := Host.Outcome.next.inj et
  by_cases hargs : args.length ≤ 251
  · rw [encodeAccepted_of_le hargs, encodeAccepted_of_le hargs]
    exact ⟨EncodeAlike, course_encode, encodeStart_alike hs ht code hargs, henv, fun u v h p hp =>
      agreeAt_resultPort hp (fun _ => h.agreeAt) (absurd · hsum) (absurd · hflag) (by simp [hdec]) (by simp [hrs])
        (hfbuf · |>.elim)⟩
  · rw [encodeAccepted_of_lt (Nat.lt_of_not_le hargs), encodeAccepted_of_lt (Nat.lt_of_not_le hargs)]
    have hrefused : RestAlike .packetFramer (refusePf s) (refusePf t) := ⟨hs, ht, rfl⟩
    refine ⟨RestAlike .packetFramer, course_rest _, hrefused, henv, fun u v h p hp =>
      agreeAt_resultPort hp (fun _ => PfAlike.agreeAt ⟨h.idle_left.2, h.idle_right.2, ?_, h.result⟩) (absurd · hsum)
        (absurd · hflag) (by simp [hdec]) (by simp [hrs]) (hfbuf · |>.elim)⟩
    exact h.idle_left.1.trans h.idle_right.1.symm

/-- DECODE on what `IN` holds, or on a presented frame. -/
theorem startedAlike_decode {a b : State} {e : Byte} {hasLen hasCsum : Bool} (ha : a.idle) (hb : b.idle)
    (hab : sameEnvironment a b) (hsum : i ≠ .csumCompute) (hflag : i ≠ .csumVerify) (hrs : resyncOp i = false)
    (es : startPf s (decodeStart e hasLen hasCsum a) = .next s')
    (et : startPf t (decodeStart e hasLen hasCsum b) = .next t') : StartedAlike s.meas i s' t' := by
  have hfbuf : resultPort.fbufPort i = true → False := fun h => by rw [resyncOp_of_fbufPort h] at hrs; cases hrs
  rw [startPf_idle hs] at es
  rw [startPf_idle ht] at et
  obtain rfl := Host.Outcome.next.inj es
  obtain rfl := Host.Outcome.next.inj et
  exact ⟨DecodeAlike, course_decode, decodeStart_alike ha hb e hasLen hasCsum, hab, fun u v h p hp =>
    agreeAt_resultPort hp (fun _ => h.toPfAlike.agreeAt) (absurd · hsum) (absurd · hflag) (fun _ => h.agreeAt)
      (by simp [hrs]) (hfbuf · |>.elim)⟩

/-- RESYNC with room for the header, or a measurement frame that it hunts for. -/
theorem startedAlike_resync {m : MeasLayout} (henv : sameEnvironment s t) (e : Byte) (hpf : packetFramerOp i = false)
    (hsum : i ≠ .csumCompute) (hflag : i ≠ .csumVerify)
    (hdec : ((decodeOperands m i).isSome || (echoBuffer i).isSome) = false) :
    StartedAlike m i (resyncStart e s) (resyncStart e t) :=
  ⟨ResyncAlike, course_resync, resyncStart_alike hs ht e, henv, fun u v h p hp =>
    agreeAt_resultPort hp (by simp [hpf]) (absurd · hsum) (absurd · hflag) (by simp [hdec])
      (fun _ => agreeAt_rsStatus h.phase h.result) (fun _ => h.agreeAt)⟩

/-- RESYNC without room for the header, refused. -/
theorem startedAlike_refuseRs {m : MeasLayout} (henv : sameEnvironment s t) {e : Byte} (he : e.toNat < 2) :
    StartedAlike m (.resync e) (refuseRs s) (refuseRs t) := by
  have hrefused : RestAlike .uartResyncMatcher (refuseRs s) (refuseRs t) := ⟨hs, ht, rfl⟩
  refine ⟨RestAlike .uartResyncMatcher, course_rest _, hrefused, henv, fun u v h p hp =>
    agreeAt_resultPort hp nofun nofun nofun nofun (fun _ => agreeAt_rsStatus ?_ h.result) fun hroom => ?_⟩
  · exact h.idle_left.2.trans h.idle_right.2.symm
  · exact absurd (of_decide_eq_true hroom) (Nat.not_le.2 he)

/-- Whatever instruction starts an operation, two idle machines in one environment start it alike. -/
theorem exec_startedAlike (henv : sameEnvironment s t) (hop : packetFramerOp i = true ∨ resyncOp i = true)
    (es : exec i s = .next s') (et : exec i t = .next t') : StartedAlike s.meas i s' t' := by
  have hmeas := henv.meas
  cases i with
  | nop => simp [packetFramerOp, resyncOp] at hop
  | reserved6 => simp [packetFramerOp, resyncOp] at hop
  | reserved7 => simp [packetFramerOp, resyncOp] at hop
  | csumCompute =>
    rw [exec_csumCompute_idle hs] at es
    rw [exec_csumCompute_idle ht] at et
    obtain rfl := Host.Outcome.next.inj es
    obtain rfl := Host.Outcome.next.inj et
    exact ⟨ComputeAlike, course_compute, csumComputeStart_alike hs ht, henv, fun u v h p hp =>
      agreeAt_resultPort hp (fun _ => h.toPfAlike.agreeAt) (fun _ => h.agreeAt) nofun nofun nofun nofun⟩
  | csumVerify =>
    rw [exec_csumVerify_idle hs] at es
    rw [exec_csumVerify_idle ht] at et
    obtain rfl := Host.Outcome.next.inj es
    obtain rfl := Host.Outcome.next.inj et
    exact ⟨VerifyAlike, course_verify, csumVerifyStart_alike hs ht, henv, fun u v h p hp =>
      agreeAt_resultPort hp (fun _ => h.toPfAlike.agreeAt) nofun (fun _ => h.agreeAt) nofun nofun nofun⟩
  | encode code args => exact startedAlike_encode hs ht henv nofun nofun rfl rfl es et
  | frameCommand code args => exact startedAlike_encode hs ht henv nofun nofun rfl rfl es et
  | cmdSetFrameRate10Hz => exact startedAlike_encode hs ht henv nofun nofun rfl rfl es et
  | cmdGetVersion => exact startedAlike_encode hs ht henv nofun nofun rfl rfl es et
  | decode e hasLen hasCsum => exact startedAlike_decode hs ht hs ht henv nofun nofun rfl es et
  | decodeEcho e => exact startedAlike_decode hs ht hs ht henv nofun nofun rfl es et
  | decodeMeas =>
    rw [show exec .decodeMeas t = startPf t (decodeStart t.meas.sizeByte false t.meas.hasCsum t) from rfl, ← hmeas] at et
    exact startedAlike_decode hs ht hs ht henv nofun nofun rfl es et
  | frameEchoResponse length code payload checksum =>
    exact startedAlike_decode hs ht (a := supplyAll _ s) (b := supplyAll _ t) hs ht
      (henv.moved (· ++ _ ++ _) id id id) nofun nofun rfl es et
  | rspGetVersion321 =>
    exact startedAlike_decode hs ht (a := supplyAll _ s) (b := supplyAll _ t) hs ht
      (henv.moved (· ++ _ ++ _) id id id) nofun nofun rfl es et
  | resync e =>
    rw [exec_resync_idle hs] at es
    rw [exec_resync_idle ht] at et
    obtain rfl := Host.Outcome.next.inj es
    obtain rfl := Host.Outcome.next.inj et
    by_cases he : 2 ≤ e.toNat
    · rw [resyncAccepted_of_le he, resyncAccepted_of_le he]
      exact startedAlike_resync hs ht henv e rfl nofun nofun rfl
    · rw [resyncAccepted_of_lt (Nat.lt_of_not_le he), resyncAccepted_of_lt (Nat.lt_of_not_le he)]
      exact startedAlike_refuseRs hs ht henv (Nat.lt_of_not_le he)
  | frameMeasurement d st tm tail =>
    rw [exec_frameMeasurement_idle hs] at es
    rw [exec_frameMeasurement_idle ht, ← hmeas] at et
    obtain rfl := Host.Outcome.next.inj es
    obtain rfl := Host.Outcome.next.inj et
    exact startedAlike_resync (s := deliver _ s) (t := deliver _ t) hs ht (henv.moved id (· ++ _) id id) _ rfl nofun nofun rfl

end

theorem Answered.script {s t : State} (answered : Answered s t) : t.script = s.script := by cases answered <;> rfl

/-- Settles O34: the two machines start alike, and one environment takes them through the same run. -/
theorem operationsDoNotDependOnHistory : Obligations.OperationsDoNotDependOnHistory := by
  unfold Obligations.OperationsDoNotDependOnHistory
  intro i s₁ s₂ t₁ t₂ hinv _ hidle₁ hidle₂ henv hduring hop h₁ h₂ n u₁ hrun
  obtain ⟨P, hcourse, hstart, henv', hports⟩ := exec_startedAlike hidle₁ hidle₂ henv hop h₁ h₂
  have halong : Alongside P t₁ t₂ :=
    ⟨hstart, henv', (exec_answered h₁).keeps_inv hinv, by rw [(exec_answered h₁).script]; exact hduring⟩
  obtain ⟨u₂, hrun₂, hend⟩ := halong.run hcourse hrun
  obtain ⟨hpf, hrs⟩ := hcourse.phases hend.alike
  exact ⟨u₂, hrun₂, hend.env, hpf, hrs, hports u₁ u₂ hend.alike⟩

end Sys2Proof.Machine
end
